-- ==== Sys2Proof/Word.lean ====
section
/-! DEFINITION. The data units of DC-CORE: bit, nibble, byte (spec 00_scope.md R13, section 4). -/

namespace Sys2Proof

/-- One symbol of the nibble-pack stream (20_memory.md R66): `false` is bit 0, `true` is bit 1. -/
abbrev Bit := Bool

/-- A 4-bit unsigned value: a high nibble, a low nibble, a count field. -/
abbrev Nibble := BitVec 4

/-- The data unit (00_scope.md R13): an unsigned 8-bit value. -/
abbrev Byte := BitVec 8

end Sys2Proof
end

