-- ==== Sys2Proof/Config.lean ====
section
/-! DEFINITION. What is fixed for a machine (spec 00_scope.md section 3): the parameters an implementation chooses
and the constants of the two formats. -/

namespace Sys2Proof

/-- The parameters of 00_scope.md R5, R11, R12 and of 92_eei_decisions.md ("Open parameters"). They are read only:
no event and no reset changes them (10_state.md R25, R48). A statement about every state is a statement about every
value of them. -/
structure Config where
  /-- `SENTINEL` (R5): one value for all units. -/
  sentinel : Byte := 0x24
  /-- `NP_STRICT_COUNT` (R11): what `NPD` does with a count field of 0 to 3. -/
  npStrictCount : Bool := false
  /-- `MAX_LEN` (R12): the longest pass of a bounded build; `none` is unbounded. No unit's rule reads it. -/
  maxLen : Option Nat := none
deriving DecidableEq, Repr

/-- The default parameters (R5, R11, R12). -/
def Config.default : Config := {}

/-- `NP_MAX_BLOCK` (R6). -/
def npMaxBlock : Nat := 15

/-- `NP_LIT_MAX` (R7). -/
def npLitMax : Nat := 3

/-- `RL_LIT_MAX` (R8). -/
def rlLitMax : Nat := 3

/-- `RL_MAX_RUN` (R9). -/
def rlMaxRun : Nat := 9

/-- `DIGIT_BASE` (R10). -/
def digitBase : Byte := 0x30

end Sys2Proof
end

