-- ==== Sys2Proof/Syntax.lean ====
section
/-! DEFINITION. The instructions of DC-CORE: one constructor for each row of spec/opcode_table.json. -/

namespace Sys2Proof

/-- The two kinds of codec instance (10_state.md R44); DC-CORE holds one of each (R45). -/
inductive Codec where
  | np
  | rl
deriving DecidableEq, Repr

/-- The stream handed over with `DECODE` (45_core_operations.md R203): bits for the `NP` instance, bytes for the
`RL` instance, so the stream's kind is the instance. -/
inductive Stream where
  | np (bits : List Bit)
  | rl (bytes : List Byte)
deriving DecidableEq, Repr

/-- The instance a stream is for. -/
def Stream.codec : Stream → Codec
  | .np _ => .np
  | .rl _ => .rl

/-- The instructions: twenty unit events (30_encoding.md R94), four stream tokens (R81, R82, R87) and four
instance operations (R97). `SV` exists once in each instance (10_state.md R45), so its events name the copy. -/
inductive Instr where
  | svNop (i : Codec)
  | svByte (i : Codec) (b : Byte)
  | svEnd (i : Codec)
  | svClear (i : Codec)
  | npeNop
  | npeByte (b : Byte)
  | npeEnd
  | npeClear
  | npdNop
  | npdBit (v : Bit)
  | npdEnd
  | npdClear
  | rleNop
  | rleByte (b : Byte)
  | rleEnd
  | rleClear
  | rldNop
  | rldByte (b : Byte)
  | rldEnd
  | rldClear
  | npLit (b : Byte)
  | npGrp (hi n : Nibble) (lo : List Nibble)
  | rlLit (b : Byte)
  | rlMrk (val dig : Byte)
  | cmdNew (i : Codec) (p : List Byte)
  | cmdEncode (i : Codec)
  | cmdDecode (s : Stream)
  | cmdDecodeOwn (i : Codec)
deriving DecidableEq, Repr

end Sys2Proof
end

