-- ==== Sys2Proof/WellFormed.lean ====
section
/-! DEFINITION. Which terms of `Instr` are instructions of the formats (30_encoding.md R81, R82, R87). -/

namespace Sys2Proof

/-- A literal token carries "any value except `SENTINEL`" (R81, R87); a packed group of count `n` carries `n` low
nibbles (R82). Every other operand may have any value: a port word has no reserved encoding (R95), payloads and
streams have any length and content (R201, R203), a marker's bytes are not examined (R89). -/
def Instr.WellFormed (cfg : Config) : Instr → Bool
  | .npLit b => b != cfg.sentinel
  | .rlLit b => b != cfg.sentinel
  | .npGrp _ n lo => lo.length == n.toNat
  | .svNop _ | .svByte _ _ | .svEnd _ | .svClear _ => true
  | .npeNop | .npeByte _ | .npeEnd | .npeClear => true
  | .npdNop | .npdBit _ | .npdEnd | .npdClear => true
  | .rleNop | .rleByte _ | .rleEnd | .rleClear => true
  | .rldNop | .rldByte _ | .rldEnd | .rldClear => true
  | .rlMrk _ _ => true
  | .cmdNew _ _ | .cmdEncode _ | .cmdDecode _ | .cmdDecodeOwn _ => true

end Sys2Proof
end

