-- ==== Sys2Proof/Decode.lean ====
section
/-! DEFINITION. What the host can send (ports, words, handed-over sequences), the decoder, the encoder, and the
reading of a word numbered as spec/opcode_table.json numbers it (30_encoding.md R80 to R97). -/

namespace Sys2Proof

/-! ### Bit fields -/

/-- `bits_N(v)` (00_scope.md section 4, 20_memory.md R65): the bits of a field, most significant first. -/
def bitsMsb {n : Nat} (v : BitVec n) : List Bit :=
  (List.range n).map v.getMsbD

/-- `val(bs)` (00_scope.md section 4) cut to `n` bits: a bit sequence read most significant bit first. -/
def valMsb (n : Nat) (bs : List Bit) : BitVec n :=
  BitVec.ofNat n (bs.foldl (fun a b => 2 * a + b.toNat) 0)

/-! ### What the host sends -/

/-- The five ports whose event word has 10 bits (R93), the two copies of `SV` apart (10_state.md R45). -/
inductive BytePort where
  | sv (i : Codec)
  | npe
  | rle
  | rld
deriving DecidableEq, Repr

/-- The sequence handed over beside a command word (R97: "are sequences and are not part of the word"). -/
inductive Operand where
  | none
  | bytes (p : List Byte)
  | bits (s : List Bit)
deriving DecidableEq, Repr

/-- One thing the host sends: an event word on a unit's port (R93), a command word with what is handed over (R97),
or one token of a stream for the matching decoder (R80, R86). A word does not name its port (R73), so the port
is part of what is sent. -/
inductive Request where
  | event (p : BytePort) (w : BitVec 10)
  | bitEvent (w : BitVec 3)
  | command (w : BitVec 3) (o : Operand)
  | npToken (s : List Bit)
  | rlToken (s : List Byte)
deriving DecidableEq, Repr

/-- The four kinds of event (R93). -/
inductive EventKind where
  | nop
  | symbol
  | stop
  | clear
deriving DecidableEq, Repr

/-- The `kind` field of a port word (R93). -/
def eventKind (k : BitVec 2) : EventKind :=
  if k = 0b00 then .nop else if k = 0b01 then .symbol else if k = 0b10 then .stop else .clear

/-- The `kind` field's value of an event (R93). -/
def EventKind.code : EventKind → BitVec 2
  | .nop => 0b00
  | .symbol => 0b01
  | .stop => 0b10
  | .clear => 0b11

/-- The four commands (R97). -/
inductive Command where
  | new
  | encode
  | decode
  | decodeOwn
deriving DecidableEq, Repr

/-- The `op` field of a command word (R97). -/
def commandOf (op : BitVec 2) : Command :=
  if op = 0b00 then .new else if op = 0b01 then .encode else if op = 0b10 then .decode else .decodeOwn

/-- The `op` field's value of a command (R97). -/
def Command.code : Command → BitVec 2
  | .new => 0b00
  | .encode => 0b01
  | .decode => 0b10
  | .decodeOwn => 0b11

/-- The `i` field of a command word (R97): 0 for `NP`, 1 for `RL`. -/
def codecOfBit (i : Bool) : Codec := if i then .rl else .np

/-- The `i` field's value of an instance (R97). -/
def Codec.bit : Codec → Bool
  | .np => false
  | .rl => true

/-! ### Decoding -/

/-- Why something sent is no instruction. Event words and command words have no reserved encoding (R95, R97); what
can be wrong is a handed-over sequence of the wrong kind and a token that is not exactly one token. -/
inductive DecodeError where
  /-- The sequence handed over with a command is not the one R211 says is handed over. -/
  | operandMismatch
  /-- A token's symbols end before the token does (R85, R89). -/
  | truncatedToken
  /-- Symbols stand after the token's end. -/
  | trailingSymbols
deriving DecidableEq, Repr

/-- The instruction of an event word on a 10-bit port (R93, R94). -/
def decodeEvent (p : BytePort) (w : BitVec 10) : Instr :=
  let b : Byte := w.extractLsb' 0 8
  match p, eventKind (w.extractLsb' 8 2) with
  | .sv i, .nop => .svNop i
  | .sv i, .symbol => .svByte i b
  | .sv i, .stop => .svEnd i
  | .sv i, .clear => .svClear i
  | .npe, .nop => .npeNop
  | .npe, .symbol => .npeByte b
  | .npe, .stop => .npeEnd
  | .npe, .clear => .npeClear
  | .rle, .nop => .rleNop
  | .rle, .symbol => .rleByte b
  | .rle, .stop => .rleEnd
  | .rle, .clear => .rleClear
  | .rld, .nop => .rldNop
  | .rld, .symbol => .rldByte b
  | .rld, .stop => .rldEnd
  | .rld, .clear => .rldClear

/-- The instruction of an event word on the 3-bit port of `NPD` (R93, R94). -/
def decodeBitEvent (w : BitVec 3) : Instr :=
  match eventKind (w.extractLsb' 1 2) with
  | .nop => .npdNop
  | .symbol => .npdBit (w.getLsbD 0)
  | .stop => .npdEnd
  | .clear => .npdClear

/-- The instruction of a command word with what is handed over (R97, R211): a payload with `NEW`, a stream of the
instance's kind with `DECODE`, nothing with the other two. -/
def decodeCommand (w : BitVec 3) (o : Operand) : Except DecodeError Instr :=
  match commandOf (w.extractLsb' 1 2), codecOfBit (w.getLsbD 0), o with
  | .new, i, .bytes p => .ok (.cmdNew i p)
  | .encode, i, .none => .ok (.cmdEncode i)
  | .decode, .np, .bits s => .ok (.cmdDecode (.np s))
  | .decode, .rl, .bytes s => .ok (.cmdDecode (.rl s))
  | .decodeOwn, i, .none => .ok (.cmdDecodeOwn i)
  | .new, _, _ => .error .operandMismatch
  | .encode, _, _ => .error .operandMismatch
  | .decode, _, _ => .error .operandMismatch
  | .decodeOwn, _, _ => .error .operandMismatch

/-- `take(k)` of 42_nibble_pack_decoder.md R149: the next `k` bits as a value, or nothing when fewer remain. -/
def takeField (k : Nat) (s : List Bit) : Option (BitVec k × List Bit) :=
  if s.length < k then none else some (valMsb k (s.take k), s.drop k)

/-- `n` four-bit fields in order. -/
def takeNibbles : Nat → List Bit → Option (List Nibble × List Bit)
  | 0, s => some ([], s)
  | n + 1, s =>
    match takeField 4 s with
    | none => none
    | some (x, s') =>
      match takeNibbles n s' with
      | none => none
      | some (xs, s'') => some (x :: xs, s'')

/-- The token at the front of a nibble-pack stream and the rest (R85): 8 bits equal to `SENTINEL` begin a packed
group, any other 8 bits are a literal. -/
def nextNpToken (cfg : Config) (s : List Bit) : Except DecodeError (Instr × List Bit) :=
  match takeField 8 s with
  | none => .error .truncatedToken
  | some (x, s₁) =>
    if x = cfg.sentinel then
      match takeField 4 s₁ with
      | none => .error .truncatedToken
      | some (hi, s₂) =>
        match takeField 4 s₂ with
        | none => .error .truncatedToken
        | some (n, s₃) =>
          match takeNibbles n.toNat s₃ with
          | none => .error .truncatedToken
          | some (lo, s₄) => .ok (.npGrp hi n lo, s₄)
    else .ok (.npLit x, s₁)

/-- The token at the front of a run-length stream and the rest (R89): three bytes from a `SENTINEL`, else one. -/
def nextRlToken (cfg : Config) : List Byte → Except DecodeError (Instr × List Byte)
  | [] => .error .truncatedToken
  | b :: rest =>
    if b = cfg.sentinel then
      match rest with
      | val :: dig :: rest' => .ok (.rlMrk val dig, rest')
      | _ => .error .truncatedToken
    else .ok (.rlLit b, rest)

/-- A token request holds exactly one token. -/
def wholeToken {α : Type} : Except DecodeError (Instr × List α) → Except DecodeError Instr
  | .ok (t, []) => .ok t
  | .ok (_, _ :: _) => .error .trailingSymbols
  | .error e => .error e

/-- The decoder: the instruction of anything the host can send, or the reason by name. -/
def decode (cfg : Config) : Request → Except DecodeError Instr
  | .event p w => .ok (decodeEvent p w)
  | .bitEvent w => .ok (decodeBitEvent w)
  | .command w o => decodeCommand w o
  | .npToken s => wholeToken (nextNpToken cfg s)
  | .rlToken s => wholeToken (nextRlToken cfg s)

/-! ### Encoding -/

/-- The 10-bit port word `{kind, data}` (R93). -/
def eventWord (k : EventKind) (data : Byte) : BitVec 10 := k.code ++ data

/-- The 3-bit port word `{kind, data}` of `NPD` (R93). -/
def bitEventWord (k : EventKind) (v : Bit) : BitVec 3 := k.code ++ BitVec.ofBool v

/-- The 3-bit command word `{op, i}` (R97). -/
def commandWord (c : Command) (i : Codec) : BitVec 3 := c.code ++ BitVec.ofBool i.bit

/-- The bits of a literal token (R81). -/
def npLitBits (b : Byte) : List Bit := bitsMsb b

/-- The bits of a packed group (R82): sentinel, high nibble, count, low nibbles. -/
def npGrpBits (cfg : Config) (hi n : Nibble) (lo : List Nibble) : List Bit :=
  bitsMsb cfg.sentinel ++ bitsMsb hi ++ bitsMsb n ++ lo.flatMap bitsMsb

/-- The bytes of a literal token (R87). -/
def rlLitBytes (b : Byte) : List Byte := [b]

/-- The bytes of a marker (R87): sentinel, value, digit. -/
def rlMrkBytes (cfg : Config) (val dig : Byte) : List Byte := [cfg.sentinel, val, dig]

/-- What is handed over with `DECODE`. -/
def Stream.operand : Stream → Operand
  | .np s => .bits s
  | .rl s => .bytes s

/-- The encoder: what the host sends for an instruction. Ignored bits (the `x` of the table) are sent as 0. -/
def encode (cfg : Config) : Instr → Request
  | .svNop i => .event (.sv i) (eventWord .nop 0)
  | .svByte i b => .event (.sv i) (eventWord .symbol b)
  | .svEnd i => .event (.sv i) (eventWord .stop 0)
  | .svClear i => .event (.sv i) (eventWord .clear 0)
  | .npeNop => .event .npe (eventWord .nop 0)
  | .npeByte b => .event .npe (eventWord .symbol b)
  | .npeEnd => .event .npe (eventWord .stop 0)
  | .npeClear => .event .npe (eventWord .clear 0)
  | .npdNop => .bitEvent (bitEventWord .nop false)
  | .npdBit v => .bitEvent (bitEventWord .symbol v)
  | .npdEnd => .bitEvent (bitEventWord .stop false)
  | .npdClear => .bitEvent (bitEventWord .clear false)
  | .rleNop => .event .rle (eventWord .nop 0)
  | .rleByte b => .event .rle (eventWord .symbol b)
  | .rleEnd => .event .rle (eventWord .stop 0)
  | .rleClear => .event .rle (eventWord .clear 0)
  | .rldNop => .event .rld (eventWord .nop 0)
  | .rldByte b => .event .rld (eventWord .symbol b)
  | .rldEnd => .event .rld (eventWord .stop 0)
  | .rldClear => .event .rld (eventWord .clear 0)
  | .npLit b => .npToken (npLitBits b)
  | .npGrp hi n lo => .npToken (npGrpBits cfg hi n lo)
  | .rlLit b => .rlToken (rlLitBytes b)
  | .rlMrk val dig => .rlToken (rlMrkBytes cfg val dig)
  | .cmdNew i p => .command (commandWord .new i) (.bytes p)
  | .cmdEncode i => .command (commandWord .encode i) .none
  | .cmdDecode s => .command (commandWord .decode s.codec) s.operand
  | .cmdDecodeOwn i => .command (commandWord .decodeOwn i) .none

/-! ### Words as the opcode table numbers them -/

/-- What the host sends for a word of spec/opcode_table.json. The table's rows share words (the sixteen `EV10` rows
are four words on four ports; `EV3`, `CMD3` and the literals share theirs) and a word does not name its port, so
the model fixes one reading of each width (notes/assumptions/4.md, DESIGN CHOICE): up to 8 bits, a value below 8 is
an event of `NPD` and any other the bits of a nibble-pack token; up to 16 bits, a value below `0x400` is an event
of the `NP` instance's `SV` and any other the first 16 bits of a nibble-pack token; up to 24 bits, the three bytes
of a run-length token, the first one most significant (R87); wider, the bits of a nibble-pack token. Operand
symbols beyond the word are zeros; which 8-bit word begins a group, and so has such symbols, is told by the sentinel
of `cfg`. -/
def tableRequest (cfg : Config) (nbits w : Nat) : Request :=
  if nbits ≤ 8 then
    if w < 8 then .bitEvent (BitVec.ofNat 3 w)
    else .npToken (bitsMsb (BitVec.ofNat 8 w) ++
      (if w = cfg.sentinel.toNat then List.replicate 8 false else []))
  else if nbits ≤ 16 then
    if w < 0x400 then .event (.sv .np) (BitVec.ofNat 10 w)
    else .npToken (bitsMsb (BitVec.ofNat 16 w) ++ List.replicate (4 * (w % 16)) false)
  else if nbits ≤ 24 then
    .rlToken [BitVec.ofNat 8 (w / 65536), BitVec.ofNat 8 (w / 256), BitVec.ofNat 8 w]
  else .npToken (bitsMsb (BitVec.ofNat nbits w))

/-- The instruction the decoder reads from a word of the opcode table, for the parameters of State.reset: a name
without a machine has no other sentinel to read it with (notes/assumptions/4.md, DESIGN CHOICE). -/
def decodeTableWord (nbits w : Nat) : Option Instr :=
  match decode Config.default (tableRequest Config.default nbits w) with
  | .ok i => some i
  | .error _ => none

end Sys2Proof
end

