-- ==== Sys2Proof/Machine/State.lean ====
section
/-! DEFINITION. The architectural state (10_state.md R20 to R50), its reset value (R47), and the reasons a step can
stop. -/

namespace Sys2Proof.Machine

/-! ### The common registers of a unit (R20) -/

/-- `U.PHASE` (R21). -/
inductive Phase where
  | run
  | done
  | faulted
deriving DecidableEq, Repr

/-- `U.FAULT` (R22): the fault raised in the current pass. These are faults of a unit, entered as a state (R226);
none of them stops the machine. -/
inductive FaultCode where
  | none
  | invalidInput
  | malformedStream
  | unsupportedRunLength
deriving DecidableEq, Repr

/-- The four common registers (R20 to R24). `U.STATUS` (R26) is a view of them, `statusWord` in Flags.lean. -/
structure Ctl where
  phase : Phase
  fault : FaultCode
  faultPos : Nat
  inPos : Nat
deriving DecidableEq, Repr

/-- The common registers' reset values (R47). -/
def Ctl.reset : Ctl := { phase := .run, fault := .none, faultPos := 0, inPos := 0 }

/-- A unit: its common registers and its datapath registers `δ`. `SV` has no datapath (R27): its `δ` is `Unit`. -/
structure StreamUnit (δ : Type) where
  ctl : Ctl
  dp : δ
deriving DecidableEq, Repr

/-! ### Datapath registers

A register that R47 marks "unspecified" outside its guard does not exist outside it (R50: "so that a read outside
the guard is impossible"; notes/assumptions/2.md). -/

/-- `NPE` (R28 to R31). `blk` is the open block's bytes in arrival order, `[]` when no block is open: R50 folds
`BLK_HI` and `BLK_LO` into one list of bytes and `BLK_LEN` is its length; the registers are the views `blkLen`,
`blkHi`, `blkLo` of Operands.lean. -/
structure NpeDp where
  blk : List Byte
  acc : List Bit
deriving DecidableEq, Repr

/-- `NPE`'s reset values (R47). -/
def NpeDp.reset : NpeDp := { blk := [], acc := [] }

/-- `NPD.MODE` (R32) with `NPD.GRP_HI` (R35) in the two modes in which it is defined. -/
inductive NpdMode where
  | lit
  | hi
  | cnt (grpHi : Nibble)
  | lo (grpHi : Nibble)
deriving DecidableEq, Repr

/-- `NPD` (R32 to R37). -/
structure NpdDp where
  mode : NpdMode
  shreg : BitVec 8
  nbits : BitVec 3
  grpRem : BitVec 4
  out : List Byte
deriving DecidableEq, Repr

/-- `NPD`'s reset values (R47). -/
def NpdDp.reset : NpdDp := { mode := .lit, shreg := 0, nbits := 0, grpRem := 0, out := [] }

/-- The open run of `RLE`: `RLE.RUN_LEN` (R38) with `RLE.RUN_VAL` (R39), which is defined only while
`RUN_LEN > 0`; `none` is `RUN_LEN = 0`. -/
inductive Run where
  | none
  | opened (val : Byte) (len : BitVec 4)
deriving DecidableEq, Repr

/-- `RLE` (R38 to R40). -/
structure RleDp where
  run : Run
  out : List Byte
deriving DecidableEq, Repr

/-- `RLE`'s reset values (R47). -/
def RleDp.reset : RleDp := { run := .none, out := [] }

/-- `RLD.MODE` (R41) with `RLD.MRK_VAL` (R42) in the one mode in which it is defined. -/
inductive RldMode where
  | lit
  | val
  | dig (mrkVal : Byte)
deriving DecidableEq, Repr

/-- `RLD` (R41 to R43). -/
structure RldDp where
  mode : RldMode
  out : List Byte
deriving DecidableEq, Repr

/-- `RLD`'s reset values (R47). -/
def RldDp.reset : RldDp := { mode := .lit, out := [] }

/-! ### Codec instances (R44, R45) -/

/-- A codec instance (R44): its three units, its flags and its payload. `I.ENCODED` is the encoder's accumulator
and `I.DECODED` the decoder's (R200), stored once there. -/
structure Instance (ε δ : Type) where
  sv : StreamUnit Unit
  enc : StreamUnit ε
  dec : StreamUnit δ
  constructed : Bool
  payload : List Byte
  encValid : Bool
  decValid : Bool
deriving DecidableEq, Repr

/-- An instance after reset (R47), given its datapaths' reset values. -/
def Instance.reset {ε δ : Type} (e : ε) (d : δ) : Instance ε δ :=
  { sv := { ctl := Ctl.reset, dp := () }
    enc := { ctl := Ctl.reset, dp := e }
    dec := { ctl := Ctl.reset, dp := d }
    constructed := false
    payload := []
    encValid := false
    decValid := false }

/-! ### The machine -/

/-- One input of the host: the reset input (70_reset_and_hazards.md R250) or something sent to a port (R211). -/
inductive HostInput where
  | reset
  | send (r : Request)
deriving DecidableEq, Repr

/-- The state of DC-CORE. `cfg` holds the parameters, read only (R25). `inbox` is the model's own field: what the
host has sent and the core has not yet taken, in order (notes/assumptions/3.md). -/
structure State where
  cfg : Config
  np : Instance NpeDp NpdDp
  rl : Instance RleDp RldDp
  inbox : List HostInput
deriving DecidableEq, Repr

/-- Every register at its reset value (R47), for a machine with the parameters `cfg` (R250: "`SENTINEL` is not
affected"). -/
def State.resetWith (cfg : Config) : State :=
  { cfg := cfg
    np := Instance.reset NpeDp.reset NpdDp.reset
    rl := Instance.reset RleDp.reset RldDp.reset
    inbox := [] }

/-- The machine right after reset, with the default parameters and nothing sent. -/
def State.reset : State := State.resetWith Config.default

/-! ### Why a step stops -/

/-- The machine stops with a fault. -/
inductive Fault where
  /-- Raised by `step` when the host's next input is no port word, command or token (notes/assumptions/10.md).
  Safe: nothing can be proved of what the core would do with it. -/
  | notAnInstruction (e : DecodeError)
deriving DecidableEq, Repr

/-- The machine gives the instruction no next state. -/
inductive Refusal where
  /-- Raised by `exec`'s arm of an instruction that has no meaning yet. Safe. -/
  | notModelled (mnemonic : String)
  /-- Raised by `ENCODE I` when `I.CONSTRUCTED = 0`: the operation is refused (R205). Safe: the spec's own refusal,
  no state changes. -/
  | notConstructed (i : Codec)
  /-- Raised by `DECODE_OWN I` when `I.ENC_VALID = 0`: the operation is refused (R205). Safe: the spec's own
  refusal, no state changes. -/
  | noEncodedStream (i : Codec)
deriving DecidableEq, Repr

/-- The outcome of an instruction. -/
abbrev Outcome := Host.Outcome State Fault Refusal

end Sys2Proof.Machine
end

