-- ==== Sys2Proof/Machine/Flags.lean ====
section
/-! DEFINITION. The flags `PHASE` and `FAULT`, the cursor, and the status word (10_state.md R21 to R26). -/

namespace Sys2Proof.Machine

/-- The code of a phase (R21); 3 is never produced. -/
def phaseCode : Phase → BitVec 2
  | .run => 0
  | .done => 1
  | .faulted => 2

/-- The code of a fault (R22, R220). -/
def faultCode : FaultCode → BitVec 2
  | .none => 0
  | .invalidInput => 1
  | .malformedStream => 2
  | .unsupportedRunLength => 3

/-- `U.STATUS` (R26): bits 1:0 `PHASE`, bits 3:2 `FAULT`, bits 7:4 read as 0. -/
def statusWord (c : Ctl) : BitVec 8 := (0 : BitVec 4) ++ faultCode c.fault ++ phaseCode c.phase

/-- The cursor after a symbol event that was processed without fault (R24). -/
def advance (c : Ctl) : Ctl := { c with inPos := c.inPos + 1 }

/-- The phase after an `END` that was processed without fault (R21). -/
def finish (c : Ctl) : Ctl := { c with phase := .done }

end Sys2Proof.Machine
end

