-- ==== Sys2Proof/Machine/Operands.lean ====
section
/-! DEFINITION. Operand assembly (30_encoding.md R84, R88), field widths (42_nibble_pack_decoder.md R140), and the
registers that State folds into one datum, each under its own name and width (10_state.md R28 to R44). -/

namespace Sys2Proof.Machine

/-- `hi4(b) = b[7:4]` (R84). -/
def hi4 (b : Byte) : Nibble := b.extractLsb' 4 4

/-- `lo4(b) = b[3:0]` (R84). -/
def lo4 (b : Byte) : Nibble := b.extractLsb' 0 4

/-- `hi * 16 + lo` (R84): `hi` in bits 7:4, `lo` in bits 3:0. -/
def joinNibbles (hi lo : Nibble) : Byte := hi ++ lo

/-- The digit byte of a run length (R88). -/
def digitOf (n : Nibble) : Byte := digitBase + n.setWidth 8

/-- A byte in the digit range (R88). -/
def isDigit (b : Byte) : Bool := digitBase ≤ b && b ≤ digitBase + 9

/-- `repeat = dig - DIGIT_BASE` (R88). -/
def digitValue (b : Byte) : Nat := (b - digitBase).toNat

/-- `W(MODE)` (R140). -/
def fieldWidth : NpdMode → Nat
  | .lit => 8
  | .hi => 4
  | .cnt _ => 4
  | .lo _ => 4

/-! ### Registers as views -/

/-- `NPE.BLK_LEN` (R28). -/
def blkLen (d : NpeDp) : BitVec 4 := BitVec.ofNat 4 d.blk.length

/-- `NPE.BLK_HI` (R29), while a block is open. -/
def blkHi (d : NpeDp) : Option Nibble := d.blk.head?.map hi4

/-- `NPE.BLK_LO[i]` for `i < BLK_LEN` (R30). -/
def blkLo (d : NpeDp) : List Nibble := d.blk.map lo4

/-- `NPD.MODE`'s code (R32). -/
def npdModeCode : NpdMode → BitVec 2
  | .lit => 0
  | .hi => 1
  | .cnt _ => 2
  | .lo _ => 3

/-- `NPD.GRP_HI` (R35), in modes `CNT` and `LO`. -/
def grpHi : NpdMode → Option Nibble
  | .lit => none
  | .hi => none
  | .cnt h => some h
  | .lo h => some h

/-- `RLE.RUN_LEN` (R38). -/
def runLen : Run → BitVec 4
  | .none => 0
  | .opened _ n => n

/-- `RLE.RUN_VAL` (R39), while a run is open. -/
def runVal : Run → Option Byte
  | .none => none
  | .opened v _ => some v

/-- `RLD.MODE`'s code (R41); 3 is never produced. -/
def rldModeCode : RldMode → BitVec 2
  | .lit => 0
  | .val => 1
  | .dig _ => 2

/-- `RLD.MRK_VAL` (R42), in mode `DIG`. -/
def mrkVal : RldMode → Option Byte
  | .lit => none
  | .val => none
  | .dig v => some v

/-- `I.ENCODED` of the `NP` instance (R44, R200): `NPE.ACC`. -/
def npEncoded (I : Instance NpeDp NpdDp) : List Bit := I.enc.dp.acc

/-- `I.DECODED` of the `NP` instance (R44, R200): `NPD.OUT`. -/
def npDecoded (I : Instance NpeDp NpdDp) : List Byte := I.dec.dp.out

/-- `I.ENCODED` of the `RL` instance (R44, R200): `RLE.OUT`. -/
def rlEncoded (I : Instance RleDp RldDp) : List Byte := I.enc.dp.out

/-- `I.DECODED` of the `RL` instance (R44, R200): `RLD.OUT`. -/
def rlDecoded (I : Instance RleDp RldDp) : List Byte := I.dec.dp.out

end Sys2Proof.Machine
end

