-- ==== Sys2Proof/Machine/Ops.lean ====
section
/-! DEFINITION. The shared operations: fault entry and the way out of it (60_exceptions.md R226, R227), the four
kinds of event (30_encoding.md R94), appending to an accumulator (20_memory.md R64), a pass (00_scope.md R14), and
the places of State the units stand in. -/

namespace Sys2Proof.Machine

/-! ### Fault entry and recovery -/

/-- `raise F` (R226): "exactly this, and the step does nothing else". `FAULT_POS` takes `IN_POS`, which stays. -/
def raiseFault (f : FaultCode) (c : Ctl) : Ctl :=
  { c with phase := .faulted, fault := f, faultPos := c.inPos }

/-- The way out of `FAULTED` (R227), and the start of every pass: `CLEAR` puts the common registers at their reset
values whatever they were. -/
def clearCtl (_ : Ctl) : Ctl := Ctl.reset

/-! ### Events (R94) -/

/-- `NOP`: nothing changes in any phase. -/
def nopEvent {δ : Type} (u : StreamUnit δ) : StreamUnit δ := u

/-- `CLEAR`, processed in every phase: the unit's reset state, `init` being its datapath's. -/
def clearEvent {δ : Type} (init : δ) (u : StreamUnit δ) : StreamUnit δ :=
  { ctl := clearCtl u.ctl, dp := init }

/-- A symbol event, ignored unless the phase is `RUN`. `act` is what the symbol does to the datapath, or the fault
it raises; a fault drops every other write of the step (R226) and the cursor does not advance (R24). -/
def symbolEvent {δ : Type} (act : δ → Except FaultCode δ) (u : StreamUnit δ) : StreamUnit δ :=
  match u.ctl.phase with
  | .run =>
    match act u.dp with
    | .ok d => { ctl := advance u.ctl, dp := d }
    | .error f => { u with ctl := raiseFault f u.ctl }
  | .done => u
  | .faulted => u

/-- `END`, ignored unless the phase is `RUN`. -/
def endEvent {δ : Type} (act : δ → Except FaultCode δ) (u : StreamUnit δ) : StreamUnit δ :=
  match u.ctl.phase with
  | .run =>
    match act u.dp with
    | .ok d => { ctl := finish u.ctl, dp := d }
    | .error f => { u with ctl := raiseFault f u.ctl }
  | .done => u
  | .faulted => u

/-- `Emit(ACC, s)` (R64): appends at the end. -/
def emit {α : Type} (acc s : List α) : List α := acc ++ s

/-! ### Passes (R14, R97) -/

/-- Symbols presented in order. -/
def feed {α υ : Type} (symbol : α → υ → υ) (xs : List α) (u : υ) : υ :=
  xs.foldl (fun u x => symbol x u) u

/-- A pass: `CLEAR`, one symbol event per symbol in order, `END`. -/
def pass {α υ : Type} (clear : υ → υ) (symbol : α → υ → υ) (stop : υ → υ) (xs : List α) (u : υ) : υ :=
  stop (feed symbol xs (clear u))

/-! ### Where the units stand -/

/-- Acts on the validator of an instance. -/
def onSv (i : Codec) (f : StreamUnit Unit → StreamUnit Unit) (s : State) : State :=
  match i with
  | .np => { s with np := { s.np with sv := f s.np.sv } }
  | .rl => { s with rl := { s.rl with sv := f s.rl.sv } }

/-- Acts on `NPE`. -/
def onNpe (f : StreamUnit NpeDp → StreamUnit NpeDp) (s : State) : State :=
  { s with np := { s.np with enc := f s.np.enc } }

/-- Acts on `NPD`. -/
def onNpd (f : StreamUnit NpdDp → StreamUnit NpdDp) (s : State) : State :=
  { s with np := { s.np with dec := f s.np.dec } }

/-- Acts on `RLE`. -/
def onRle (f : StreamUnit RleDp → StreamUnit RleDp) (s : State) : State :=
  { s with rl := { s.rl with enc := f s.rl.enc } }

/-- Acts on `RLD`. -/
def onRld (f : StreamUnit RldDp → StreamUnit RldDp) (s : State) : State :=
  { s with rl := { s.rl with dec := f s.rl.dec } }

/-! ### The buffers of an instance

`ENC_VALID` and `DEC_VALID` are 1 when the buffer "holds the complete result" of an operation (10_state.md R44). A
unit-level `CLEAR` empties the buffer, so the flag goes to 0 with it (notes/assumptions/7.md). -/

/-- `I.ENC_VALID <- 0`: the encoder's accumulator was emptied. -/
def dropEncoded (i : Codec) (s : State) : State :=
  match i with
  | .np => { s with np := { s.np with encValid := false } }
  | .rl => { s with rl := { s.rl with encValid := false } }

/-- `I.DEC_VALID <- 0`: the decoder's accumulator was emptied. -/
def dropDecoded (i : Codec) (s : State) : State :=
  match i with
  | .np => { s with np := { s.np with decValid := false } }
  | .rl => { s with rl := { s.rl with decValid := false } }

/-! ### Host inputs -/

/-- The reset input (R250): every register of every unit and instance at its reset value; the parameters stay, and
what the host has sent after the reset stays with the host (notes/assumptions/13.md). -/
def assertReset (s : State) : State := { State.resetWith s.cfg with inbox := s.inbox }

/-- The host takes back the input at the head of `inbox`: how it goes on after a refusal (R205), which changed no
state (notes/assumptions/6.md). -/
def withdraw (s : State) : State := { s with inbox := s.inbox.tail }

end Sys2Proof.Machine
end

