-- ==== Sys2Proof/Machine/NibbleDecoder.lean ====
section
/-! DEFINITION. The nibble-pack decoder `NPD` (spec 42_nibble_pack_decoder.md): the bit parser and the nibble
expander. -/

namespace Sys2Proof.Machine

/-- `FieldDone(LIT, f)` (R143). -/
def litFieldDone (cfg : Config) (f : Byte) (d : NpdDp) : Except FaultCode NpdDp :=
  if f = cfg.sentinel then .ok { d with mode := .hi } else .ok { d with out := emit d.out [f] }

/-- `FieldDone(HI, f)` (R144). -/
def hiFieldDone (f : Byte) (d : NpdDp) : Except FaultCode NpdDp := .ok { d with mode := .cnt (lo4 f) }

/-- `FieldDone(CNT, f)` (R145), in a group whose high nibble is `h`. -/
def cntFieldDone (cfg : Config) (h : Nibble) (f : Byte) (d : NpdDp) : Except FaultCode NpdDp :=
  if lo4 f ≤ 3 ∧ cfg.npStrictCount = true then .error .malformedStream
  else if lo4 f = 0 then .ok { d with mode := .lit }
  else .ok { d with grpRem := lo4 f, mode := .lo h }

/-- `FieldDone(LO, f)` (R146), in a group whose high nibble is `h`: the nibble expander produces a byte. In mode `LO`
with `GRP_REM = 0`, which R46 item 4 excludes, the 4-bit decrement wraps to 15 and the group goes on
(notes/assumptions/15.md, DESIGN CHOICE). -/
def loFieldDone (h : Nibble) (f : Byte) (d : NpdDp) : Except FaultCode NpdDp :=
  if d.grpRem = 1 then .ok { d with out := emit d.out [joinNibbles h (lo4 f)], grpRem := 0, mode := .lit }
  else .ok { d with out := emit d.out [joinNibbles h (lo4 f)], grpRem := d.grpRem - 1 }

/-- `FieldDone(MODE, f)` (R142). -/
def fieldDone (cfg : Config) (f : Byte) (d : NpdDp) : Except FaultCode NpdDp :=
  match d.mode with
  | .lit => litFieldDone cfg f d
  | .hi => hiFieldDone f d
  | .cnt h => cntFieldDone cfg h f d
  | .lo h => loFieldDone h f d

/-- The field value with a new bit at the bottom (R142): `(SHREG * 2 + v) mod 256`. -/
def shiftIn (r : BitVec 8) (v : Bit) : BitVec 8 := BitVec.ofNat 8 (r.toNat * 2 + v.toNat)

/-- What a bit does (R142). -/
def npdBitAct (cfg : Config) (v : Bit) (d : NpdDp) : Except FaultCode NpdDp :=
  if d.nbits.toNat + 1 < fieldWidth d.mode then
    .ok { d with shreg := shiftIn d.shreg v, nbits := BitVec.ofNat 3 (d.nbits.toNat + 1) }
  else fieldDone cfg (shiftIn d.shreg v) { d with shreg := 0, nbits := 0 }

/-- What `END` does (R147): the stream may end only at a token boundary. -/
def npdEndAct (d : NpdDp) : Except FaultCode NpdDp :=
  if d.mode = .lit ∧ d.nbits = 0 then .ok d else .error .malformedStream

/-- `NPD.BIT(v)` (R142). -/
def npdBit (cfg : Config) (v : Bit) : StreamUnit NpdDp → StreamUnit NpdDp := symbolEvent (npdBitAct cfg v)

/-- `NPD.END` (R147). -/
def npdEnd : StreamUnit NpdDp → StreamUnit NpdDp := endEvent npdEndAct

/-- `NPD.CLEAR` (R141): a half-read field or group is discarded. -/
def npdClear : StreamUnit NpdDp → StreamUnit NpdDp := clearEvent NpdDp.reset

/-- The pass of R149. -/
def npdPass (cfg : Config) : List Bit → StreamUnit NpdDp → StreamUnit NpdDp :=
  pass npdClear (npdBit cfg) npdEnd

/-- `NPD.NOP` (R148). -/
def execNpdNop (s : State) : Outcome := .next (onNpd nopEvent s)

/-- `NPD.BIT` (R142). -/
def execNpdBit (v : Bit) (s : State) : Outcome := .next (onNpd (npdBit s.cfg v) s)

/-- `NPD.END` (R147). -/
def execNpdEnd (s : State) : Outcome := .next (onNpd npdEnd s)

/-- `NPD.CLEAR` (R141); the emptied buffer is no result any more (10_state.md R44). -/
def execNpdClear (s : State) : Outcome := .next (dropDecoded .np (onNpd npdClear s))

end Sys2Proof.Machine
end

