-- ==== Sys2Proof/Machine/NibbleEncoder.lean ====
section
/-! DEFINITION. The nibble-pack encoder `NPE` (spec 41_nibble_pack_encoder.md). -/

namespace Sys2Proof.Machine

/-- `CloseBlock` (R120), defined for an open block: up to three bytes as literals, four or more as one group. Every
byte of the block is `BLK_HI * 16 + BLK_LO[k]` (10_state.md R30). -/
def closeBlock (cfg : Config) : List Byte → List Bit
  | [] => []
  | b₀ :: bs =>
    if (b₀ :: bs).length ≤ npLitMax then (b₀ :: bs).flatMap npLitBits
    else npGrpBits cfg (hi4 b₀) (BitVec.ofNat 4 (b₀ :: bs).length) ((b₀ :: bs).map lo4)

/-- What a byte does (R122): opens a block, closes the open one and opens the next, or joins the open one. -/
def npeByteAct (cfg : Config) (b : Byte) (d : NpeDp) : Except FaultCode NpeDp :=
  match d.blk with
  | [] => .ok { d with blk := [b] }
  | b₀ :: bs =>
    if hi4 b ≠ hi4 b₀ ∨ (b₀ :: bs).length = npMaxBlock then
      .ok { blk := [b], acc := emit d.acc (closeBlock cfg (b₀ :: bs)) }
    else .ok { d with blk := (b₀ :: bs) ++ [b] }

/-- What `END` does (R123): flushes the open block "with the same rule". -/
def npeEndAct (cfg : Config) (d : NpeDp) : Except FaultCode NpeDp :=
  match d.blk with
  | [] => .ok d
  | b₀ :: bs => .ok { blk := [], acc := emit d.acc (closeBlock cfg (b₀ :: bs)) }

/-- `NPE.BYTE(b)` (R122). -/
def npeByte (cfg : Config) (b : Byte) : StreamUnit NpeDp → StreamUnit NpeDp := symbolEvent (npeByteAct cfg b)

/-- `NPE.END` (R123). -/
def npeEnd (cfg : Config) : StreamUnit NpeDp → StreamUnit NpeDp := endEvent (npeEndAct cfg)

/-- `NPE.CLEAR` (R121): an open block is discarded, not flushed. -/
def npeClear : StreamUnit NpeDp → StreamUnit NpeDp := clearEvent NpeDp.reset

/-- The pass of R125. -/
def npePass (cfg : Config) : List Byte → StreamUnit NpeDp → StreamUnit NpeDp :=
  pass npeClear (npeByte cfg) (npeEnd cfg)

/-- `NPE.NOP` (R124). -/
def execNpeNop (s : State) : Outcome := .next (onNpe nopEvent s)

/-- `NPE.BYTE` (R122). -/
def execNpeByte (b : Byte) (s : State) : Outcome := .next (onNpe (npeByte s.cfg b) s)

/-- `NPE.END` (R123). -/
def execNpeEnd (s : State) : Outcome := .next (onNpe (npeEnd s.cfg) s)

/-- `NPE.CLEAR` (R121); the emptied buffer is no result any more (10_state.md R44). -/
def execNpeClear (s : State) : Outcome := .next (dropEncoded .np (onNpe npeClear s))

end Sys2Proof.Machine
end

