-- ==== Sys2Proof/Machine/RunDecoder.lean ====
section
/-! DEFINITION. The run-length decoder `RLD` (spec 44_run_length_decoder.md): the marker detector and the run
expander. -/

namespace Sys2Proof.Machine

/-- What a byte does, by mode (R181, R182, R183). -/
def rldByteAct (cfg : Config) (b : Byte) (d : RldDp) : Except FaultCode RldDp :=
  match d.mode with
  | .lit => if b = cfg.sentinel then .ok { d with mode := .val } else .ok { d with out := emit d.out [b] }
  | .val => .ok { d with mode := .dig b }
  | .dig v =>
    if isDigit b then .ok { mode := .lit, out := emit d.out (List.replicate (digitValue b) v) }
    else .error .malformedStream

/-- What `END` does (R184): the stream may end only at a token boundary. -/
def rldEndAct (d : RldDp) : Except FaultCode RldDp :=
  if d.mode = .lit then .ok d else .error .malformedStream

/-- `RLD.BYTE(b)` (R181). -/
def rldByte (cfg : Config) (b : Byte) : StreamUnit RldDp → StreamUnit RldDp := symbolEvent (rldByteAct cfg b)

/-- `RLD.END` (R184). -/
def rldEnd : StreamUnit RldDp → StreamUnit RldDp := endEvent rldEndAct

/-- `RLD.CLEAR` (R180): a half-read marker is discarded. -/
def rldClear : StreamUnit RldDp → StreamUnit RldDp := clearEvent RldDp.reset

/-- The pass of R186. -/
def rldPass (cfg : Config) : List Byte → StreamUnit RldDp → StreamUnit RldDp :=
  pass rldClear (rldByte cfg) rldEnd

/-- `RLD.NOP` (R185). -/
def execRldNop (s : State) : Outcome := .next (onRld nopEvent s)

/-- `RLD.BYTE` (R181 to R183). -/
def execRldByte (b : Byte) (s : State) : Outcome := .next (onRld (rldByte s.cfg b) s)

/-- `RLD.END` (R184). -/
def execRldEnd (s : State) : Outcome := .next (onRld rldEnd s)

/-- `RLD.CLEAR` (R180); the emptied buffer is no result any more (10_state.md R44). -/
def execRldClear (s : State) : Outcome := .next (dropDecoded .rl (onRld rldClear s))

end Sys2Proof.Machine
end

