-- ==== Sys2Proof/Machine/RunEncoder.lean ====
section
/-! DEFINITION. The run-length encoder `RLE` (spec 43_run_length_encoder.md). -/

namespace Sys2Proof.Machine

/-- `CloseRun` (R160): a marker for a run longer than 3, else the run's bytes. -/
def closeRun (cfg : Config) (v : Byte) (n : BitVec 4) : List Byte :=
  if n.toNat > rlLitMax then rlMrkBytes cfg v (digitOf n) else List.replicate n.toNat v

/-- What a byte does (R162): opens a run, continues it (the tenth byte is rejected, R167), or closes it and opens
the next. -/
def rleByteAct (cfg : Config) (b : Byte) (d : RleDp) : Except FaultCode RleDp :=
  match d.run with
  | .none => .ok { d with run := .opened b 1 }
  | .opened v n =>
    if b = v then
      if n.toNat = rlMaxRun then .error .unsupportedRunLength
      else .ok { d with run := .opened v (n + 1) }
    else .ok { run := .opened b 1, out := emit d.out (closeRun cfg v n) }

/-- What `END` does (R163): flushes the open run. -/
def rleEndAct (cfg : Config) (d : RleDp) : Except FaultCode RleDp :=
  match d.run with
  | .none => .ok d
  | .opened v n => .ok { run := .none, out := emit d.out (closeRun cfg v n) }

/-- `RLE.BYTE(b)` (R162). -/
def rleByte (cfg : Config) (b : Byte) : StreamUnit RleDp → StreamUnit RleDp := symbolEvent (rleByteAct cfg b)

/-- `RLE.END` (R163). -/
def rleEnd (cfg : Config) : StreamUnit RleDp → StreamUnit RleDp := endEvent (rleEndAct cfg)

/-- `RLE.CLEAR` (R161): an open run is discarded, not flushed. -/
def rleClear : StreamUnit RleDp → StreamUnit RleDp := clearEvent RleDp.reset

/-- The pass of R165. -/
def rlePass (cfg : Config) : List Byte → StreamUnit RleDp → StreamUnit RleDp :=
  pass rleClear (rleByte cfg) (rleEnd cfg)

/-- `RLE.NOP` (R164). -/
def execRleNop (s : State) : Outcome := .next (onRle nopEvent s)

/-- `RLE.BYTE` (R162). -/
def execRleByte (b : Byte) (s : State) : Outcome := .next (onRle (rleByte s.cfg b) s)

/-- `RLE.END` (R163). -/
def execRleEnd (s : State) : Outcome := .next (onRle (rleEnd s.cfg) s)

/-- `RLE.CLEAR` (R161); the emptied buffer is no result any more (10_state.md R44). -/
def execRleClear (s : State) : Outcome := .next (dropEncoded .rl (onRle rleClear s))

end Sys2Proof.Machine
end

