-- ==== Sys2Proof/Machine/Validator.lean ====
section
/-! DEFINITION. The sentinel validator `SV` (spec 40_sentinel_validator.md). -/

namespace Sys2Proof.Machine

/-- What a byte does (R111): the sentinel raises `InvalidInputError`; `SV` has no datapath. -/
def svByteAct (cfg : Config) (b : Byte) (d : Unit) : Except FaultCode Unit :=
  if b = cfg.sentinel then .error .invalidInput else .ok d

/-- `SV.BYTE(b)` (R111). -/
def svByte (cfg : Config) (b : Byte) : StreamUnit Unit → StreamUnit Unit := symbolEvent (svByteAct cfg b)

/-- `SV.END` (R112). -/
def svEnd : StreamUnit Unit → StreamUnit Unit := endEvent .ok

/-- `SV.CLEAR` (R110). -/
def svClear : StreamUnit Unit → StreamUnit Unit := clearEvent ()

/-- The pass of R114. -/
def svPass (cfg : Config) : List Byte → StreamUnit Unit → StreamUnit Unit := pass svClear (svByte cfg) svEnd

/-- `SV.NOP` (R113). -/
def execSvNop (i : Codec) (s : State) : Outcome := .next (onSv i nopEvent s)

/-- `SV.BYTE` (R111). -/
def execSvByte (i : Codec) (b : Byte) (s : State) : Outcome := .next (onSv i (svByte s.cfg b) s)

/-- `SV.END` (R112). -/
def execSvEnd (i : Codec) (s : State) : Outcome := .next (onSv i svEnd s)

/-- `SV.CLEAR` (R110). -/
def execSvClear (i : Codec) (s : State) : Outcome := .next (onSv i svClear s)

end Sys2Proof.Machine
end

