-- ==== Sys2Proof/Machine/Commands.lean ====
section
/-! DEFINITION. The instance operations `NEW`, `ENCODE`, `DECODE`, `DECODE_OWN` (spec 45_core_operations.md R200 to
R205). An operation is one step of the model (notes/assumptions/5.md). -/

namespace Sys2Proof.Machine

/-- `NEW I, p` (R201): earlier payload and buffers are forgotten, the payload is latched only after the whole of it
has passed the validator. `ie` and `id` are the reset values of the two datapaths. -/
def newOp {ε δ : Type} (cfg : Config) (ie : ε) (id : δ) (p : List Byte) (I : Instance ε δ) : Instance ε δ :=
  let sv := svPass cfg p I.sv
  let accepted := decide (sv.ctl.phase = .done)
  { sv := sv
    enc := clearEvent ie I.enc
    dec := clearEvent id I.dec
    constructed := accepted
    payload := if accepted then p else []
    encValid := false
    decValid := false }

/-- `ENCODE I` (R202) on a constructed instance: the encoder's pass over the payload. -/
def encodeOp {ε δ : Type} (encPass : List Byte → StreamUnit ε → StreamUnit ε) (I : Instance ε δ) : Instance ε δ :=
  let enc := encPass I.payload I.enc
  { I with enc := enc, encValid := decide (enc.ctl.phase = .done) }

/-- `DECODE I, s` (R203): the decoder's pass over the stream. -/
def decodeOp {α ε δ : Type} (decPass : List α → StreamUnit δ → StreamUnit δ) (s : List α) (I : Instance ε δ) :
    Instance ε δ :=
  let dec := decPass s I.dec
  { I with dec := dec, decValid := decide (dec.ctl.phase = .done) }

/-- `NEW` (R201). -/
def execCmdNew (i : Codec) (p : List Byte) (s : State) : Outcome :=
  match i with
  | .np => .next { s with np := newOp s.cfg NpeDp.reset NpdDp.reset p s.np }
  | .rl => .next { s with rl := newOp s.cfg RleDp.reset RldDp.reset p s.rl }

/-- `ENCODE` (R202); out of order it is refused (R205). -/
def execCmdEncode (i : Codec) (s : State) : Outcome :=
  match i with
  | .np =>
    if s.np.constructed then .next { s with np := encodeOp (npePass s.cfg) s.np }
    else .refused (.notConstructed .np)
  | .rl =>
    if s.rl.constructed then .next { s with rl := encodeOp (rlePass s.cfg) s.rl }
    else .refused (.notConstructed .rl)

/-- `DECODE` (R203): no precondition. -/
def execCmdDecode (st : Stream) (s : State) : Outcome :=
  match st with
  | .np bits => .next { s with np := decodeOp (npdPass s.cfg) bits s.np }
  | .rl bytes => .next { s with rl := decodeOp (rldPass s.cfg) bytes s.rl }

/-- `DECODE_OWN` (R204): `DECODE I, I.ENCODED`; out of order it is refused (R205). `ENC_VALID` enforces the order of
20_memory.md R76: only `ENCODE` sets it, with the encoder `DONE`, and whatever takes the encoder out of `DONE`
clears it (InstanceInv in Safety.lean). -/
def execCmdDecodeOwn (i : Codec) (s : State) : Outcome :=
  match i with
  | .np =>
    if s.np.encValid then .next { s with np := decodeOp (npdPass s.cfg) (npEncoded s.np) s.np }
    else .refused (.noEncodedStream .np)
  | .rl =>
    if s.rl.encValid then .next { s with rl := decodeOp (rldPass s.cfg) (rlEncoded s.rl) s.rl }
    else .refused (.noEncodedStream .rl)

end Sys2Proof.Machine
end

