-- ==== Sys2Proof/Machine/Tokens.lean ====
section
/-! DEFINITION. The stream tokens (spec 30_encoding.md R80 to R89). A token's meaning is its symbols presented in
order to the matching decoder in whatever state it is (notes/assumptions/8.md). -/

namespace Sys2Proof.Machine

/-- `NP.LIT` (R81): the byte's 8 bits. -/
def execNpLit (b : Byte) (s : State) : Outcome :=
  .next (onNpd (feed (npdBit s.cfg) (npLitBits b)) s)

/-- `NP.GRP` (R82): sentinel, high nibble, count, low nibbles. -/
def execNpGrp (hi n : Nibble) (lo : List Nibble) (s : State) : Outcome :=
  .next (onNpd (feed (npdBit s.cfg) (npGrpBits s.cfg hi n lo)) s)

/-- `RL.LIT` (R87): one byte. -/
def execRlLit (b : Byte) (s : State) : Outcome :=
  .next (onRld (feed (rldByte s.cfg) (rlLitBytes b)) s)

/-- `RL.MRK` (R87): sentinel, value, digit. -/
def execRlMrk (val dig : Byte) (s : State) : Outcome :=
  .next (onRld (feed (rldByte s.cfg) (rlMrkBytes s.cfg val dig)) s)

end Sys2Proof.Machine
end

