-- ==== Sys2Proof/Machine/Dispatch.lean ====
section
/-! DEFINITION. One arm per instruction. -/

namespace Sys2Proof.Machine

def exec (i : Instr) (s : State) : Host.Outcome State Fault Refusal :=
  match i with
  | .svNop c => Sys2Proof.Machine.execSvNop c s
  | .svByte c b => Sys2Proof.Machine.execSvByte c b s
  | .svEnd c => Sys2Proof.Machine.execSvEnd c s
  | .svClear c => Sys2Proof.Machine.execSvClear c s
  | .npeNop => Sys2Proof.Machine.execNpeNop s
  | .npeByte b => Sys2Proof.Machine.execNpeByte b s
  | .npeEnd => Sys2Proof.Machine.execNpeEnd s
  | .npeClear => Sys2Proof.Machine.execNpeClear s
  | .npdNop => Sys2Proof.Machine.execNpdNop s
  | .npdBit v => Sys2Proof.Machine.execNpdBit v s
  | .npdEnd => Sys2Proof.Machine.execNpdEnd s
  | .npdClear => Sys2Proof.Machine.execNpdClear s
  | .rleNop => Sys2Proof.Machine.execRleNop s
  | .rleByte b => Sys2Proof.Machine.execRleByte b s
  | .rleEnd => Sys2Proof.Machine.execRleEnd s
  | .rleClear => Sys2Proof.Machine.execRleClear s
  | .rldNop => Sys2Proof.Machine.execRldNop s
  | .rldByte b => Sys2Proof.Machine.execRldByte b s
  | .rldEnd => Sys2Proof.Machine.execRldEnd s
  | .rldClear => Sys2Proof.Machine.execRldClear s
  | .npLit b => Sys2Proof.Machine.execNpLit b s
  | .npGrp hi n lo => Sys2Proof.Machine.execNpGrp hi n lo s
  | .rlLit b => Sys2Proof.Machine.execRlLit b s
  | .rlMrk val dig => Sys2Proof.Machine.execRlMrk val dig s
  | .cmdNew c p => Sys2Proof.Machine.execCmdNew c p s
  | .cmdEncode c => Sys2Proof.Machine.execCmdEncode c s
  | .cmdDecode st => Sys2Proof.Machine.execCmdDecode st s
  | .cmdDecodeOwn c => Sys2Proof.Machine.execCmdDecodeOwn c s

end Sys2Proof.Machine
end

