-- ==== Sys2Proof/Machine/Step.lean ====
section
/-! DEFINITION. One step: the core takes the host's next input (45_core_operations.md R211). -/

namespace Sys2Proof.Machine

/-- One step. With nothing sent, nothing executes (70_reset_and_hazards.md R251). The reset input resets (R250).
Anything else is decoded and run; the instruction does not see the input that carried it. -/
def step (s : State) : Host.Outcome State Fault Refusal :=
  match s.inbox with
  | [] => .next s
  | .reset :: rest => .next (assertReset { s with inbox := rest })
  | .send r :: rest =>
    match decode s.cfg r with
    | .ok i => exec i { s with inbox := rest }
    | .error e => .fault (.notAnInstruction e)

/-- `s` with the instruction of an opcode-table word sent as the host's next input (notes/assumptions/3.md, 4.md); an 8-bit word is padded for the sentinel `s` decodes with. -/
def State.withFetchWord (s : State) (nbits w : Nat) : State :=
  { s with inbox := .send (tableRequest s.cfg nbits w) :: s.inbox }

end Sys2Proof.Machine
end

