-- ==== Sys2Proof/Machine/Batch.lean ====
section
/-! DEFINITION. The second description of each unit (00_scope.md R14): results of passes, the batch functions, their
closed forms (R114, R125, R126, R149, R165, R186), and the expansion of each operation into events (R97). -/

namespace Sys2Proof.Machine

/-! ### Results -/

/-- What a pass, or an operation that ran, gives back: a value, or a fault with its position (R114, R212). -/
inductive Result (α : Type) where
  | ok (v : α)
  | error (f : FaultCode) (pos : Nat)
deriving DecidableEq, Repr

/-- The result of a pass: nothing while the phase is `RUN` (20_memory.md R63, 70_reset_and_hazards.md R256), the
accumulator when `DONE`, the fault when `FAULTED`. -/
def unitResult {δ α : Type} (value : δ → α) (u : StreamUnit δ) : Option (Result α) :=
  match u.ctl.phase with
  | .run => none
  | .done => some (.ok (value u.dp))
  | .faulted => some (.error u.ctl.fault u.ctl.faultPos)

/-! ### Batch functions (R14) -/

/-- `Validate(p)` (R114). -/
def validate (cfg : Config) (p : List Byte) : Option (Result Unit) :=
  unitResult id (svPass cfg p { ctl := Ctl.reset, dp := () })

/-- `NPEncode(p)` (R125). -/
def npEncode (cfg : Config) (p : List Byte) : Option (Result (List Bit)) :=
  unitResult NpeDp.acc (npePass cfg p { ctl := Ctl.reset, dp := NpeDp.reset })

/-- `NPDecode(s)` (R149). -/
def npDecode (cfg : Config) (s : List Bit) : Option (Result (List Byte)) :=
  unitResult NpdDp.out (npdPass cfg s { ctl := Ctl.reset, dp := NpdDp.reset })

/-- `RLEncode(p)` (R165). -/
def rlEncode (cfg : Config) (p : List Byte) : Option (Result (List Byte)) :=
  unitResult RleDp.out (rlePass cfg p { ctl := Ctl.reset, dp := RleDp.reset })

/-- `RLDecode(s)` (R186). -/
def rlDecode (cfg : Config) (s : List Byte) : Option (Result (List Byte)) :=
  unitResult RldDp.out (rldPass cfg s { ctl := Ctl.reset, dp := RldDp.reset })

/-! ### Closed forms -/

/-- The position of the first element equal to `x`. -/
def firstIndex (x : Byte) : List Byte → Option Nat
  | [] => none
  | b :: bs => if b = x then some 0 else (firstIndex x bs).map (· + 1)

/-- The closed form of R114. -/
def validateForm (cfg : Config) (p : List Byte) : Result Unit :=
  match firstIndex cfg.sentinel p with
  | none => .ok ()
  | some pos => .error .invalidInput pos

/-- The first block of a non-empty payload (R126): it "extends to the largest `e ≤ s + 14` such that every byte in
`p[s..e]` has the high nibble of `p[s]`". -/
def firstBlock : List Byte → List Byte
  | [] => []
  | b :: bs => ((b :: bs).takeWhile (fun x => hi4 x = hi4 b)).take npMaxBlock

/-- The block partition (R126), with the payload's length as fuel. -/
def npBlocksFuel : Nat → List Byte → List (List Byte)
  | 0, _ => []
  | _ + 1, [] => []
  | k + 1, b :: bs => firstBlock (b :: bs) :: npBlocksFuel k ((b :: bs).drop (firstBlock (b :: bs)).length)

/-- The blocks of a payload (R126). -/
def npBlocks (p : List Byte) : List (List Byte) := npBlocksFuel p.length p

/-- The closed form of R125. -/
def npEncodeForm (cfg : Config) (p : List Byte) : List Bit := (npBlocks p).flatMap (closeBlock cfg)

/-- The recursive form of R149, with the stream's length as fuel: `none` is `MalformedStreamError`. -/
def npDecodeFuel (cfg : Config) : Nat → List Bit → Option (List Byte)
  | _, [] => some []
  | 0, _ :: _ => none
  | k + 1, v :: vs =>
    match takeField 8 (v :: vs) with
    | none => none
    | some (x, s₁) =>
      if x ≠ cfg.sentinel then (npDecodeFuel cfg k s₁).map ([x] ++ ·)
      else
        match takeField 4 s₁ with
        | none => none
        | some (h, s₂) =>
          match takeField 4 s₂ with
          | none => none
          | some (n, s₃) =>
            if n ≤ 3 ∧ cfg.npStrictCount = true then none
            else
              match takeNibbles n.toNat s₃ with
              | none => none
              | some (lo, s₄) => (npDecodeFuel cfg k s₄).map (lo.map (joinNibbles h) ++ ·)

/-- The recursive form of R149. -/
def npDecodeForm (cfg : Config) (s : List Bit) : Option (List Byte) := npDecodeFuel cfg s.length s

/-- The maximal runs of a payload (R165): adjacent runs have different values. -/
def rlRuns : List Byte → List (Byte × Nat)
  | [] => []
  | b :: bs =>
    match rlRuns bs with
    | [] => [(b, 1)]
    | (v, n) :: rs => if b = v then (v, n + 1) :: rs else (b, 1) :: (v, n) :: rs

/-- The position of the tenth byte of the first run longer than 9 (R165), the runs starting at `start`. -/
def firstLongRun (start : Nat) : List (Byte × Nat) → Option Nat
  | [] => none
  | (_, n) :: rs => if n > rlMaxRun then some (start + rlMaxRun) else firstLongRun (start + n) rs

/-- The token of a run of at most 9 (R165). -/
def runToken (cfg : Config) : Byte × Nat → List Byte
  | (v, n) => if n > rlLitMax then [cfg.sentinel, v, digitBase + BitVec.ofNat 8 n] else List.replicate n v

/-- The closed form of R165. -/
def rlEncodeForm (cfg : Config) (p : List Byte) : Result (List Byte) :=
  match firstLongRun 0 (rlRuns p) with
  | some pos => .error .unsupportedRunLength pos
  | none => .ok ((rlRuns p).flatMap (runToken cfg))

/-- The recursive form of R186: `none` is `MalformedStreamError`. -/
def rlDecodeForm (cfg : Config) : List Byte → Option (List Byte)
  | [] => some []
  | b :: rest =>
    if b ≠ cfg.sentinel then (rlDecodeForm cfg rest).map ([b] ++ ·)
    else
      match rest with
      | v :: d :: rest' =>
        if digitBase ≤ d ∧ d ≤ digitBase + 9 then
          (rlDecodeForm cfg rest').map (List.replicate (d - digitBase).toNat v ++ ·)
        else none
      | _ => none

/-! ### Expansions (R97) -/

/-- The events of a pass of `SV` (R201). -/
def svEvents (i : Codec) (p : List Byte) : List Instr := [.svClear i] ++ p.map (.svByte i) ++ [.svEnd i]

/-- The events of a pass of the instance's encoder (R202). -/
def encEvents : Codec → List Byte → List Instr
  | .np, p => [.npeClear] ++ p.map .npeByte ++ [.npeEnd]
  | .rl, p => [.rleClear] ++ p.map .rleByte ++ [.rleEnd]

/-- The events of a pass of the instance's decoder (R203). -/
def decEvents : Stream → List Instr
  | .np s => [.npdClear] ++ s.map .npdBit ++ [.npdEnd]
  | .rl s => [.rldClear] ++ s.map .rldByte ++ [.rldEnd]

/-- Instructions run in order, stopping at the first fault or refusal. -/
def execAll : List Instr → State → Outcome
  | [], s => .next s
  | i :: is, s =>
    match exec i s with
    | .next t => execAll is t
    | .fault f => .fault f
    | .refused r => .refused r

end Sys2Proof.Machine
end

