-- ==== Sys2Proof/Machine/Program.lean ====
section
/-! DEFINITION. What the host gets back from an operation (45_core_operations.md R211) and how a program ends
(R212). -/

namespace Sys2Proof.Machine

/-! ### Results at instance level

The outcome of an operation that ran is read from the state after it (notes/assumptions/14.md). There is none while
the unit's phase is `RUN`, and none of an accumulator that no operation completed (20_memory.md R63). -/

/-- A unit's result as the result of its instance's operation: a value only under the instance's flag. -/
def opResult {α : Type} (valid : Bool) : Option (Result α) → Option (Result α)
  | some (.ok v) => if valid then some (.ok v) else none
  | some (.error f pos) => some (.error f pos)
  | none => none

/-- The result of the last `NEW` (R201). The payload stays valid whatever the validator does next (10_state.md
R44). -/
def newResult {ε δ : Type} (I : Instance ε δ) : Option (Result Unit) :=
  if I.constructed then some (.ok ()) else opResult false (unitResult id I.sv)

/-- The result of the last `ENCODE NP` (R202). -/
def npEncodeResult (I : Instance NpeDp NpdDp) : Option (Result (List Bit)) :=
  opResult I.encValid (unitResult NpeDp.acc I.enc)

/-- The result of the last `ENCODE RL` (R202). -/
def rlEncodeResult (I : Instance RleDp RldDp) : Option (Result (List Byte)) :=
  opResult I.encValid (unitResult RleDp.out I.enc)

/-- The result of the last `DECODE NP` or `DECODE_OWN NP` (R203). -/
def npDecodeResult (I : Instance NpeDp NpdDp) : Option (Result (List Byte)) :=
  opResult I.decValid (unitResult NpdDp.out I.dec)

/-- The result of the last `DECODE RL` or `DECODE_OWN RL` (R203). -/
def rlDecodeResult (I : Instance RleDp RldDp) : Option (Result (List Byte)) :=
  opResult I.decValid (unitResult RldDp.out I.dec)

/-! ### Programs (R212) -/

/-- How a program ended: the state, what was refused on the way, in order, and the fault that cut it short, if one
of its inputs was no instruction. -/
structure ProgramEnd where
  final : State
  refusals : List Refusal
  fault : Option Fault
deriving DecidableEq, Repr

/-- The inputs of a program taken one by one. The host goes on after a refusal by withdrawing the input, which is
remembered. -/
def runInputs : List HostInput → State → ProgramEnd
  | [], s => { final := { s with inbox := [] }, refusals := [], fault := none }
  | x :: xs, s =>
    match step { s with inbox := x :: xs } with
    | .next t => runInputs xs t
    | .refused r =>
      let e := runInputs xs (withdraw { s with inbox := x :: xs })
      { e with refusals := r :: e.refusals }
    | .fault f => { final := { s with inbox := x :: xs }, refusals := [], fault := some f }

/-- The program in the inbox, run to its end. -/
def runProgram (s : State) : ProgramEnd := runInputs s.inbox s

end Sys2Proof.Machine
end

