-- ==== Sys2Proof/Safety.lean ====
section
/-! DEFINITION. The terms claims use: the invariants of 10_state.md R46, a good final state (45_core_operations.md
R212), and a launch within `MAX_LEN` (00_scope.md R12). -/

namespace Sys2Proof.Machine

/-! ### The invariants of R46, unit by unit -/

/-- The common registers (R22, R23, R46 item 1): a fault code exactly in phase `FAULTED`, and then `FAULT_POS` is
the cursor, which no longer moves; otherwise `FAULT_POS` reads 0. `allowed` is the one code the unit can hold. -/
abbrev CtlInv (allowed : FaultCode) (c : Ctl) : Prop :=
  (c.fault ≠ .none ↔ c.phase = .faulted) ∧
  (c.fault = .none ∨ c.fault = allowed) ∧
  (c.phase = .faulted → c.faultPos = c.inPos) ∧
  (c.phase ≠ .faulted → c.faultPos = 0)

/-- `SV` can hold only `InvalidInputError` (R22). -/
abbrev SvInv (u : StreamUnit Unit) : Prop := CtlInv .invalidInput u.ctl

/-- The open block (R46 item 2): at most 15 bytes, all with the first one's high nibble. -/
abbrev BlockInv (blk : List Byte) : Prop :=
  blk.length ≤ npMaxBlock ∧ ∀ b ∈ blk, some (hi4 b) = blk.head?.map hi4

/-- `NPE` (R22: it raises no fault; R46 items 2 and 5). -/
abbrev NpeInv (u : StreamUnit NpeDp) : Prop :=
  CtlInv .none u.ctl ∧ BlockInv u.dp.blk ∧ (u.ctl.phase = .done → u.dp.blk = [])

/-- `NPD` (R34, R36, R46 items 4 and 6); `SHREG` holds no bit above the collected ones (R142), and `GRP_REM` is 0
outside mode `LO` (R36). -/
abbrev NpdInv (u : StreamUnit NpdDp) : Prop :=
  CtlInv .malformedStream u.ctl ∧
  u.dp.nbits.toNat < fieldWidth u.dp.mode ∧
  u.dp.shreg.toNat < 2 ^ u.dp.nbits.toNat ∧
  (npdModeCode u.dp.mode = 3 ↔ u.dp.grpRem ≠ 0) ∧
  (u.ctl.phase = .done → u.dp.mode = .lit ∧ u.dp.nbits = 0)

/-- The open run (R38, R46 item 3): 1 to 9 bytes. -/
abbrev RunInv (r : Run) : Prop :=
  r = .none ∨ (1 ≤ (runLen r).toNat ∧ (runLen r).toNat ≤ rlMaxRun)

/-- `RLE` (R46 items 3 and 5). -/
abbrev RleInv (u : StreamUnit RleDp) : Prop :=
  CtlInv .unsupportedRunLength u.ctl ∧ RunInv u.dp.run ∧ (u.ctl.phase = .done → u.dp.run = .none)

/-- `RLD` (R46 item 6). -/
abbrev RldInv (u : StreamUnit RldDp) : Prop :=
  CtlInv .malformedStream u.ctl ∧ (u.ctl.phase = .done → u.dp.mode = .lit)

/-- The flags and the payload of an instance (R44, R201 to R203): the payload of a constructed instance is free of
the sentinel, an unconstructed instance holds none and has encoded none, and a valid buffer belongs to a unit in
phase `DONE` (20_memory.md R76, 70_reset_and_hazards.md R254). -/
abbrev InstanceInv {ε δ : Type} (cfg : Config) (I : Instance ε δ) : Prop :=
  (I.constructed = true → cfg.sentinel ∉ I.payload) ∧
  (I.constructed = false → I.payload = [] ∧ I.encValid = false) ∧
  (I.encValid = true → I.enc.ctl.phase = .done) ∧
  (I.decValid = true → I.dec.ctl.phase = .done)

/-- The invariants of every reachable state. -/
abbrev StateInv (s : State) : Prop :=
  SvInv s.np.sv ∧ NpeInv s.np.enc ∧ NpdInv s.np.dec ∧ InstanceInv s.cfg s.np ∧
  SvInv s.rl.sv ∧ RleInv s.rl.enc ∧ RldInv s.rl.dec ∧ InstanceInv s.cfg s.rl

/-- The buffers of the instances hold what their flags say (R44): a valid encoded buffer is the complete result of
the encoder's pass over the payload. -/
abbrev Coherent (s : State) : Prop :=
  (s.np.encValid = true → s.np.enc = npePass s.cfg s.np.payload s.np.enc) ∧
  (s.rl.encValid = true → s.rl.enc = rlePass s.cfg s.rl.payload s.rl.enc ∧ s.rl.enc.ctl.phase = .done)

/-! ### Instances -/

/-- The instance whose units an instruction acts on (10_state.md R44, 45_core_operations.md R200). -/
def instrCodec : Instr → Codec
  | .svNop i | .svByte i _ | .svEnd i | .svClear i => i
  | .npeNop | .npeByte _ | .npeEnd | .npeClear => .np
  | .npdNop | .npdBit _ | .npdEnd | .npdClear => .np
  | .rleNop | .rleByte _ | .rleEnd | .rleClear => .rl
  | .rldNop | .rldByte _ | .rldEnd | .rldClear => .rl
  | .npLit _ | .npGrp _ _ _ => .np
  | .rlLit _ | .rlMrk _ _ => .rl
  | .cmdNew i _ | .cmdEncode i | .cmdDecodeOwn i => i
  | .cmdDecode st => st.codec

/-- The instance a port belongs to. -/
def portCodec : BytePort → Codec
  | .sv i => i
  | .npe => .np
  | .rle => .rl
  | .rld => .rl

/-- The instance something sent is for. -/
def requestCodec : Request → Codec
  | .event p _ => portCodec p
  | .bitEvent _ => .np
  | .command w _ => codecOfBit (w.getLsbD 0)
  | .npToken _ => .np
  | .rlToken _ => .rl

/-! ### Runs -/

/-- No unit is `FAULTED`. -/
abbrev NoUnitFaulted (s : State) : Prop :=
  s.np.sv.ctl.phase ≠ .faulted ∧ s.np.enc.ctl.phase ≠ .faulted ∧ s.np.dec.ctl.phase ≠ .faulted ∧
  s.rl.sv.ctl.phase ≠ .faulted ∧ s.rl.enc.ctl.phase ≠ .faulted ∧ s.rl.dec.ctl.phase ≠ .faulted

/-- A pass is open on a unit: it has taken symbols and has not ended (R212). A unit in phase `RUN` that has taken
none is as reset, `CLEAR` or `NEW` left it (notes/assumptions/17.md). -/
abbrev PassOpen (c : Ctl) : Prop := c.phase = .run ∧ c.inPos ≠ 0

/-- No unit has an open pass. -/
abbrev NoPassOpen (s : State) : Prop :=
  ¬ PassOpen s.np.sv.ctl ∧ ¬ PassOpen s.np.enc.ctl ∧ ¬ PassOpen s.np.dec.ctl ∧
  ¬ PassOpen s.rl.sv.ctl ∧ ¬ PassOpen s.rl.enc.ctl ∧ ¬ PassOpen s.rl.dec.ctl

/-- The state in which a program has ended well (R212): nothing is left to take, every pass has ended, no unit is
`FAULTED`. That nothing was refused on the way is no fact about a state: `GoodEnd` says it. -/
abbrev GoodFinal (s : State) : Prop := s.inbox = [] ∧ NoUnitFaulted s ∧ NoPassOpen s

/-- A program has ended well (R212): "no unit is `FAULTED` and nothing was refused". R212 leaves open whether an
operation's error outcome counts when a later `CLEAR`, operation or reset has made its unit usable again; the model's
choice is that it does not, since only the final state's phases are asked for, while a refusal always counts
(notes/assumptions/17.md, DESIGN CHOICE). -/
abbrev GoodEnd (e : ProgramEnd) : Prop := e.fault = none ∧ e.refusals = [] ∧ GoodFinal e.final

/-- The current pass of no unit is beyond `MAX_LEN` (R12). Which symbols count toward `MAX_LEN` is the model's choice
(notes/assumptions/11.md, DESIGN CHOICE): those `IN_POS` counts, so neither a symbol that raised a fault, nor one
ignored after it, nor those of passes that a `CLEAR` has ended. -/
abbrev WithinMaxLen (s : State) : Prop :=
  ∀ m, s.cfg.maxLen = some m →
    s.np.sv.ctl.inPos ≤ m ∧ s.np.enc.ctl.inPos ≤ m ∧ s.np.dec.ctl.inPos ≤ m ∧
    s.rl.sv.ctl.inPos ≤ m ∧ s.rl.enc.ctl.inPos ≤ m ∧ s.rl.dec.ctl.inPos ≤ m

end Sys2Proof.Machine
end

