-- ==== Sys2Proof/Certificates/Slice0/Obligations.lean ====
section
/-! DEFINITION. The statements for the provers. Each docstring names the rule of spec/ it formalises; a statement about
a next state gives the whole of it, so that what is not named is unchanged. -/

open Sys2Proof Sys2Proof.Machine

/-! ### The machine's step and what the host sends -/

/-- A step runs the decoded instruction on the state from which the input that carried it has been taken; an input
that is no instruction stops the machine (the model's choice, notes/assumptions/10.md); with nothing sent nothing
happens (70_reset_and_hazards.md R251). The inbox is the model's own (notes/assumptions/3.md). -/
def Obligations.StepTakesTheNextInput : Prop :=
  ∀ (s : State) (rest : List HostInput),
    (s.inbox = [] → step s = .next s) ∧
    (∀ (r : Request) (i : Instr), s.inbox = .send r :: rest → decode s.cfg r = .ok i →
      step s = exec i { s with inbox := rest }) ∧
    (∀ (r : Request) (e : DecodeError), s.inbox = .send r :: rest → decode s.cfg r = .error e →
      step s = .fault (.notAnInstruction e))

/-- R250 and R47: the reset input puts every register of every unit and instance at the value of R47's table and
leaves the parameters; `CLEAR` (R110, R121, R141, R161, R180; word with `kind = 0b11`), in every phase, puts its unit
at the same values. The model's choices here: what the host sent after the reset stays in the inbox
(notes/assumptions/13.md), registers marked "unspecified" do not exist outside their guard (notes/assumptions/2.md),
and `CLEAR` of an encoder or decoder clears its instance's `ENC_VALID` or `DEC_VALID` (notes/assumptions/7.md).
Nothing else changes. -/
def Obligations.ResetAndClearRestoreTheListedValues : Prop :=
  ∀ s : State,
    (∀ b : Byte,
      decode s.cfg (.event (.sv .np) (0b11#2 ++ b)) = .ok (.svClear .np) ∧
      decode s.cfg (.event (.sv .rl) (0b11#2 ++ b)) = .ok (.svClear .rl) ∧
      decode s.cfg (.event .npe (0b11#2 ++ b)) = .ok .npeClear ∧
      decode s.cfg (.event .rle (0b11#2 ++ b)) = .ok .rleClear ∧
      decode s.cfg (.event .rld (0b11#2 ++ b)) = .ok .rldClear) ∧
    (∀ v : Bit, decode s.cfg (.bitEvent (0b11#2 ++ BitVec.ofBool v)) = .ok .npdClear) ∧
    (∀ rest : List HostInput, s.inbox = .reset :: rest →
      step s = .next
        { cfg := s.cfg
          np :=
            { sv := ⟨⟨.run, .none, 0, 0⟩, ()⟩
              enc := ⟨⟨.run, .none, 0, 0⟩, { blk := [], acc := [] }⟩
              dec := ⟨⟨.run, .none, 0, 0⟩, { mode := .lit, shreg := 0, nbits := 0, grpRem := 0, out := [] }⟩
              constructed := false, payload := [], encValid := false, decValid := false }
          rl :=
            { sv := ⟨⟨.run, .none, 0, 0⟩, ()⟩
              enc := ⟨⟨.run, .none, 0, 0⟩, { run := .none, out := [] }⟩
              dec := ⟨⟨.run, .none, 0, 0⟩, { mode := .lit, out := [] }⟩
              constructed := false, payload := [], encValid := false, decValid := false }
          inbox := rest }) ∧
    exec (.svClear .np) s = .next { s with np.sv := ⟨⟨.run, .none, 0, 0⟩, ()⟩ } ∧
    exec (.svClear .rl) s = .next { s with rl.sv := ⟨⟨.run, .none, 0, 0⟩, ()⟩ } ∧
    exec .npeClear s = .next { s with
      np.enc := ⟨⟨.run, .none, 0, 0⟩, { blk := [], acc := [] }⟩, np.encValid := false } ∧
    exec .npdClear s = .next { s with
      np.dec := ⟨⟨.run, .none, 0, 0⟩, { mode := .lit, shreg := 0, nbits := 0, grpRem := 0, out := [] }⟩
      np.decValid := false } ∧
    exec .rleClear s = .next { s with
      rl.enc := ⟨⟨.run, .none, 0, 0⟩, { run := .none, out := [] }⟩, rl.encValid := false } ∧
    exec .rldClear s = .next { s with
      rl.dec := ⟨⟨.run, .none, 0, 0⟩, { mode := .lit, out := [] }⟩, rl.decValid := false }

/-- The state the host starts from: what the reset input leaves of any state, with the default parameters (R5, R11,
R12) and an empty inbox (notes/assumptions/3.md). -/
def Obligations.ResetStateIsWhatResetLeaves : Prop :=
  State.reset.cfg = { sentinel := 0x24, npStrictCount := false, maxLen := none } ∧
  State.reset.inbox = [] ∧
  ∀ s : State, s.cfg = State.reset.cfg → step { s with inbox := [.reset] } = .next State.reset

/-- R93, R94, R95: every value of the port word of every unit is an event, by the `kind` field, with `data` the
symbol. -/
def Obligations.EventWordsDecodeByKind : Prop :=
  ∀ (cfg : Config) (c : Codec) (b : Byte) (v : Bool),
    (decode cfg (.event (.sv c) (0b00#2 ++ b)) = .ok (.svNop c) ∧
     decode cfg (.event (.sv c) (0b01#2 ++ b)) = .ok (.svByte c b) ∧
     decode cfg (.event (.sv c) (0b10#2 ++ b)) = .ok (.svEnd c) ∧
     decode cfg (.event (.sv c) (0b11#2 ++ b)) = .ok (.svClear c)) ∧
    (decode cfg (.event .npe (0b00#2 ++ b)) = .ok .npeNop ∧
     decode cfg (.event .npe (0b01#2 ++ b)) = .ok (.npeByte b) ∧
     decode cfg (.event .npe (0b10#2 ++ b)) = .ok .npeEnd ∧
     decode cfg (.event .npe (0b11#2 ++ b)) = .ok .npeClear) ∧
    (decode cfg (.bitEvent (0b00#2 ++ BitVec.ofBool v)) = .ok .npdNop ∧
     decode cfg (.bitEvent (0b01#2 ++ BitVec.ofBool v)) = .ok (.npdBit v) ∧
     decode cfg (.bitEvent (0b10#2 ++ BitVec.ofBool v)) = .ok .npdEnd ∧
     decode cfg (.bitEvent (0b11#2 ++ BitVec.ofBool v)) = .ok .npdClear) ∧
    (decode cfg (.event .rle (0b00#2 ++ b)) = .ok .rleNop ∧
     decode cfg (.event .rle (0b01#2 ++ b)) = .ok (.rleByte b) ∧
     decode cfg (.event .rle (0b10#2 ++ b)) = .ok .rleEnd ∧
     decode cfg (.event .rle (0b11#2 ++ b)) = .ok .rleClear) ∧
    (decode cfg (.event .rld (0b00#2 ++ b)) = .ok .rldNop ∧
     decode cfg (.event .rld (0b01#2 ++ b)) = .ok (.rldByte b) ∧
     decode cfg (.event .rld (0b10#2 ++ b)) = .ok .rldEnd ∧
     decode cfg (.event .rld (0b11#2 ++ b)) = .ok .rldClear)

/-- R97: the command word `{op, i}` with what R211 says is handed over. -/
def Obligations.CommandWordsDecodeByOp : Prop :=
  ∀ (cfg : Config) (p : List Byte) (s : List Bit),
    decode cfg (.command 0b000 (.bytes p)) = .ok (.cmdNew .np p) ∧
    decode cfg (.command 0b001 (.bytes p)) = .ok (.cmdNew .rl p) ∧
    decode cfg (.command 0b010 .none) = .ok (.cmdEncode .np) ∧
    decode cfg (.command 0b011 .none) = .ok (.cmdEncode .rl) ∧
    decode cfg (.command 0b100 (.bits s)) = .ok (.cmdDecode (.np s)) ∧
    decode cfg (.command 0b101 (.bytes p)) = .ok (.cmdDecode (.rl p)) ∧
    decode cfg (.command 0b110 .none) = .ok (.cmdDecodeOwn .np) ∧
    decode cfg (.command 0b111 .none) = .ok (.cmdDecodeOwn .rl)

/-- Words written out from the spec: the port words of program P1 (95_test_vectors.md), the tokens of NE2, NE4 and
RE4, and one word of each width read as the opcode table numbers it (notes/assumptions/4.md). -/
def Obligations.SampleWordsDecode : Prop :=
  decode Config.default (.event (.sv .np) 0x300) = .ok (.svClear .np) ∧
  decode Config.default (.event (.sv .np) 0x161) = .ok (.svByte .np 0x61) ∧
  decode Config.default (.event .npe 0x17A) = .ok (.npeByte 0x7A) ∧
  decode Config.default (.event .rle 0x200) = .ok .rleEnd ∧
  decode Config.default (.bitEvent 0b011) = .ok (.npdBit true) ∧
  decode Config.default (.npToken [false, true, true, false, false, false, false, true]) = .ok (.npLit 0x61) ∧
  decode Config.default (.npToken
    [false, false, true, false, false, true, false, false, true, false, true, false, false, true, false, false,
     false, false, false, true, false, false, true, false, false, false, true, true, false, true, false, false]) =
    .ok (.npGrp 0xA 4 [1, 2, 3, 4]) ∧
  decode Config.default (.rlToken [0x24, 0x61, 0x34]) = .ok (.rlMrk 0x61 0x34) ∧
  decodeTableWord 16 0x161 = some (.svByte .np 0x61) ∧
  decodeTableWord 8 0b111 = some .npdClear ∧
  decodeTableWord 16 0x24A2 = some (.npGrp 0xA 2 [0, 0]) ∧
  decodeTableWord 24 0x246134 = some (.rlMrk 0x61 0x34)

/-- Decoding what the encoder sends for a well-formed instruction gives the instruction back, with every operand. -/
def Obligations.DecodeOfEncodeIsTheInstruction : Prop :=
  ∀ (cfg : Config) (i : Instr), i.WellFormed cfg = true → decode cfg (encode cfg i) = .ok i

/-- R85, R89: a token request that decodes is exactly the symbols of the token it decodes to, which is well formed:
no symbol is dropped or invented. -/
def Obligations.TokenDecodingLosesNoSymbol : Prop :=
  ∀ (cfg : Config) (i : Instr),
    (∀ s : List Bit, decode cfg (.npToken s) = .ok i → i.WellFormed cfg = true ∧ encode cfg i = .npToken s) ∧
    (∀ s : List Byte, decode cfg (.rlToken s) = .ok i → i.WellFormed cfg = true ∧ encode cfg i = .rlToken s)

/-- R65: every field of the nibble-pack stream stands most significant bit first, `stream[p+k] = v[N-1-k]`, at the
positions of R81 and R82. -/
def Obligations.StreamFieldsAreMostSignificantBitFirst : Prop :=
  (∀ (b : Byte) (k : Nat), k < 8 → (npLitBits b)[k]? = some (b.getLsbD (7 - k))) ∧
  (∀ (cfg : Config) (hi n : Nibble) (lo : List Nibble),
    (∀ k < 8, (npGrpBits cfg hi n lo)[k]? = some (cfg.sentinel.getLsbD (7 - k))) ∧
    (∀ k < 4, (npGrpBits cfg hi n lo)[8 + k]? = some (hi.getLsbD (3 - k))) ∧
    (∀ k < 4, (npGrpBits cfg hi n lo)[12 + k]? = some (n.getLsbD (3 - k))) ∧
    (∀ (j : Nat) (x : Nibble), lo[j]? = some x →
      ∀ k < 4, (npGrpBits cfg hi n lo)[16 + 4 * j + k]? = some (x.getLsbD (3 - k))) ∧
    (npGrpBits cfg hi n lo).length = 16 + 4 * lo.length)

/-! ### Unit events -/

/-- R113, R124, R148, R164, R185: `NOP` (word with `kind = 0b00`) changes no register in any
phase. -/
def Obligations.NopChangesNothing : Prop :=
  ∀ s : State,
    (∀ b : Byte,
      decode s.cfg (.event (.sv .np) (0b00#2 ++ b)) = .ok (.svNop .np) ∧
      decode s.cfg (.event (.sv .rl) (0b00#2 ++ b)) = .ok (.svNop .rl) ∧
      decode s.cfg (.event .npe (0b00#2 ++ b)) = .ok .npeNop ∧
      decode s.cfg (.event .rle (0b00#2 ++ b)) = .ok .rleNop ∧
      decode s.cfg (.event .rld (0b00#2 ++ b)) = .ok .rldNop) ∧
    (∀ v : Bit, decode s.cfg (.bitEvent (0b00#2 ++ BitVec.ofBool v)) = .ok .npdNop) ∧
    exec (.svNop .np) s = .next s ∧ exec (.svNop .rl) s = .next s ∧ exec .npeNop s = .next s ∧
    exec .npdNop s = .next s ∧ exec .rleNop s = .next s ∧ exec .rldNop s = .next s

/-- R111, for both copies of `SV`: the sentinel raises `InvalidInputError` at its index, any other byte is counted,
and outside phase `RUN` the byte is ignored. -/
def Obligations.SvByteScansForTheSentinel : Prop :=
  ∀ (s : State) (b : Byte),
    (∀ c : Codec, decode s.cfg (.event (.sv c) (0b01#2 ++ b)) = .ok (.svByte c b)) ∧
    (s.np.sv.ctl.phase ≠ .run → exec (.svByte .np b) s = .next s) ∧
    (s.np.sv.ctl.phase = .run → b = s.cfg.sentinel →
      exec (.svByte .np b) s = .next { s with
        np.sv.ctl := ⟨.faulted, .invalidInput, s.np.sv.ctl.inPos, s.np.sv.ctl.inPos⟩ }) ∧
    (s.np.sv.ctl.phase = .run → b ≠ s.cfg.sentinel →
      exec (.svByte .np b) s = .next { s with np.sv.ctl.inPos := s.np.sv.ctl.inPos + 1 }) ∧
    (s.rl.sv.ctl.phase ≠ .run → exec (.svByte .rl b) s = .next s) ∧
    (s.rl.sv.ctl.phase = .run → b = s.cfg.sentinel →
      exec (.svByte .rl b) s = .next { s with
        rl.sv.ctl := ⟨.faulted, .invalidInput, s.rl.sv.ctl.inPos, s.rl.sv.ctl.inPos⟩ }) ∧
    (s.rl.sv.ctl.phase = .run → b ≠ s.cfg.sentinel →
      exec (.svByte .rl b) s = .next { s with rl.sv.ctl.inPos := s.rl.sv.ctl.inPos + 1 })

/-- R112, for both copies of `SV`. -/
def Obligations.SvEndFinishesThePass : Prop :=
  ∀ s : State,
    (∀ (c : Codec) (b : Byte), decode s.cfg (.event (.sv c) (0b10#2 ++ b)) = .ok (.svEnd c)) ∧
    (s.np.sv.ctl.phase = .run → exec (.svEnd .np) s = .next { s with np.sv.ctl.phase := .done }) ∧
    (s.np.sv.ctl.phase ≠ .run → exec (.svEnd .np) s = .next s) ∧
    (s.rl.sv.ctl.phase = .run → exec (.svEnd .rl) s = .next { s with rl.sv.ctl.phase := .done }) ∧
    (s.rl.sv.ctl.phase ≠ .run → exec (.svEnd .rl) s = .next s)

/-- R122: a byte opens a block, joins the open one when its high nibble is the block's and the block has room, or
else closes the open block (R120) and opens the next. The block's registers are its byte list (R50). -/
def Obligations.NpeByteGroupsByHighNibble : Prop :=
  ∀ (s : State) (b : Byte),
    decode s.cfg (.event .npe (0b01#2 ++ b)) = .ok (.npeByte b) ∧
    (s.np.enc.ctl.phase ≠ .run → exec (.npeByte b) s = .next s) ∧
    (s.np.enc.ctl.phase = .run → s.np.enc.dp.blk = [] →
      exec (.npeByte b) s = .next { s with
        np.enc.dp.blk := [b], np.enc.ctl.inPos := s.np.enc.ctl.inPos + 1 }) ∧
    (∀ (b₀ : Byte) (bs : List Byte), s.np.enc.ctl.phase = .run → s.np.enc.dp.blk = b₀ :: bs →
      (hi4 b ≠ hi4 b₀ ∨ (b₀ :: bs).length = 15 →
        exec (.npeByte b) s = .next { s with
          np.enc.dp.acc := s.np.enc.dp.acc ++ closeBlock s.cfg (b₀ :: bs)
          np.enc.dp.blk := [b]
          np.enc.ctl.inPos := s.np.enc.ctl.inPos + 1 }) ∧
      (hi4 b = hi4 b₀ → (b₀ :: bs).length ≠ 15 →
        exec (.npeByte b) s = .next { s with
          np.enc.dp.blk := b₀ :: bs ++ [b], np.enc.ctl.inPos := s.np.enc.ctl.inPos + 1 }))

/-- R120, in the spec's registers: a block with high nibble `h` and low nibbles `lo` (1 to 15 of them) is its bytes
`h*16 + lo[k]` when there are at most 3, else one packed group; the lengths are `8n` and `16+4n` bits. -/
def Obligations.ClosedBlockBits : Prop :=
  ∀ (cfg : Config) (h : Nibble) (lo : List Nibble), 1 ≤ lo.length → lo.length ≤ 15 →
    (lo.length ≤ 3 →
      closeBlock cfg (lo.map (joinNibbles h)) = lo.flatMap (fun l => bitsMsb (joinNibbles h l)) ∧
      (closeBlock cfg (lo.map (joinNibbles h))).length = 8 * lo.length) ∧
    (3 < lo.length →
      closeBlock cfg (lo.map (joinNibbles h)) =
        bitsMsb cfg.sentinel ++ bitsMsb h ++ bitsMsb (BitVec.ofNat 4 lo.length) ++ lo.flatMap bitsMsb ∧
      (closeBlock cfg (lo.map (joinNibbles h))).length = 16 + 4 * lo.length)

/-- R123: `END` flushes the open block, if any, and finishes the pass. -/
def Obligations.NpeEndFlushesTheOpenBlock : Prop :=
  ∀ s : State,
    (∀ b : Byte, decode s.cfg (.event .npe (0b10#2 ++ b)) = .ok .npeEnd) ∧
    (s.np.enc.ctl.phase ≠ .run → exec .npeEnd s = .next s) ∧
    (s.np.enc.ctl.phase = .run → s.np.enc.dp.blk = [] →
      exec .npeEnd s = .next { s with np.enc.ctl.phase := .done }) ∧
    (s.np.enc.ctl.phase = .run → s.np.enc.dp.blk ≠ [] →
      exec .npeEnd s = .next { s with
        np.enc.dp.acc := s.np.enc.dp.acc ++ closeBlock s.cfg s.np.enc.dp.blk
        np.enc.dp.blk := []
        np.enc.ctl.phase := .done })

/-- R140, R142 to R146: a bit is shifted into the field; when the field is complete the mode's action is taken. A
count below 4 with strict counts raises the fault, and the step then writes nothing else, `SHREG` and `NBITS`
included: R226 over the order of R142's pseudocode (notes/assumptions/9.md). -/
def Obligations.NpdBitParsesAndExpands : Prop :=
  ∀ (s : State) (v : Bit),
    let d := s.np.dec.dp
    let c := s.np.dec.ctl
    let f : Byte := BitVec.ofNat 8 (d.shreg.toNat * 2 + v.toNat)
    let w : Nat := if d.mode = .lit then 8 else 4
    decode s.cfg (.bitEvent (0b01#2 ++ BitVec.ofBool v)) = .ok (.npdBit v) ∧
    (c.phase ≠ .run → exec (.npdBit v) s = .next s) ∧
    (c.phase = .run → d.nbits.toNat + 1 < w →
      exec (.npdBit v) s = .next { s with
        np.dec.dp.shreg := f, np.dec.dp.nbits := BitVec.ofNat 3 (d.nbits.toNat + 1)
        np.dec.ctl.inPos := c.inPos + 1 }) ∧
    (c.phase = .run → ¬ d.nbits.toNat + 1 < w →
      (d.mode = .lit → f = s.cfg.sentinel →
        exec (.npdBit v) s = .next { s with
          np.dec.dp.shreg := 0, np.dec.dp.nbits := 0, np.dec.dp.mode := .hi
          np.dec.ctl.inPos := c.inPos + 1 }) ∧
      (d.mode = .lit → f ≠ s.cfg.sentinel →
        exec (.npdBit v) s = .next { s with
          np.dec.dp.shreg := 0, np.dec.dp.nbits := 0, np.dec.dp.out := d.out ++ [f]
          np.dec.ctl.inPos := c.inPos + 1 }) ∧
      (d.mode = .hi →
        exec (.npdBit v) s = .next { s with
          np.dec.dp.shreg := 0, np.dec.dp.nbits := 0, np.dec.dp.mode := .cnt (lo4 f)
          np.dec.ctl.inPos := c.inPos + 1 }) ∧
      (∀ h : Nibble, d.mode = .cnt h → (lo4 f).toNat ≤ 3 → s.cfg.npStrictCount = true →
        exec (.npdBit v) s = .next { s with
          np.dec.ctl := ⟨.faulted, .malformedStream, c.inPos, c.inPos⟩ }) ∧
      (∀ h : Nibble, d.mode = .cnt h → lo4 f = 0 → s.cfg.npStrictCount = false →
        exec (.npdBit v) s = .next { s with
          np.dec.dp.shreg := 0, np.dec.dp.nbits := 0, np.dec.dp.mode := .lit
          np.dec.ctl.inPos := c.inPos + 1 }) ∧
      (∀ h : Nibble, d.mode = .cnt h → lo4 f ≠ 0 → ((lo4 f).toNat ≤ 3 → s.cfg.npStrictCount = false) →
        exec (.npdBit v) s = .next { s with
          np.dec.dp.shreg := 0, np.dec.dp.nbits := 0, np.dec.dp.grpRem := lo4 f, np.dec.dp.mode := .lo h
          np.dec.ctl.inPos := c.inPos + 1 }) ∧
      (∀ h : Nibble, d.mode = .lo h → d.grpRem = 1 →
        exec (.npdBit v) s = .next { s with
          np.dec.dp.shreg := 0, np.dec.dp.nbits := 0, np.dec.dp.out := d.out ++ [joinNibbles h (lo4 f)]
          np.dec.dp.grpRem := 0, np.dec.dp.mode := .lit
          np.dec.ctl.inPos := c.inPos + 1 }) ∧
      (∀ h : Nibble, d.mode = .lo h → d.grpRem ≠ 1 →
        exec (.npdBit v) s = .next { s with
          np.dec.dp.shreg := 0, np.dec.dp.nbits := 0, np.dec.dp.out := d.out ++ [joinNibbles h (lo4 f)]
          np.dec.dp.grpRem := d.grpRem - 1
          np.dec.ctl.inPos := c.inPos + 1 }))

/-- R147: the stream may end only at a token boundary; anywhere else `END` raises `MalformedStreamError` at the
number of bits received. -/
def Obligations.NpdEndNeedsATokenBoundary : Prop :=
  ∀ s : State,
    (∀ v : Bit, decode s.cfg (.bitEvent (0b10#2 ++ BitVec.ofBool v)) = .ok .npdEnd) ∧
    (s.np.dec.ctl.phase ≠ .run → exec .npdEnd s = .next s) ∧
    (s.np.dec.ctl.phase = .run → s.np.dec.dp.mode = .lit → s.np.dec.dp.nbits = 0 →
      exec .npdEnd s = .next { s with np.dec.ctl.phase := .done }) ∧
    (s.np.dec.ctl.phase = .run → (s.np.dec.dp.mode ≠ .lit ∨ s.np.dec.dp.nbits ≠ 0) →
      exec .npdEnd s = .next { s with
        np.dec.ctl := ⟨.faulted, .malformedStream, s.np.dec.ctl.inPos, s.np.dec.ctl.inPos⟩ })

/-- R162: a byte opens a run, continues it, is rejected as the tenth of it, or closes it (R160) and opens the next. -/
def Obligations.RleByteCountsTheRun : Prop :=
  ∀ (s : State) (b : Byte),
    decode s.cfg (.event .rle (0b01#2 ++ b)) = .ok (.rleByte b) ∧
    (s.rl.enc.ctl.phase ≠ .run → exec (.rleByte b) s = .next s) ∧
    (s.rl.enc.ctl.phase = .run → s.rl.enc.dp.run = .none →
      exec (.rleByte b) s = .next { s with
        rl.enc.dp.run := .opened b 1, rl.enc.ctl.inPos := s.rl.enc.ctl.inPos + 1 }) ∧
    (∀ (v : Byte) (n : BitVec 4), s.rl.enc.ctl.phase = .run → s.rl.enc.dp.run = .opened v n →
      (b = v → n = 9 →
        exec (.rleByte b) s = .next { s with
          rl.enc.ctl := ⟨.faulted, .unsupportedRunLength, s.rl.enc.ctl.inPos, s.rl.enc.ctl.inPos⟩ }) ∧
      (b = v → n ≠ 9 →
        exec (.rleByte b) s = .next { s with
          rl.enc.dp.run := .opened v (n + 1), rl.enc.ctl.inPos := s.rl.enc.ctl.inPos + 1 }) ∧
      (b ≠ v →
        exec (.rleByte b) s = .next { s with
          rl.enc.dp.out := s.rl.enc.dp.out ++ closeRun s.cfg v n
          rl.enc.dp.run := .opened b 1
          rl.enc.ctl.inPos := s.rl.enc.ctl.inPos + 1 }))

/-- R160: a run of 4 to 9 is the marker with digit `'4'` to `'9'` (0x34 to 0x39), a run of 1 to 3 its bytes. -/
def Obligations.ClosedRunBytes : Prop :=
  ∀ (cfg : Config) (v : Byte) (n : BitVec 4), 1 ≤ n.toNat → n.toNat ≤ 9 →
    (3 < n.toNat → closeRun cfg v n = [cfg.sentinel, v, BitVec.ofNat 8 (0x30 + n.toNat)]) ∧
    (n.toNat ≤ 3 → closeRun cfg v n = List.replicate n.toNat v)

/-- R163: `END` flushes the open run, if any, and finishes the pass. -/
def Obligations.RleEndFlushesTheOpenRun : Prop :=
  ∀ s : State,
    (∀ b : Byte, decode s.cfg (.event .rle (0b10#2 ++ b)) = .ok .rleEnd) ∧
    (s.rl.enc.ctl.phase ≠ .run → exec .rleEnd s = .next s) ∧
    (s.rl.enc.ctl.phase = .run → s.rl.enc.dp.run = .none →
      exec .rleEnd s = .next { s with rl.enc.ctl.phase := .done }) ∧
    (∀ (v : Byte) (n : BitVec 4), s.rl.enc.ctl.phase = .run → s.rl.enc.dp.run = .opened v n →
      exec .rleEnd s = .next { s with
        rl.enc.dp.out := s.rl.enc.dp.out ++ closeRun s.cfg v n
        rl.enc.dp.run := .none
        rl.enc.ctl.phase := .done })

/-- R181, R182, R183: what a byte means depends on the mode; a digit expands the marker, a byte that is no digit in
the digit position raises `MalformedStreamError`. -/
def Obligations.RldByteDetectsAndExpandsMarkers : Prop :=
  ∀ (s : State) (b : Byte),
    let d := s.rl.dec.dp
    let c := s.rl.dec.ctl
    decode s.cfg (.event .rld (0b01#2 ++ b)) = .ok (.rldByte b) ∧
    (c.phase ≠ .run → exec (.rldByte b) s = .next s) ∧
    (c.phase = .run →
      (d.mode = .lit → b = s.cfg.sentinel →
        exec (.rldByte b) s = .next { s with rl.dec.dp.mode := .val, rl.dec.ctl.inPos := c.inPos + 1 }) ∧
      (d.mode = .lit → b ≠ s.cfg.sentinel →
        exec (.rldByte b) s = .next { s with
          rl.dec.dp.out := d.out ++ [b], rl.dec.ctl.inPos := c.inPos + 1 }) ∧
      (d.mode = .val →
        exec (.rldByte b) s = .next { s with rl.dec.dp.mode := .dig b, rl.dec.ctl.inPos := c.inPos + 1 }) ∧
      (∀ v : Byte, d.mode = .dig v → 0x30 ≤ b.toNat → b.toNat ≤ 0x39 →
        exec (.rldByte b) s = .next { s with
          rl.dec.dp.out := d.out ++ List.replicate (b.toNat - 0x30) v
          rl.dec.dp.mode := .lit
          rl.dec.ctl.inPos := c.inPos + 1 }) ∧
      (∀ v : Byte, d.mode = .dig v → (b.toNat < 0x30 ∨ 0x39 < b.toNat) →
        exec (.rldByte b) s = .next { s with
          rl.dec.ctl := ⟨.faulted, .malformedStream, c.inPos, c.inPos⟩ }))

/-- R184: the stream may end only at a token boundary. -/
def Obligations.RldEndNeedsATokenBoundary : Prop :=
  ∀ s : State,
    (∀ b : Byte, decode s.cfg (.event .rld (0b10#2 ++ b)) = .ok .rldEnd) ∧
    (s.rl.dec.ctl.phase ≠ .run → exec .rldEnd s = .next s) ∧
    (s.rl.dec.ctl.phase = .run → s.rl.dec.dp.mode = .lit →
      exec .rldEnd s = .next { s with rl.dec.ctl.phase := .done }) ∧
    (s.rl.dec.ctl.phase = .run → s.rl.dec.dp.mode ≠ .lit →
      exec .rldEnd s = .next { s with
        rl.dec.ctl := ⟨.faulted, .malformedStream, s.rl.dec.ctl.inPos, s.rl.dec.ctl.inPos⟩ })

/-! ### Faults, cursor, accumulators -/

/-- R226: an event that enters `FAULTED` writes `PHASE`, `FAULT` and `FAULT_POS` (the cursor, which stays) and
nothing else; while `FAULTED` a unit's symbol events and `END` change nothing. -/
def Obligations.FaultEntryWritesOnlyTheFaultRegisters : Prop :=
  (∀ (s t : State) (b : Byte) (v : Bit),
    (exec (.svByte .np b) s = .next t → s.np.sv.ctl.phase ≠ .faulted → t.np.sv.ctl.phase = .faulted →
      t = { s with np.sv.ctl := ⟨.faulted, .invalidInput, s.np.sv.ctl.inPos, s.np.sv.ctl.inPos⟩ }) ∧
    (exec (.svByte .rl b) s = .next t → s.rl.sv.ctl.phase ≠ .faulted → t.rl.sv.ctl.phase = .faulted →
      t = { s with rl.sv.ctl := ⟨.faulted, .invalidInput, s.rl.sv.ctl.inPos, s.rl.sv.ctl.inPos⟩ }) ∧
    (exec (.npdBit v) s = .next t ∨ exec .npdEnd s = .next t →
      s.np.dec.ctl.phase ≠ .faulted → t.np.dec.ctl.phase = .faulted →
      t = { s with np.dec.ctl := ⟨.faulted, .malformedStream, s.np.dec.ctl.inPos, s.np.dec.ctl.inPos⟩ }) ∧
    (exec (.rleByte b) s = .next t → s.rl.enc.ctl.phase ≠ .faulted → t.rl.enc.ctl.phase = .faulted →
      t = { s with rl.enc.ctl := ⟨.faulted, .unsupportedRunLength, s.rl.enc.ctl.inPos, s.rl.enc.ctl.inPos⟩ }) ∧
    (exec (.rldByte b) s = .next t ∨ exec .rldEnd s = .next t →
      s.rl.dec.ctl.phase ≠ .faulted → t.rl.dec.ctl.phase = .faulted →
      t = { s with rl.dec.ctl := ⟨.faulted, .malformedStream, s.rl.dec.ctl.inPos, s.rl.dec.ctl.inPos⟩ })) ∧
  (∀ (s : State) (b : Byte) (v : Bit),
    (s.np.sv.ctl.phase = .faulted → exec (.svByte .np b) s = .next s ∧ exec (.svEnd .np) s = .next s) ∧
    (s.rl.sv.ctl.phase = .faulted → exec (.svByte .rl b) s = .next s ∧ exec (.svEnd .rl) s = .next s) ∧
    (s.np.enc.ctl.phase = .faulted → exec (.npeByte b) s = .next s ∧ exec .npeEnd s = .next s) ∧
    (s.np.dec.ctl.phase = .faulted → exec (.npdBit v) s = .next s ∧ exec .npdEnd s = .next s) ∧
    (s.rl.enc.ctl.phase = .faulted → exec (.rleByte b) s = .next s ∧ exec .rleEnd s = .next s) ∧
    (s.rl.dec.ctl.phase = .faulted → exec (.rldByte b) s = .next s ∧ exec .rldEnd s = .next s))

/-- R220: over all instructions, a unit enters `FAULTED` only by the events the table names (or an operation or a
token that consists of them), `NPE` never, and `NPD` by a bit only with strict counts. -/
def Obligations.OnlyTheListedEventsEnterFaulted : Prop :=
  ∀ (i : Instr) (s t : State), exec i s = .next t →
    (s.np.sv.ctl.phase ≠ .faulted → t.np.sv.ctl.phase = .faulted →
      t.np.sv.ctl.fault = .invalidInput ∧ ((∃ b, i = .svByte .np b) ∨ ∃ p, i = .cmdNew .np p)) ∧
    (s.rl.sv.ctl.phase ≠ .faulted → t.rl.sv.ctl.phase = .faulted →
      t.rl.sv.ctl.fault = .invalidInput ∧ ((∃ b, i = .svByte .rl b) ∨ ∃ p, i = .cmdNew .rl p)) ∧
    (s.np.enc.ctl.phase ≠ .faulted → t.np.enc.ctl.phase ≠ .faulted) ∧
    (s.np.dec.ctl.phase ≠ .faulted → t.np.dec.ctl.phase = .faulted →
      t.np.dec.ctl.fault = .malformedStream ∧
      (i = .npdEnd ∨ (∃ st, i = .cmdDecode (.np st)) ∨ i = .cmdDecodeOwn .np ∨
        (s.cfg.npStrictCount = true ∧
          ((∃ v, i = .npdBit v) ∨ (∃ b, i = .npLit b) ∨ ∃ hi n lo, i = .npGrp hi n lo)))) ∧
    (s.rl.enc.ctl.phase ≠ .faulted → t.rl.enc.ctl.phase = .faulted →
      t.rl.enc.ctl.fault = .unsupportedRunLength ∧ ((∃ b, i = .rleByte b) ∨ i = .cmdEncode .rl)) ∧
    (s.rl.dec.ctl.phase ≠ .faulted → t.rl.dec.ctl.phase = .faulted →
      t.rl.dec.ctl.fault = .malformedStream ∧
      ((∃ b, i = .rldByte b) ∨ i = .rldEnd ∨ (∃ b, i = .rlLit b) ∨ (∃ v d, i = .rlMrk v d) ∨
        (∃ st, i = .cmdDecode (.rl st)) ∨ i = .cmdDecodeOwn .rl))

/-- R24: `CLEAR` and reset set a unit's cursor to 0, a symbol event processed in phase `RUN` without a fault adds 1, and
nothing else changes it (a token or an operation on the unit is a sequence of these events). -/
def Obligations.CursorCountsProcessedSymbols : Prop :=
  (∀ (s t : State) (rest : List HostInput), s.inbox = .reset :: rest → step s = .next t →
    t.np.sv.ctl.inPos = 0 ∧ t.np.enc.ctl.inPos = 0 ∧ t.np.dec.ctl.inPos = 0 ∧
    t.rl.sv.ctl.inPos = 0 ∧ t.rl.enc.ctl.inPos = 0 ∧ t.rl.dec.ctl.inPos = 0) ∧
  (∀ (i : Instr) (s t : State), exec i s = .next t →
    (match i with
      | .svClear .np => t.np.sv.ctl.inPos = 0
      | .svByte .np _ => t.np.sv.ctl.inPos =
          if s.np.sv.ctl.phase = .run ∧ t.np.sv.ctl.phase = .run then s.np.sv.ctl.inPos + 1 else s.np.sv.ctl.inPos
      | .cmdNew .np _ => True
      | _ => t.np.sv.ctl.inPos = s.np.sv.ctl.inPos) ∧
    (match i with
      | .svClear .rl => t.rl.sv.ctl.inPos = 0
      | .svByte .rl _ => t.rl.sv.ctl.inPos =
          if s.rl.sv.ctl.phase = .run ∧ t.rl.sv.ctl.phase = .run then s.rl.sv.ctl.inPos + 1 else s.rl.sv.ctl.inPos
      | .cmdNew .rl _ => True
      | _ => t.rl.sv.ctl.inPos = s.rl.sv.ctl.inPos) ∧
    (match i with
      | .npeClear => t.np.enc.ctl.inPos = 0
      | .npeByte _ => t.np.enc.ctl.inPos =
          if s.np.enc.ctl.phase = .run then s.np.enc.ctl.inPos + 1 else s.np.enc.ctl.inPos
      | .cmdNew .np _ => t.np.enc.ctl.inPos = 0
      | .cmdEncode .np => True
      | _ => t.np.enc.ctl.inPos = s.np.enc.ctl.inPos) ∧
    (match i with
      | .npdClear => t.np.dec.ctl.inPos = 0
      | .npdBit _ => t.np.dec.ctl.inPos =
          if s.np.dec.ctl.phase = .run ∧ t.np.dec.ctl.phase = .run then s.np.dec.ctl.inPos + 1
          else s.np.dec.ctl.inPos
      | .cmdNew .np _ => t.np.dec.ctl.inPos = 0
      | .npLit _ | .npGrp _ _ _ | .cmdDecode (.np _) | .cmdDecodeOwn .np => True
      | _ => t.np.dec.ctl.inPos = s.np.dec.ctl.inPos) ∧
    (match i with
      | .rleClear => t.rl.enc.ctl.inPos = 0
      | .rleByte _ => t.rl.enc.ctl.inPos =
          if s.rl.enc.ctl.phase = .run ∧ t.rl.enc.ctl.phase = .run then s.rl.enc.ctl.inPos + 1
          else s.rl.enc.ctl.inPos
      | .cmdNew .rl _ => t.rl.enc.ctl.inPos = 0
      | .cmdEncode .rl => True
      | _ => t.rl.enc.ctl.inPos = s.rl.enc.ctl.inPos) ∧
    (match i with
      | .rldClear => t.rl.dec.ctl.inPos = 0
      | .rldByte _ => t.rl.dec.ctl.inPos =
          if s.rl.dec.ctl.phase = .run ∧ t.rl.dec.ctl.phase = .run then s.rl.dec.ctl.inPos + 1
          else s.rl.dec.ctl.inPos
      | .cmdNew .rl _ => t.rl.dec.ctl.inPos = 0
      | .rlLit _ | .rlMrk _ _ | .cmdDecode (.rl _) | .cmdDecodeOwn .rl => True
      | _ => t.rl.dec.ctl.inPos = s.rl.dec.ctl.inPos))

/-- R64: over all instructions, nothing written to an accumulator is changed or removed except by `CLEAR`, reset
or an operation, which begins with `CLEAR`. -/
def Obligations.AccumulatorsAreAppendOnly : Prop :=
  (∀ (s t : State) (rest : List HostInput), s.inbox = .reset :: rest → step s = .next t →
    t.np.enc.dp.acc = [] ∧ t.np.dec.dp.out = [] ∧ t.rl.enc.dp.out = [] ∧ t.rl.dec.dp.out = []) ∧
  (∀ (i : Instr) (s t : State), exec i s = .next t →
    (match i with
      | .npeClear | .cmdNew .np _ => t.np.enc.dp.acc = []
      | .cmdEncode .np => True
      | _ => s.np.enc.dp.acc <+: t.np.enc.dp.acc) ∧
    (match i with
      | .npdClear | .cmdNew .np _ => t.np.dec.dp.out = []
      | .cmdDecode (.np _) | .cmdDecodeOwn .np => True
      | _ => s.np.dec.dp.out <+: t.np.dec.dp.out) ∧
    (match i with
      | .rleClear | .cmdNew .rl _ => t.rl.enc.dp.out = []
      | .cmdEncode .rl => True
      | _ => s.rl.enc.dp.out <+: t.rl.enc.dp.out) ∧
    (match i with
      | .rldClear | .cmdNew .rl _ => t.rl.dec.dp.out = []
      | .cmdDecode (.rl _) | .cmdDecodeOwn .rl => True
      | _ => s.rl.dec.dp.out <+: t.rl.dec.dp.out))

/-- R70 (derived there): how much one event appends, in states that satisfy the invariants of the unit. -/
def Obligations.OneEventAppendsABoundedLength : Prop :=
  ∀ s t : State,
    (∀ i : Instr, ((∃ b, i = .npeByte b) ∨ i = .npeEnd) → NpeInv s.np.enc → exec i s = .next t →
      ∃ l, t.np.enc.dp.acc = s.np.enc.dp.acc ++ l ∧
        (l.length = 0 ∨ (∃ n, 1 ≤ n ∧ n ≤ 3 ∧ l.length = 8 * n) ∨ ∃ n, 4 ≤ n ∧ n ≤ 15 ∧ l.length = 16 + 4 * n)) ∧
    (∀ v : Bit, exec (.npdBit v) s = .next t →
      ∃ l, t.np.dec.dp.out = s.np.dec.dp.out ++ l ∧ l.length ≤ 1) ∧
    (∀ i : Instr, ((∃ b, i = .rleByte b) ∨ i = .rleEnd) → RleInv s.rl.enc → exec i s = .next t →
      ∃ l, t.rl.enc.dp.out = s.rl.enc.dp.out ++ l ∧ l.length ≤ 3) ∧
    (∀ b : Byte, exec (.rldByte b) s = .next t →
      ∃ l, t.rl.dec.dp.out = s.rl.dec.dp.out ++ l ∧ l.length ≤ 9) ∧
    (exec .npdEnd s = .next t → t.np.dec.dp.out = s.np.dec.dp.out) ∧
    (exec .rldEnd s = .next t → t.rl.dec.dp.out = s.rl.dec.dp.out)

/-! ### Stream tokens (notes/assumptions/8.md) -/

/-- In every state a token is its symbols presented one by one to the matching decoder, and completes. -/
def Obligations.TokenIsItsSymbols : Prop :=
  ∀ s : State,
    (∀ b : Byte, ∃ t, exec (.npLit b) s = .next t ∧ execAll ((bitsMsb b).map .npdBit) s = .next t) ∧
    (∀ (hi n : Nibble) (lo : List Nibble), ∃ t, exec (.npGrp hi n lo) s = .next t ∧
      execAll ((bitsMsb s.cfg.sentinel ++ bitsMsb hi ++ bitsMsb n ++ lo.flatMap bitsMsb).map .npdBit) s = .next t) ∧
    (∀ b : Byte, ∃ t, exec (.rlLit b) s = .next t ∧ execAll [.rldByte b] s = .next t) ∧
    (∀ val dig : Byte, ∃ t, exec (.rlMrk val dig) s = .next t ∧
      execAll [.rldByte s.cfg.sentinel, .rldByte val, .rldByte dig] s = .next t)

/-- At a token boundary a literal token other than the sentinel is decoded as its byte, and the sentinel's bits begin
a group (R81, R85, R143). -/
def Obligations.NpLiteralTokenIsItsByte : Prop :=
  ∀ (s : State) (b : Byte), s.np.dec.ctl.phase = .run → s.np.dec.dp.mode = .lit → s.np.dec.dp.shreg = 0 →
    s.np.dec.dp.nbits = 0 →
    (b ≠ s.cfg.sentinel →
      exec (.npLit b) s = .next { s with
        np.dec.dp.out := s.np.dec.dp.out ++ [b], np.dec.ctl.inPos := s.np.dec.ctl.inPos + 8 }) ∧
    (b = s.cfg.sentinel →
      exec (.npLit b) s = .next { s with
        np.dec.dp.mode := .hi, np.dec.ctl.inPos := s.np.dec.ctl.inPos + 8 })

/-- At a token boundary a packed group of count `n` is decoded as its `n` bytes `hi*16 + lo[k]` and `NPD` is at a
token boundary again; a count of 0 yields nothing; with strict counts a count below 4 is rejected at the count's
last bit (R82, R84, R142 to R146), and `SHREG` and `NBITS` then keep what they held before that bit: R226 over the
order of R142's pseudocode (notes/assumptions/9.md). -/
def Obligations.NpGroupTokenIsItsBytes : Prop :=
  ∀ (s : State) (hi n : Nibble) (lo : List Nibble), lo.length = n.toNat → s.np.dec.ctl.phase = .run →
    s.np.dec.dp.mode = .lit → s.np.dec.dp.shreg = 0 → s.np.dec.dp.nbits = 0 →
    (1 ≤ n.toNat → (n.toNat ≤ 3 → s.cfg.npStrictCount = false) →
      exec (.npGrp hi n lo) s = .next { s with
        np.dec.dp.out := s.np.dec.dp.out ++ lo.map (joinNibbles hi)
        np.dec.dp.grpRem := 0
        np.dec.ctl.inPos := s.np.dec.ctl.inPos + (16 + 4 * n.toNat) }) ∧
    (n = 0 → s.cfg.npStrictCount = false →
      exec (.npGrp hi n lo) s = .next { s with np.dec.ctl.inPos := s.np.dec.ctl.inPos + 16 }) ∧
    (n.toNat ≤ 3 → s.cfg.npStrictCount = true →
      exec (.npGrp hi n lo) s = .next { s with
        np.dec.dp.mode := .cnt hi
        np.dec.dp.shreg := BitVec.ofNat 8 (n.toNat / 2)
        np.dec.dp.nbits := 3
        np.dec.ctl := ⟨.faulted, .malformedStream, s.np.dec.ctl.inPos + 15, s.np.dec.ctl.inPos + 15⟩ })

/-- At a token boundary a run-length literal is its byte and a marker its value `repeat` times; a marker whose third
byte is no digit is rejected there (R87 to R89, R181 to R183). -/
def Obligations.RlTokensAreTheirBytes : Prop :=
  ∀ s : State, s.rl.dec.ctl.phase = .run → s.rl.dec.dp.mode = .lit →
    (∀ b : Byte, b ≠ s.cfg.sentinel →
      exec (.rlLit b) s = .next { s with
        rl.dec.dp.out := s.rl.dec.dp.out ++ [b], rl.dec.ctl.inPos := s.rl.dec.ctl.inPos + 1 }) ∧
    (∀ val dig : Byte, 0x30 ≤ dig.toNat → dig.toNat ≤ 0x39 →
      exec (.rlMrk val dig) s = .next { s with
        rl.dec.dp.out := s.rl.dec.dp.out ++ List.replicate (dig.toNat - 0x30) val
        rl.dec.ctl.inPos := s.rl.dec.ctl.inPos + 3 }) ∧
    (∀ val dig : Byte, (dig.toNat < 0x30 ∨ 0x39 < dig.toNat) →
      exec (.rlMrk val dig) s = .next { s with
        rl.dec.dp.mode := .dig val
        rl.dec.ctl := ⟨.faulted, .malformedStream, s.rl.dec.ctl.inPos + 2, s.rl.dec.ctl.inPos + 2⟩ })

/-! ### Instance operations -/

/-- R201: `NEW` forgets the earlier payload and buffers and empties the encoder and the decoder; a payload without
the sentinel is latched with the result `ok`; one with it gives `InvalidInputError` at the first sentinel and leaves
the instance unconstructed. -/
def Obligations.NewValidatesThenLatches : Prop :=
  ∀ (s : State) (p : List Byte),
    (s.cfg.sentinel ∉ p →
      (∃ I : Instance NpeDp NpdDp, exec (.cmdNew .np p) s = .next { s with np := I } ∧ newResult I = some (.ok ()) ∧
        I = { sv := ⟨⟨.done, .none, 0, p.length⟩, ()⟩
              enc := ⟨Ctl.reset, NpeDp.reset⟩, dec := ⟨Ctl.reset, NpdDp.reset⟩
              constructed := true, payload := p, encValid := false, decValid := false }) ∧
      (∃ I : Instance RleDp RldDp, exec (.cmdNew .rl p) s = .next { s with rl := I } ∧ newResult I = some (.ok ()) ∧
        I = { sv := ⟨⟨.done, .none, 0, p.length⟩, ()⟩
              enc := ⟨Ctl.reset, RleDp.reset⟩, dec := ⟨Ctl.reset, RldDp.reset⟩
              constructed := true, payload := p, encValid := false, decValid := false })) ∧
    (∀ q r : List Byte, p = q ++ s.cfg.sentinel :: r → s.cfg.sentinel ∉ q →
      (∃ I : Instance NpeDp NpdDp, exec (.cmdNew .np p) s = .next { s with np := I } ∧
        newResult I = some (.error .invalidInput q.length) ∧
        I = { sv := ⟨⟨.faulted, .invalidInput, q.length, q.length⟩, ()⟩
              enc := ⟨Ctl.reset, NpeDp.reset⟩, dec := ⟨Ctl.reset, NpdDp.reset⟩
              constructed := false, payload := [], encValid := false, decValid := false }) ∧
      (∃ I : Instance RleDp RldDp, exec (.cmdNew .rl p) s = .next { s with rl := I } ∧
        newResult I = some (.error .invalidInput q.length) ∧
        I = { sv := ⟨⟨.faulted, .invalidInput, q.length, q.length⟩, ()⟩
              enc := ⟨Ctl.reset, RleDp.reset⟩, dec := ⟨Ctl.reset, RldDp.reset⟩
              constructed := false, payload := [], encValid := false, decValid := false }))

/-- R97, R201 to R204, R209: an operation is the events of its expansion, run one by one, and then its flags; a
pass has the length of its input plus two events; `DECODE_OWN I` is `DECODE I, I.ENCODED`. -/
def Obligations.OperationsAreTheirExpansions : Prop :=
  ∀ s : State,
    (∀ p : List Byte,
      (∃ t, execAll ([.npeClear, .npdClear] ++ svEvents .np p) s = .next t ∧
        exec (.cmdNew .np p) s = .next { t with
          np.constructed := decide (t.np.sv.ctl.phase = .done)
          np.payload := if t.np.sv.ctl.phase = .done then p else []
          np.encValid := false, np.decValid := false }) ∧
      (∃ t, execAll ([.rleClear, .rldClear] ++ svEvents .rl p) s = .next t ∧
        exec (.cmdNew .rl p) s = .next { t with
          rl.constructed := decide (t.rl.sv.ctl.phase = .done)
          rl.payload := if t.rl.sv.ctl.phase = .done then p else []
          rl.encValid := false, rl.decValid := false })) ∧
    (s.np.constructed = true → ∃ t, execAll (encEvents .np s.np.payload) s = .next t ∧
      exec (.cmdEncode .np) s = .next { t with np.encValid := decide (t.np.enc.ctl.phase = .done) }) ∧
    (s.rl.constructed = true → ∃ t, execAll (encEvents .rl s.rl.payload) s = .next t ∧
      exec (.cmdEncode .rl) s = .next { t with rl.encValid := decide (t.rl.enc.ctl.phase = .done) }) ∧
    (∀ st : List Bit, ∃ t, execAll (decEvents (.np st)) s = .next t ∧
      exec (.cmdDecode (.np st)) s = .next { t with np.decValid := decide (t.np.dec.ctl.phase = .done) }) ∧
    (∀ st : List Byte, ∃ t, execAll (decEvents (.rl st)) s = .next t ∧
      exec (.cmdDecode (.rl st)) s = .next { t with rl.decValid := decide (t.rl.dec.ctl.phase = .done) }) ∧
    (s.np.encValid = true → exec (.cmdDecodeOwn .np) s = exec (.cmdDecode (.np s.np.enc.dp.acc)) s) ∧
    (s.rl.encValid = true → exec (.cmdDecodeOwn .rl) s = exec (.cmdDecode (.rl s.rl.enc.dp.out)) s) ∧
    (∀ (c : Codec) (p : List Byte) (st : List Bit),
      (svEvents c p).length = p.length + 2 ∧ (encEvents c p).length = p.length + 2 ∧
      (decEvents (.np st)).length = st.length + 2 ∧ (decEvents (.rl p)).length = p.length + 2)

/-- R205: `ENCODE` on an unconstructed instance and `DECODE_OWN` without a valid encoded buffer are refused. -/
def Obligations.OutOfOrderOperationsAreRefused : Prop :=
  ∀ s : State,
    (s.np.constructed = false → exec (.cmdEncode .np) s = .refused (.notConstructed .np)) ∧
    (s.rl.constructed = false → exec (.cmdEncode .rl) s = .refused (.notConstructed .rl)) ∧
    (s.np.encValid = false → exec (.cmdDecodeOwn .np) s = .refused (.noEncodedStream .np)) ∧
    (s.rl.encValid = false → exec (.cmdDecodeOwn .rl) s = .refused (.noEncodedStream .rl))

/-- R117, R224: after `NEW` of a payload that contains the sentinel, `ENCODE` and `DECODE_OWN` of the instance are
refused, whatever was there before: no byte of it reaches an encoder. -/
def Obligations.RejectedPayloadIsNeverEncoded : Prop :=
  ∀ (s : State) (c : Codec) (p : List Byte), s.cfg.sentinel ∈ p →
    ∃ t, exec (.cmdNew c p) s = .next t ∧ exec (.cmdEncode c) t = .refused (.notConstructed c) ∧
      exec (.cmdDecodeOwn c) t = .refused (.noEncodedStream c)

/-- R125, R126, R202: `ENCODE NP` completes on every constructed instance, and the encoded buffer is the blocks of
the greedy partition, each encoded by R120, in order. -/
def Obligations.EncodeNpGivesTheBlockEncoding : Prop :=
  ∀ s : State, s.np.constructed = true →
    exec (.cmdEncode .np) s = .next { s with
      np.enc := ⟨⟨.done, .none, 0, s.np.payload.length⟩, ⟨[], npEncodeForm s.cfg s.np.payload⟩⟩
      np.encValid := true }

/-- R165, R202: `ENCODE RL` completes on every constructed instance: with the runs' tokens when no maximal run is
longer than 9, else `UnsupportedRunLengthError` at the tenth byte of the first that is. -/
def Obligations.EncodeRlGivesTheRunEncoding : Prop :=
  ∀ s : State, s.rl.constructed = true →
    (∀ e, rlEncodeForm s.cfg s.rl.payload = .ok e →
      exec (.cmdEncode .rl) s = .next { s with
        rl.enc := ⟨⟨.done, .none, 0, s.rl.payload.length⟩, ⟨.none, e⟩⟩, rl.encValid := true }) ∧
    (∀ f pos, rlEncodeForm s.cfg s.rl.payload = .error f pos →
      f = .unsupportedRunLength ∧ ∃ v out, exec (.cmdEncode .rl) s = .next { s with
        rl.enc := ⟨⟨.faulted, .unsupportedRunLength, pos, pos⟩, ⟨.opened v 9, out⟩⟩, rl.encValid := false })

/-- R149, R203: `DECODE NP` completes on every stream, with the bytes of the recursive form or, when that fails,
`MalformedStreamError`, within the stream, and at its length when counts are lenient. -/
def Obligations.DecodeNpGivesTheRecursiveForm : Prop :=
  ∀ (s : State) (st : List Bit),
    (∀ x, npDecodeForm s.cfg st = some x →
      exec (.cmdDecode (.np st)) s = .next { s with
        np.dec := ⟨⟨.done, .none, 0, st.length⟩, ⟨.lit, 0, 0, 0, x⟩⟩, np.decValid := true }) ∧
    (npDecodeForm s.cfg st = none →
      ∃ pos dp, exec (.cmdDecode (.np st)) s = .next { s with
          np.dec := ⟨⟨.faulted, .malformedStream, pos, pos⟩, dp⟩, np.decValid := false } ∧
        pos ≤ st.length ∧ (s.cfg.npStrictCount = false → pos = st.length))

/-- R186, R203: `DECODE RL` completes on every stream, with the bytes of the recursive form or, when that fails,
`MalformedStreamError`. -/
def Obligations.DecodeRlGivesTheRecursiveForm : Prop :=
  ∀ (s : State) (st : List Byte),
    (∀ x, rlDecodeForm s.cfg st = some x →
      exec (.cmdDecode (.rl st)) s = .next { s with
        rl.dec := ⟨⟨.done, .none, 0, st.length⟩, ⟨.lit, x⟩⟩, rl.decValid := true }) ∧
    (rlDecodeForm s.cfg st = none →
      ∃ pos dp, exec (.cmdDecode (.rl st)) s = .next { s with
          rl.dec := ⟨⟨.faulted, .malformedStream, pos, pos⟩, dp⟩, rl.decValid := false } ∧ pos ≤ st.length)

/-- R204 (by R207, R208): in a state whose buffers hold what their flags say, `DECODE_OWN` completes and gives the
payload back; it never faults. Every step keeps `Coherent` (BuffersStayCoherent) and the payload's freedom from the
sentinel (EveryStepKeepsTheInvariants). -/
def Obligations.DecodeOwnGivesThePayloadBack : Prop :=
  ∀ s : State, Coherent s →
    (s.np.encValid = true → s.cfg.sentinel ∉ s.np.payload →
      exec (.cmdDecodeOwn .np) s = .next { s with
        np.dec := ⟨⟨.done, .none, 0, s.np.enc.dp.acc.length⟩, ⟨.lit, 0, 0, 0, s.np.payload⟩⟩
        np.decValid := true }) ∧
    (s.rl.encValid = true → s.cfg.sentinel ∉ s.rl.payload →
      exec (.cmdDecodeOwn .rl) s = .next { s with
        rl.dec := ⟨⟨.done, .none, 0, s.rl.enc.dp.out.length⟩, ⟨.lit, s.rl.payload⟩⟩
        rl.decValid := true })

/-! ### Round trips -/

/-- R151: `Decode(Encode(x)) == x` for every payload free of the sentinel, for either value of `NP_STRICT_COUNT`. -/
def Obligations.NibblePackRoundTrip : Prop :=
  ∀ (cfg : Config) (x : List Byte) (strict : Bool), validate cfg x = some (.ok ()) →
    ∃ e, npEncode cfg x = some (.ok e) ∧ npDecode { cfg with npStrictCount := strict } e = some (.ok x)

/-- R187: `Decode(Encode(x)) == x` for every payload free of the sentinel that the encoder accepts, and it accepts
every payload whose maximal runs do not exceed 9. -/
def Obligations.RunLengthRoundTrip : Prop :=
  ∀ (cfg : Config) (x : List Byte), validate cfg x = some (.ok ()) →
    (∀ e, rlEncode cfg x = some (.ok e) → rlDecode cfg e = some (.ok x)) ∧
    ((∀ r ∈ rlRuns x, r.2 ≤ 9) → ∃ e, rlEncode cfg x = some (.ok e))

/-- R207: at instance level, `NEW NP`, `ENCODE NP`, `DECODE_OWN NP` from any state give the payload back, and so does
`DECODE NP` of the encoded stream in any other state with the same sentinel. If the state before was a good final
state, so is the one after (R212). -/
def Obligations.NpInstanceRoundTrip : Prop :=
  ∀ (s : State) (x : List Byte), s.cfg.sentinel ∉ x →
    ∃ t, execAll [.cmdNew .np x, .cmdEncode .np, .cmdDecodeOwn .np] s = .next t ∧
      npEncodeResult t.np = some (.ok (npEncodeForm s.cfg x)) ∧ npDecodeResult t.np = some (.ok x) ∧ t.np.payload = x ∧
      (GoodFinal s → GoodFinal t) ∧
      ∀ s' : State, s'.cfg.sentinel = s.cfg.sentinel →
        ∃ t', exec (.cmdDecode (.np (npEncodeForm s.cfg x))) s' = .next t' ∧ npDecodeResult t'.np = some (.ok x)

/-- R208: at instance level, `ENCODE RL` after `NEW RL` gives `ok` exactly when no maximal run is longer than 9, and
then `DECODE_OWN RL` gives the payload back. -/
def Obligations.RlInstanceRoundTrip : Prop :=
  ∀ (s : State) (x : List Byte), s.cfg.sentinel ∉ x →
    ∃ t, execAll [.cmdNew .rl x, .cmdEncode .rl] s = .next t ∧
      ((∃ e, rlEncodeResult t.rl = some (.ok e)) ↔ ∀ r ∈ rlRuns x, r.2 ≤ 9) ∧
      (∀ e, rlEncodeResult t.rl = some (.ok e) →
        ∃ t', exec (.cmdDecodeOwn .rl) t = .next t' ∧ rlDecodeResult t'.rl = some (.ok x))

/-! ### Blocks, runs, lengths -/

/-- R126: the blocks are contiguous and disjoint and give the payload back, each has 1 to 15 bytes of one high
nibble, and a block shorter than 15 ends where the high nibble changes or the payload ends. -/
def Obligations.NpBlocksPartitionThePayload : Prop :=
  ∀ p : List Byte,
    (npBlocks p).flatten = p ∧
    (∀ blk ∈ npBlocks p, 1 ≤ blk.length ∧ blk.length ≤ 15 ∧ ∀ x ∈ blk, ∀ y ∈ blk, hi4 x = hi4 y) ∧
    List.IsChain (fun a b => a.length = 15 ∨ ∀ x ∈ a, ∀ y ∈ b, hi4 x ≠ hi4 y) (npBlocks p)

/-- R127: 15 bytes of one high nibble are one group of 76 bits; a tail of 1 to 3 more follows as literals, a tail of
4 to 15 more as a second group. -/
def Obligations.BlockBoundaryAtFifteen : Prop :=
  ∀ (cfg : Config) (h : Nibble) (lo tail : List Nibble), lo.length = 15 → tail.length ≤ 15 →
    let group := npGrpBits cfg h 15 lo
    group.length = 76 ∧
    npEncodeForm cfg ((lo ++ tail).map (joinNibbles h)) =
      group ++ (if tail.length ≤ 3 then tail.flatMap (fun l => npLitBits (joinNibbles h l))
        else npGrpBits cfg h (BitVec.ofNat 4 tail.length) tail)

/-- R128 (derived there): the encoded length is the sum over the blocks, and at most 8 bits a byte. -/
def Obligations.NpEncodedLength : Prop :=
  ∀ (cfg : Config) (p : List Byte),
    (npEncodeForm cfg p).length =
      ((npBlocks p).map (fun blk => if blk.length ≤ 3 then 8 * blk.length else 16 + 4 * blk.length)).sum ∧
    (npEncodeForm cfg p).length ≤ 8 * p.length

/-- R165: the maximal runs give the payload back, none is empty, and adjacent runs have different values. -/
def Obligations.RlRunsPartitionThePayload : Prop :=
  ∀ p : List Byte,
    (rlRuns p).flatMap (fun r => List.replicate r.2 r.1) = p ∧
    (∀ r ∈ rlRuns p, 1 ≤ r.2) ∧
    List.IsChain (fun a b => a.1 ≠ b.1) (rlRuns p)

/-- R166 (derived there): the run-length output is never longer than the input. -/
def Obligations.RlEncodedIsNoLonger : Prop :=
  ∀ (cfg : Config) (p e : List Byte), rlEncode cfg p = some (.ok e) → e.length ≤ p.length

/-! ### Invariants and whole-machine rules -/

/-- The reset state satisfies the invariants of R46. -/
def Obligations.ResetSatisfiesTheInvariants : Prop := StateInv State.reset

/-- R46 items 1 to 6 with R22, R23, R34, R36, R44 (derived there), and that a valid buffer belongs to a unit in phase
`DONE` (R76, R254, notes/assumptions/7.md): every step keeps them, from every state that
satisfies them. -/
def Obligations.EveryStepKeepsTheInvariants : Prop :=
  ∀ s t : State, StateInv s → step s = .next t → StateInv t

/-- R46 item 7 (derived there): while a pass of an encoder runs, the accumulator followed by the encoding of the open
block or run is the batch encoding of the bytes consumed so far. -/
def Obligations.EncoderHoldsTheEncodingSoFar : Prop :=
  ∀ (s : State) (p : List Byte),
    (∃ t, execAll (.npeClear :: p.map .npeByte) s = .next t ∧ t.np.enc.ctl.phase = .run ∧
      t.np.enc.dp.acc ++ closeBlock s.cfg t.np.enc.dp.blk = npEncodeForm s.cfg p) ∧
    ((∀ r ∈ rlRuns p, r.2 ≤ 9) →
      ∃ t, execAll (.rleClear :: p.map .rleByte) s = .next t ∧ t.rl.enc.ctl.phase = .run ∧
        rlEncodeForm s.cfg p = .ok (t.rl.enc.dp.out ++
          (match t.rl.enc.dp.run with
            | .none => []
            | .opened v n => closeRun s.cfg v n)))

/-- R44, R76: a valid encoded buffer stays the complete encoding of the payload, its encoder in phase `DONE`, under
every instruction and every step. That a unit-level `CLEAR` of the encoder ends the validity is the model's reading
(notes/assumptions/7.md). -/
def Obligations.BuffersStayCoherent : Prop :=
  Coherent State.reset ∧
  (∀ (i : Instr) (s t : State), Coherent s → exec i s = .next t → Coherent t) ∧
  (∀ s t : State, Coherent s → step s = .next t → Coherent t)

/-- R25, R48, R250: no step changes the parameters, the reset input included. R25 says it of `SENTINEL`; that the
other two stand in State and stay as well is R48 with the model's choice (notes/assumptions/1.md). -/
def Obligations.ParametersNeverChange : Prop :=
  ∀ s t : State, step s = .next t → t.cfg = s.cfg

/-- R45, R78: an instruction for one instance changes nothing of the other and does not depend on it, and
instructions for different instances commute. -/
def Obligations.InstancesDoNotInterfere : Prop :=
  (∀ (i : Instr) (s t : State), exec i s = .next t →
    (instrCodec i = .np → t.rl = s.rl) ∧ (instrCodec i = .rl → t.np = s.np) ∧
    t.cfg = s.cfg ∧ t.inbox = s.inbox) ∧
  (∀ (i : Instr) (s t : State) (other : Instance RleDp RldDp), instrCodec i = .np → exec i s = .next t →
    exec i { s with rl := other } = .next { t with rl := other }) ∧
  (∀ (i : Instr) (s t : State) (other : Instance NpeDp NpdDp), instrCodec i = .rl → exec i s = .next t →
    exec i { s with np := other } = .next { t with np := other }) ∧
  (∀ (i j : Instr) (s t : State), instrCodec i ≠ instrCodec j →
    (execAll [i, j] s = .next t ↔ execAll [j, i] s = .next t))

/-- R61: over all instructions, only `NEW` of the instance writes its payload. -/
def Obligations.PayloadIsImmutableAfterNew : Prop :=
  ∀ (i : Instr) (s t : State), exec i s = .next t →
    ((∀ p, i ≠ .cmdNew .np p) → t.np.payload = s.np.payload ∧ t.np.constructed = s.np.constructed) ∧
    ((∀ p, i ≠ .cmdNew .rl p) → t.rl.payload = s.rl.payload ∧ t.rl.constructed = s.rl.constructed)

/-- R26, with the codes of R21 and R22: `PHASE` in bits 1:0, `FAULT` in bits 3:2, bits 7:4 read as 0. -/
def Obligations.StatusWordLayout : Prop :=
  ∀ c : Ctl,
    (statusWord c).toNat =
      (match c.phase with
        | .run => 0
        | .done => 1
        | .faulted => 2) +
      4 * (match c.fault with
        | .none => 0
        | .invalidInput => 1
        | .malformedStream => 2
        | .unsupportedRunLength => 3)

/-- R115: a second pass of `SV` over the same payload changes nothing the first one left. -/
def Obligations.ValidationIsIdempotent : Prop :=
  ∀ (s : State) (c : Codec) (p : List Byte),
    ∃ t, execAll (svEvents c p) s = .next t ∧ execAll (svEvents c p) t = .next t

/-- R212, for three families of programs, from every state with no unit `FAULTED` and no pass open. The nibble-pack
round trip of a payload free of the sentinel ends well. `ENCODE` of an unconstructed instance is refused: that changes
no state (R205), is remembered, and is no good end. A run-length pass of at least one byte, with no run above 9 and
without `END`, refuses and faults nothing, has not ended, and so is no good end either (which units have an open pass,
and what `GoodEnd` counts: notes/assumptions/17.md). -/
def Obligations.RoundTripEndsWellRefusalAndOpenPassDoNot : Prop :=
  ∀ s : State, NoUnitFaulted s → NoPassOpen s →
    (∀ x : List Byte, s.cfg.sentinel ∉ x →
      GoodEnd (runProgram { s with inbox :=
        [.send (.command 0b000 (.bytes x)), .send (.command 0b010 .none), .send (.command 0b110 .none)] })) ∧
    (s.rl.constructed = false →
      let e := runProgram { s with inbox := [.send (.command 0b011 .none)] }
      e = { final := { s with inbox := [] }, refusals := [.notConstructed .rl], fault := none } ∧
        GoodFinal e.final ∧ ¬ GoodEnd e) ∧
    (∀ bs : List Byte, bs ≠ [] → (∀ r ∈ rlRuns bs, r.2 ≤ 9) →
      let e := runProgram { s with inbox :=
        [.send (.event .rle 0x300)] ++ bs.map (fun b => .send (.event .rle (0b01#2 ++ b))) }
      e.fault = none ∧ e.refusals = [] ∧ NoUnitFaulted e.final ∧ ¬ GoodEnd e)

/-- R44, R63, R76, R254, R256: from every state, after a unit-level `CLEAR` of an encoder and any bytes, with or
without `END`, its accumulator is no result of the instance and `DECODE_OWN` is refused; after a unit-level `CLEAR` of
a decoder and any symbols its accumulator is no result of the instance. That the `CLEAR` ends the flag's validity is
DEDUCED (notes/assumptions/7.md), and so is that the instance gives a value only under its flag
(notes/assumptions/14.md): after `END` the unit is `DONE`, and its accumulator is then the result of the unit's own
pass (R63, R211). -/
def Obligations.ClearedBuffersAreNoResultsOfTheInstance : Prop :=
  ∀ (s : State) (p : List Byte) (st : List Bit),
    (∃ t, execAll (.npeClear :: p.map .npeByte) s = .next t ∧
      npEncodeResult t.np = none ∧ exec (.cmdDecodeOwn .np) t = .refused (.noEncodedStream .np)) ∧
    (∃ t, execAll (encEvents .np p) s = .next t ∧
      npEncodeResult t.np = none ∧ exec (.cmdDecodeOwn .np) t = .refused (.noEncodedStream .np)) ∧
    (∃ t, execAll (.rleClear :: p.map .rleByte) s = .next t ∧
      (∀ e, rlEncodeResult t.rl ≠ some (.ok e)) ∧ exec (.cmdDecodeOwn .rl) t = .refused (.noEncodedStream .rl)) ∧
    (∃ t, execAll (encEvents .rl p) s = .next t ∧
      (∀ e, rlEncodeResult t.rl ≠ some (.ok e)) ∧ exec (.cmdDecodeOwn .rl) t = .refused (.noEncodedStream .rl)) ∧
    (∃ t, execAll (.npdClear :: st.map .npdBit) s = .next t ∧ ∀ v, npDecodeResult t.np ≠ some (.ok v)) ∧
    (∃ t, execAll (.rldClear :: p.map .rldByte) s = .next t ∧ ∀ v, rlDecodeResult t.rl ≠ some (.ok v))
end

