-- ==== Sys2Proof/Laws/State.lean ====
section
/-! SUPPORT. What each update of State does to each field. -/

namespace Sys2Proof.Machine

@[simp] theorem onSv_cfg (i : Codec) (f : StreamUnit Unit → StreamUnit Unit) (s : State) :
    (onSv i f s).cfg = s.cfg := by cases i <;> rfl

@[simp] theorem onSv_inbox (i : Codec) (f : StreamUnit Unit → StreamUnit Unit) (s : State) :
    (onSv i f s).inbox = s.inbox := by cases i <;> rfl

@[simp] theorem onSv_np_np (f : StreamUnit Unit → StreamUnit Unit) (s : State) :
    (onSv .np f s).np = { s.np with sv := f s.np.sv } := rfl

@[simp] theorem onSv_np_rl (f : StreamUnit Unit → StreamUnit Unit) (s : State) :
    (onSv .np f s).rl = s.rl := rfl

@[simp] theorem onSv_rl_np (f : StreamUnit Unit → StreamUnit Unit) (s : State) :
    (onSv .rl f s).np = s.np := rfl

@[simp] theorem onSv_rl_rl (f : StreamUnit Unit → StreamUnit Unit) (s : State) :
    (onSv .rl f s).rl = { s.rl with sv := f s.rl.sv } := rfl

@[simp] theorem onNpe_cfg (f : StreamUnit NpeDp → StreamUnit NpeDp) (s : State) : (onNpe f s).cfg = s.cfg := rfl

@[simp] theorem onNpe_np (f : StreamUnit NpeDp → StreamUnit NpeDp) (s : State) :
    (onNpe f s).np = { s.np with enc := f s.np.enc } := rfl

@[simp] theorem onNpe_rl (f : StreamUnit NpeDp → StreamUnit NpeDp) (s : State) : (onNpe f s).rl = s.rl := rfl

@[simp] theorem onNpe_inbox (f : StreamUnit NpeDp → StreamUnit NpeDp) (s : State) :
    (onNpe f s).inbox = s.inbox := rfl

@[simp] theorem onNpd_cfg (f : StreamUnit NpdDp → StreamUnit NpdDp) (s : State) : (onNpd f s).cfg = s.cfg := rfl

@[simp] theorem onNpd_np (f : StreamUnit NpdDp → StreamUnit NpdDp) (s : State) :
    (onNpd f s).np = { s.np with dec := f s.np.dec } := rfl

@[simp] theorem onNpd_rl (f : StreamUnit NpdDp → StreamUnit NpdDp) (s : State) : (onNpd f s).rl = s.rl := rfl

@[simp] theorem onNpd_inbox (f : StreamUnit NpdDp → StreamUnit NpdDp) (s : State) :
    (onNpd f s).inbox = s.inbox := rfl

@[simp] theorem onRle_cfg (f : StreamUnit RleDp → StreamUnit RleDp) (s : State) : (onRle f s).cfg = s.cfg := rfl

@[simp] theorem onRle_np (f : StreamUnit RleDp → StreamUnit RleDp) (s : State) : (onRle f s).np = s.np := rfl

@[simp] theorem onRle_rl (f : StreamUnit RleDp → StreamUnit RleDp) (s : State) :
    (onRle f s).rl = { s.rl with enc := f s.rl.enc } := rfl

@[simp] theorem onRle_inbox (f : StreamUnit RleDp → StreamUnit RleDp) (s : State) :
    (onRle f s).inbox = s.inbox := rfl

@[simp] theorem onRld_cfg (f : StreamUnit RldDp → StreamUnit RldDp) (s : State) : (onRld f s).cfg = s.cfg := rfl

@[simp] theorem onRld_np (f : StreamUnit RldDp → StreamUnit RldDp) (s : State) : (onRld f s).np = s.np := rfl

@[simp] theorem onRld_rl (f : StreamUnit RldDp → StreamUnit RldDp) (s : State) :
    (onRld f s).rl = { s.rl with dec := f s.rl.dec } := rfl

@[simp] theorem onRld_inbox (f : StreamUnit RldDp → StreamUnit RldDp) (s : State) :
    (onRld f s).inbox = s.inbox := rfl

@[simp] theorem dropEncoded_cfg (i : Codec) (s : State) : (dropEncoded i s).cfg = s.cfg := by cases i <;> rfl

@[simp] theorem dropEncoded_inbox (i : Codec) (s : State) : (dropEncoded i s).inbox = s.inbox := by cases i <;> rfl

@[simp] theorem dropEncoded_np_np (s : State) : (dropEncoded .np s).np = { s.np with encValid := false } := rfl

@[simp] theorem dropEncoded_np_rl (s : State) : (dropEncoded .np s).rl = s.rl := rfl

@[simp] theorem dropEncoded_rl_np (s : State) : (dropEncoded .rl s).np = s.np := rfl

@[simp] theorem dropEncoded_rl_rl (s : State) : (dropEncoded .rl s).rl = { s.rl with encValid := false } := rfl

@[simp] theorem dropDecoded_cfg (i : Codec) (s : State) : (dropDecoded i s).cfg = s.cfg := by cases i <;> rfl

@[simp] theorem dropDecoded_inbox (i : Codec) (s : State) : (dropDecoded i s).inbox = s.inbox := by cases i <;> rfl

@[simp] theorem dropDecoded_np_np (s : State) : (dropDecoded .np s).np = { s.np with decValid := false } := rfl

@[simp] theorem dropDecoded_np_rl (s : State) : (dropDecoded .np s).rl = s.rl := rfl

@[simp] theorem dropDecoded_rl_np (s : State) : (dropDecoded .rl s).np = s.np := rfl

@[simp] theorem dropDecoded_rl_rl (s : State) : (dropDecoded .rl s).rl = { s.rl with decValid := false } := rfl

@[simp] theorem assertReset_cfg (s : State) : (assertReset s).cfg = s.cfg := rfl

@[simp] theorem assertReset_np (s : State) : (assertReset s).np = Instance.reset NpeDp.reset NpdDp.reset := rfl

@[simp] theorem assertReset_rl (s : State) : (assertReset s).rl = Instance.reset RleDp.reset RldDp.reset := rfl

@[simp] theorem assertReset_inbox (s : State) : (assertReset s).inbox = s.inbox := rfl

@[simp] theorem advance_phase (c : Ctl) : (advance c).phase = c.phase := rfl

@[simp] theorem advance_fault (c : Ctl) : (advance c).fault = c.fault := rfl

@[simp] theorem advance_faultPos (c : Ctl) : (advance c).faultPos = c.faultPos := rfl

@[simp] theorem advance_inPos (c : Ctl) : (advance c).inPos = c.inPos + 1 := rfl

@[simp] theorem finish_phase (c : Ctl) : (finish c).phase = .done := rfl

@[simp] theorem finish_fault (c : Ctl) : (finish c).fault = c.fault := rfl

@[simp] theorem finish_faultPos (c : Ctl) : (finish c).faultPos = c.faultPos := rfl

@[simp] theorem finish_inPos (c : Ctl) : (finish c).inPos = c.inPos := rfl

@[simp] theorem raiseFault_phase (f : FaultCode) (c : Ctl) : (raiseFault f c).phase = .faulted := rfl

@[simp] theorem raiseFault_fault (f : FaultCode) (c : Ctl) : (raiseFault f c).fault = f := rfl

@[simp] theorem raiseFault_faultPos (f : FaultCode) (c : Ctl) : (raiseFault f c).faultPos = c.inPos := rfl

@[simp] theorem raiseFault_inPos (f : FaultCode) (c : Ctl) : (raiseFault f c).inPos = c.inPos := rfl

@[simp] theorem clearCtl_eq (c : Ctl) : clearCtl c = Ctl.reset := rfl

end Sys2Proof.Machine
end

