-- ==== Sys2Proof/Laws/Ops.lean ====
section
/-! SUPPORT. Everything each shared operation can do, said once. -/

namespace Sys2Proof.Machine

variable {α δ : Type}

/-! ### Events -/

theorem symbolEvent_ok {act : δ → Except FaultCode δ} {u : StreamUnit δ} {d : δ}
    (h : u.ctl.phase = .run) (ha : act u.dp = .ok d) :
    symbolEvent act u = { ctl := advance u.ctl, dp := d } := by
  simp only [symbolEvent, h, ha]

theorem symbolEvent_error {act : δ → Except FaultCode δ} {u : StreamUnit δ} {f : FaultCode}
    (h : u.ctl.phase = .run) (ha : act u.dp = .error f) :
    symbolEvent act u = { u with ctl := raiseFault f u.ctl } := by
  simp only [symbolEvent, h, ha]

theorem symbolEvent_ignored {act : δ → Except FaultCode δ} {u : StreamUnit δ}
    (h : u.ctl.phase ≠ .run) : symbolEvent act u = u := by
  unfold symbolEvent
  split <;> simp_all

theorem endEvent_ok {act : δ → Except FaultCode δ} {u : StreamUnit δ} {d : δ}
    (h : u.ctl.phase = .run) (ha : act u.dp = .ok d) :
    endEvent act u = { ctl := finish u.ctl, dp := d } := by
  simp only [endEvent, h, ha]

theorem endEvent_error {act : δ → Except FaultCode δ} {u : StreamUnit δ} {f : FaultCode}
    (h : u.ctl.phase = .run) (ha : act u.dp = .error f) :
    endEvent act u = { u with ctl := raiseFault f u.ctl } := by
  simp only [endEvent, h, ha]

theorem endEvent_ignored {act : δ → Except FaultCode δ} {u : StreamUnit δ}
    (h : u.ctl.phase ≠ .run) : endEvent act u = u := by
  unfold endEvent
  split <;> simp_all

/-- A symbol event is ignored, raises a fault that writes only the common registers, or acts and advances. -/
theorem symbolEvent_cases (act : δ → Except FaultCode δ) (u : StreamUnit δ) :
    (u.ctl.phase ≠ .run ∧ symbolEvent act u = u) ∨
    (u.ctl.phase = .run ∧ ∃ f, act u.dp = .error f ∧ symbolEvent act u = { u with ctl := raiseFault f u.ctl }) ∨
    (u.ctl.phase = .run ∧ ∃ d, act u.dp = .ok d ∧ symbolEvent act u = { ctl := advance u.ctl, dp := d }) := by
  by_cases h : u.ctl.phase = .run
  · cases ha : act u.dp with
    | error f => exact .inr (.inl ⟨h, f, rfl, symbolEvent_error h ha⟩)
    | ok d => exact .inr (.inr ⟨h, d, rfl, symbolEvent_ok h ha⟩)
  · exact .inl ⟨h, symbolEvent_ignored h⟩

/-- `END` is ignored, raises a fault that writes only the common registers, or acts and finishes the pass. -/
theorem endEvent_cases (act : δ → Except FaultCode δ) (u : StreamUnit δ) :
    (u.ctl.phase ≠ .run ∧ endEvent act u = u) ∨
    (u.ctl.phase = .run ∧ ∃ f, act u.dp = .error f ∧ endEvent act u = { u with ctl := raiseFault f u.ctl }) ∨
    (u.ctl.phase = .run ∧ ∃ d, act u.dp = .ok d ∧ endEvent act u = { ctl := finish u.ctl, dp := d }) := by
  by_cases h : u.ctl.phase = .run
  · cases ha : act u.dp with
    | error f => exact .inr (.inl ⟨h, f, rfl, endEvent_error h ha⟩)
    | ok d => exact .inr (.inr ⟨h, d, rfl, endEvent_ok h ha⟩)
  · exact .inl ⟨h, endEvent_ignored h⟩

@[simp] theorem nopEvent_eq (u : StreamUnit δ) : nopEvent u = u := rfl

@[simp] theorem clearEvent_eq (init : δ) (u : StreamUnit δ) :
    clearEvent init u = { ctl := Ctl.reset, dp := init } := rfl

@[simp] theorem emit_eq (acc s : List α) : emit acc s = acc ++ s := rfl

/-! ### Passes -/

section Passes

variable {υ : Type} (f : α → υ → υ)

@[simp] theorem feed_nil (u : υ) : feed f [] u = u := rfl

@[simp] theorem feed_cons (x : α) (xs : List α) (u : υ) : feed f (x :: xs) u = feed f xs (f x u) := rfl

theorem feed_append (xs ys : List α) (u : υ) : feed f (xs ++ ys) u = feed f ys (feed f xs u) := by
  simp [feed]

/-- What every symbol keeps, a sequence of symbols keeps. -/
theorem feed_keeps {P : υ → Prop} (hf : ∀ x u, P u → P (f x u)) (xs : List α) (u : υ) (h : P u) :
    P (feed f xs u) := by
  induction xs generalizing u with
  | nil => exact h
  | cons x xs ih => exact ih _ (hf x u h)

end Passes

/-- Symbols sent to a unit that is not in phase `RUN` leave it as it is. -/
theorem feed_symbolEvent_ignored (act : α → δ → Except FaultCode δ) (xs : List α) {u : StreamUnit δ}
    (h : u.ctl.phase ≠ .run) : feed (fun x => symbolEvent (act x)) xs u = u := by
  induction xs with
  | nil => rfl
  | cons x xs ih => rw [feed_cons, symbolEvent_ignored h, ih]

/-! ### The common registers' invariant -/

theorem CtlInv_reset (a : FaultCode) : CtlInv a Ctl.reset := by simp [CtlInv, Ctl.reset]

/-- A symbol event keeps the common registers' invariant when the faults it can raise are the allowed one. -/
theorem symbolEvent_keeps_CtlInv {a : FaultCode} {act : δ → Except FaultCode δ} {u : StreamUnit δ}
    (ha : ∀ f, act u.dp = .error f → f = a ∧ a ≠ .none) (h : CtlInv a u.ctl) :
    CtlInv a (symbolEvent act u).ctl := by
  obtain ⟨-, he⟩ | ⟨hr, f, hf, he⟩ | ⟨hr, d, -, he⟩ := symbolEvent_cases act u
  · rwa [he]
  · obtain ⟨rfl, hn⟩ := ha f hf
    simp [he, CtlInv, hn]
  · rw [he]
    simpa [CtlInv, hr] using h

/-- `END` keeps the common registers' invariant when the faults it can raise are the allowed one. -/
theorem endEvent_keeps_CtlInv {a : FaultCode} {act : δ → Except FaultCode δ} {u : StreamUnit δ}
    (ha : ∀ f, act u.dp = .error f → f = a ∧ a ≠ .none) (h : CtlInv a u.ctl) :
    CtlInv a (endEvent act u).ctl := by
  obtain ⟨-, he⟩ | ⟨hr, f, hf, he⟩ | ⟨hr, d, -, he⟩ := endEvent_cases act u
  · rwa [he]
  · obtain ⟨rfl, hn⟩ := ha f hf
    simp [he, CtlInv, hn]
  · rw [he]
    simpa [CtlInv, hr] using h

end Sys2Proof.Machine
end

