-- ==== Sys2Proof/Laws/Units.lean ====
section
/-! SUPPORT. What the events of each unit do: the invariants they keep (10_state.md R46) and the few facts about
nibbles and fields that their specifications rest on. -/

namespace Sys2Proof.Machine

/-! ### Nibbles -/

@[simp] theorem hi4_joinNibbles (h l : Nibble) : hi4 (joinNibbles h l) = h := by
  revert h l; decide

@[simp] theorem lo4_joinNibbles (h l : Nibble) : lo4 (joinNibbles h l) = l := by
  revert h l; decide

@[simp] theorem joinNibbles_hi4_lo4 (b : Byte) : joinNibbles (hi4 b) (lo4 b) = b := by
  revert b; decide

@[simp] theorem bitsMsb_length {n : Nat} (v : BitVec n) : (bitsMsb v).length = n := by
  simp [bitsMsb]

/-! ### `SV` -/

theorem svByte_keeps_SvInv (cfg : Config) (b : Byte) {u : StreamUnit Unit} (h : SvInv u) :
    SvInv (svByte cfg b u) := by
  refine symbolEvent_keeps_CtlInv (fun f hf => ?_) h
  unfold svByteAct at hf
  split at hf <;> cases hf
  simp

theorem svEnd_keeps_SvInv {u : StreamUnit Unit} (h : SvInv u) : SvInv (svEnd u) :=
  endEvent_keeps_CtlInv (fun _ hf => nomatch hf) h

theorem svClear_SvInv (u : StreamUnit Unit) : SvInv (svClear u) := CtlInv_reset _

theorem svPass_SvInv (cfg : Config) (p : List Byte) (u : StreamUnit Unit) : SvInv (svPass cfg p u) :=
  svEnd_keeps_SvInv (feed_keeps _ (fun b _ => svByte_keeps_SvInv cfg b) p _ (svClear_SvInv u))

/-! ### `NPE` -/

theorem BlockInv_nil : BlockInv [] := by simp [BlockInv, npMaxBlock]

theorem BlockInv_single (b : Byte) : BlockInv [b] := by simp [BlockInv, npMaxBlock]

theorem npeByteAct_keeps_BlockInv {cfg : Config} {b : Byte} {d d' : NpeDp}
    (h : BlockInv d.blk) (hd : npeByteAct cfg b d = .ok d') : BlockInv d'.blk := by
  unfold npeByteAct at hd
  split at hd
  · cases hd; exact BlockInv_single b
  · rename_i b₀ bs hb
    split at hd
    · cases hd; exact BlockInv_single b
    · rename_i hn
      cases hd
      obtain ⟨hl, hh⟩ := h
      rw [hb] at hl hh
      push Not at hn
      refine ⟨?_, ?_⟩
      · have := hn.2
        simp only [List.length_append, List.length_cons, List.length_nil] at *
        omega
      · intro x hx
        rcases List.mem_append.mp hx with hx | hx
        · simpa using hh x hx
        · simp only [List.mem_singleton] at hx
          subst hx
          simpa using hn.1

theorem npeByte_keeps_NpeInv (cfg : Config) (b : Byte) {u : StreamUnit NpeDp} (h : NpeInv u) :
    NpeInv (npeByte cfg b u) := by
  obtain ⟨hc, hb, hd⟩ := h
  have hne : ∀ f, npeByteAct cfg b u.dp ≠ .error f := by
    intro f hf
    unfold npeByteAct at hf
    split at hf <;> first | cases hf | (split at hf <;> cases hf)
  refine ⟨symbolEvent_keeps_CtlInv (fun f hf => absurd hf (hne f)) hc, ?_⟩
  obtain ⟨-, he⟩ | ⟨-, f, hf, -⟩ | ⟨hr, d, ha, he⟩ := symbolEvent_cases (npeByteAct cfg b) u
  · rw [npeByte, he]; exact ⟨hb, hd⟩
  · exact absurd hf (hne f)
  · rw [npeByte, he]
    exact ⟨npeByteAct_keeps_BlockInv hb ha, fun hp => by simp [hr] at hp⟩

theorem npeEnd_keeps_NpeInv (cfg : Config) {u : StreamUnit NpeDp} (h : NpeInv u) : NpeInv (npeEnd cfg u) := by
  obtain ⟨hc, hb, hd⟩ := h
  have hok : ∃ d, npeEndAct cfg u.dp = .ok d ∧ d.blk = [] := by
    unfold npeEndAct
    split
    · exact ⟨_, rfl, ‹_›⟩
    · exact ⟨_, rfl, rfl⟩
  obtain ⟨d, ha, hd'⟩ := hok
  refine ⟨endEvent_keeps_CtlInv (fun f hf => by simp [ha] at hf) hc, ?_⟩
  by_cases hr : u.ctl.phase = .run
  · rw [npeEnd, endEvent_ok hr ha]
    exact ⟨by rw [hd']; exact BlockInv_nil, fun _ => hd'⟩
  · rw [npeEnd, endEvent_ignored hr]; exact ⟨hb, hd⟩

theorem npeClear_NpeInv (u : StreamUnit NpeDp) : NpeInv (npeClear u) :=
  ⟨CtlInv_reset _, BlockInv_nil, fun _ => rfl⟩

theorem npePass_NpeInv (cfg : Config) (p : List Byte) (u : StreamUnit NpeDp) : NpeInv (npePass cfg p u) :=
  npeEnd_keeps_NpeInv cfg (feed_keeps _ (fun b _ => npeByte_keeps_NpeInv cfg b) p _ (npeClear_NpeInv u))

/-! ### `RLE` -/

theorem rleByteAct_keeps_RunInv {cfg : Config} {b : Byte} {d d' : RleDp}
    (h : RunInv d.run) (hd : rleByteAct cfg b d = .ok d') : RunInv d'.run := by
  unfold rleByteAct at hd
  split at hd
  · cases hd; simp [RunInv, runLen, rlMaxRun]
  · rename_i v n hr
    split at hd
    · split at hd
      · cases hd
      · rename_i hn
        cases hd
        rw [hr] at h
        simp only [RunInv, runLen, rlMaxRun, reduceCtorEq, false_or] at h hn ⊢
        have : (n + 1).toNat = n.toNat + 1 := by rw [BitVec.toNat_add]; simp; omega
        omega
    · cases hd; simp [RunInv, runLen, rlMaxRun]

theorem rleByte_keeps_RleInv (cfg : Config) (b : Byte) {u : StreamUnit RleDp} (h : RleInv u) :
    RleInv (rleByte cfg b u) := by
  obtain ⟨hc, hb, hd⟩ := h
  have hf : ∀ f, rleByteAct cfg b u.dp = .error f → f = .unsupportedRunLength ∧ FaultCode.unsupportedRunLength ≠ .none := by
    intro f hf
    unfold rleByteAct at hf
    split at hf
    · cases hf
    · split at hf
      · split at hf <;> cases hf
        simp
      · cases hf
  refine ⟨symbolEvent_keeps_CtlInv hf hc, ?_⟩
  obtain ⟨-, he⟩ | ⟨-, f, -, he⟩ | ⟨hr, d, ha, he⟩ := symbolEvent_cases (rleByteAct cfg b) u
  · rw [rleByte, he]; exact ⟨hb, hd⟩
  · rw [rleByte, he]; exact ⟨hb, fun hp => by simp at hp⟩
  · rw [rleByte, he]
    exact ⟨rleByteAct_keeps_RunInv hb ha, fun hp => by simp [hr] at hp⟩

theorem rleEnd_keeps_RleInv (cfg : Config) {u : StreamUnit RleDp} (h : RleInv u) : RleInv (rleEnd cfg u) := by
  obtain ⟨hc, hb, hd⟩ := h
  have hok : ∃ d, rleEndAct cfg u.dp = .ok d ∧ d.run = .none := by
    unfold rleEndAct
    split
    · exact ⟨_, rfl, ‹_›⟩
    · exact ⟨_, rfl, rfl⟩
  obtain ⟨d, ha, hd'⟩ := hok
  refine ⟨endEvent_keeps_CtlInv (fun f hf => by simp [ha] at hf) hc, ?_⟩
  by_cases hr : u.ctl.phase = .run
  · rw [rleEnd, endEvent_ok hr ha]
    exact ⟨.inl hd', fun _ => hd'⟩
  · rw [rleEnd, endEvent_ignored hr]; exact ⟨hb, hd⟩

theorem rleClear_RleInv (u : StreamUnit RleDp) : RleInv (rleClear u) :=
  ⟨CtlInv_reset _, .inl rfl, fun _ => rfl⟩

theorem rlePass_RleInv (cfg : Config) (p : List Byte) (u : StreamUnit RleDp) : RleInv (rlePass cfg p u) :=
  rleEnd_keeps_RleInv cfg (feed_keeps _ (fun b _ => rleByte_keeps_RleInv cfg b) p _ (rleClear_RleInv u))

/-! ### `RLD` -/

theorem rldByte_keeps_RldInv (cfg : Config) (b : Byte) {u : StreamUnit RldDp} (h : RldInv u) :
    RldInv (rldByte cfg b u) := by
  obtain ⟨hc, hd⟩ := h
  have hf : ∀ f, rldByteAct cfg b u.dp = .error f → f = .malformedStream ∧ FaultCode.malformedStream ≠ .none := by
    intro f hf
    unfold rldByteAct at hf
    split at hf
    · split at hf <;> cases hf
    · cases hf
    · split at hf <;> cases hf
      simp
  refine ⟨symbolEvent_keeps_CtlInv hf hc, ?_⟩
  obtain ⟨-, he⟩ | ⟨-, f, -, he⟩ | ⟨hr, d, -, he⟩ := symbolEvent_cases (rldByteAct cfg b) u
  · rw [rldByte, he]; exact hd
  · rw [rldByte, he]; exact fun hp => by simp at hp
  · rw [rldByte, he]; exact fun hp => by simp [hr] at hp

theorem rldEnd_keeps_RldInv {u : StreamUnit RldDp} (h : RldInv u) : RldInv (rldEnd u) := by
  obtain ⟨hc, hd⟩ := h
  have hf : ∀ f, rldEndAct u.dp = .error f → f = .malformedStream ∧ FaultCode.malformedStream ≠ .none := by
    intro f hf
    unfold rldEndAct at hf
    split at hf <;> cases hf
    simp
  refine ⟨endEvent_keeps_CtlInv hf hc, ?_⟩
  obtain ⟨-, he⟩ | ⟨-, f, -, he⟩ | ⟨-, d, ha, he⟩ := endEvent_cases rldEndAct u
  · rw [rldEnd, he]; exact hd
  · rw [rldEnd, he]; exact fun hp => by simp at hp
  · rw [rldEnd, he]
    unfold rldEndAct at ha
    split at ha
    · cases ha; exact fun _ => ‹_›
    · cases ha

theorem rldClear_RldInv (u : StreamUnit RldDp) : RldInv (rldClear u) := ⟨CtlInv_reset _, fun _ => rfl⟩

theorem rldPass_RldInv (cfg : Config) (s : List Byte) (u : StreamUnit RldDp) : RldInv (rldPass cfg s u) :=
  rldEnd_keeps_RldInv (feed_keeps _ (fun b _ => rldByte_keeps_RldInv cfg b) s _ (rldClear_RldInv u))

/-! ### `NPD` -/

/-- The datapath part of `NPD`'s invariant. -/
abbrev NpdDpInv (d : NpdDp) : Prop :=
  d.nbits.toNat < fieldWidth d.mode ∧ d.shreg.toNat < 2 ^ d.nbits.toNat ∧
  (npdModeCode d.mode = 3 ↔ d.grpRem ≠ 0)

theorem npdBitAct_fault {cfg : Config} {v : Bit} {d : NpdDp} {f : FaultCode}
    (h : npdBitAct cfg v d = .error f) : f = .malformedStream := by
  unfold npdBitAct fieldDone litFieldDone hiFieldDone cntFieldDone loFieldDone at h
  repeat' split at h
  all_goals first | cases h; done | (cases h; rfl)

theorem fieldWidth_le (m : NpdMode) : 4 ≤ fieldWidth m ∧ fieldWidth m ≤ 8 := by
  cases m <;> simp [fieldWidth]

theorem fieldDone_keeps_NpdDpInv {cfg : Config} {f : Byte} {d d' : NpdDp} (hn : d.nbits = 0) (hs : d.shreg = 0)
    (hg : npdModeCode d.mode = 3 ↔ d.grpRem ≠ 0) (h : fieldDone cfg f d = .ok d') : NpdDpInv d' := by
  unfold fieldDone litFieldDone hiFieldDone cntFieldDone loFieldDone at h
  split at h <;> rename_i hm <;> rw [hm] at hg
  · split at h <;> cases h <;> simp_all [NpdDpInv, fieldWidth, npdModeCode]
  · cases h; simp_all [NpdDpInv, fieldWidth, npdModeCode]
  · split at h
    · cases h
    · split at h <;> cases h <;> simp_all [NpdDpInv, fieldWidth, npdModeCode]
  · split at h <;> cases h
    · simp_all [NpdDpInv, fieldWidth, npdModeCode]
    · refine ⟨by simp [hn, hm, fieldWidth], by simp [hs, hn], ?_⟩
      simp only [hm, npdModeCode]
      rename_i h1
      simp only [true_iff, ne_eq]
      intro h0
      exact h1 (by
        have := congrArg (· + 1) h0
        simpa using this)

theorem npdBitAct_keeps_NpdDpInv {cfg : Config} {v : Bit} {d d' : NpdDp} (h : NpdDpInv d)
    (hd : npdBitAct cfg v d = .ok d') : NpdDpInv d' := by
  obtain ⟨hn, hs, hg⟩ := h
  unfold npdBitAct at hd
  split at hd
  · rename_i hk
    cases hd
    have hw := fieldWidth_le d.mode
    have hk8 : d.nbits.toNat + 1 < 8 := by omega
    have hb : (BitVec.ofNat 3 (d.nbits.toNat + 1)).toNat = d.nbits.toNat + 1 := by
      rw [BitVec.toNat_ofNat]; omega
    refine ⟨by rw [hb]; exact hk, ?_, hg⟩
    simp only [hb, shiftIn, BitVec.toNat_ofNat, pow_succ]
    have hv := Bool.toNat_le v
    exact lt_of_le_of_lt (Nat.mod_le _ _) (by omega)
  · exact fieldDone_keeps_NpdDpInv (d := { d with shreg := 0, nbits := 0 }) rfl rfl hg hd

theorem npdBit_keeps_NpdInv (cfg : Config) (v : Bit) {u : StreamUnit NpdDp} (h : NpdInv u) :
    NpdInv (npdBit cfg v u) := by
  obtain ⟨hc, hn, hs, hg, hd⟩ := h
  refine ⟨symbolEvent_keeps_CtlInv (fun f hf => ⟨npdBitAct_fault hf, by decide⟩) hc, ?_⟩
  obtain ⟨-, he⟩ | ⟨-, f, -, he⟩ | ⟨hr, d, ha, he⟩ := symbolEvent_cases (npdBitAct cfg v) u
  · rw [npdBit, he]; exact ⟨hn, hs, hg, hd⟩
  · rw [npdBit, he]; exact ⟨hn, hs, hg, fun hp => by simp at hp⟩
  · rw [npdBit, he]
    obtain ⟨h1, h2, h3⟩ := npdBitAct_keeps_NpdDpInv ⟨hn, hs, hg⟩ ha
    exact ⟨h1, h2, h3, fun hp => by simp [hr] at hp⟩

theorem npdEnd_keeps_NpdInv {u : StreamUnit NpdDp} (h : NpdInv u) : NpdInv (npdEnd u) := by
  obtain ⟨hc, hn, hs, hg, hd⟩ := h
  have hf : ∀ f, npdEndAct u.dp = .error f → f = .malformedStream ∧ FaultCode.malformedStream ≠ .none := by
    intro f hf
    unfold npdEndAct at hf
    split at hf <;> cases hf
    simp
  refine ⟨endEvent_keeps_CtlInv hf hc, ?_⟩
  obtain ⟨-, he⟩ | ⟨-, f, -, he⟩ | ⟨-, d, ha, he⟩ := endEvent_cases npdEndAct u
  · rw [npdEnd, he]; exact ⟨hn, hs, hg, hd⟩
  · rw [npdEnd, he]; exact ⟨hn, hs, hg, fun hp => by simp at hp⟩
  · rw [npdEnd, he]
    unfold npdEndAct at ha
    split at ha
    · cases ha; exact ⟨hn, hs, hg, fun _ => ‹_›⟩
    · cases ha

theorem npdClear_NpdInv (u : StreamUnit NpdDp) : NpdInv (npdClear u) := by
  refine ⟨CtlInv_reset _, ?_⟩
  simp [npdClear, NpdDp.reset, fieldWidth, npdModeCode]

theorem npdPass_NpdInv (cfg : Config) (s : List Bit) (u : StreamUnit NpdDp) : NpdInv (npdPass cfg s u) :=
  npdEnd_keeps_NpdInv (feed_keeps _ (fun v _ => npdBit_keeps_NpdInv cfg v) s _ (npdClear_NpdInv u))

end Sys2Proof.Machine
end

