-- ==== Sys2Proof/Laws/Instances.lean ====
section
/-! SUPPORT. What the operations do to an instance's invariant, what a result can be, and how a program's inputs are
taken. -/

namespace Sys2Proof.Machine

variable {ε δ α : Type} {cfg : Config} {I : Instance ε δ}

/-! ### The instance's invariant -/

/-- An encoder that is cleared, with its flag, keeps the invariant. -/
theorem InstanceInv_dropEncoded (h : InstanceInv cfg I) (e : StreamUnit ε) :
    InstanceInv cfg { I with enc := e, encValid := false } :=
  ⟨h.1, fun hc => ⟨(h.2.1 hc).1, rfl⟩, fun hv => by simp at hv, h.2.2.2⟩

/-- A decoder that is cleared, with its flag, keeps the invariant. -/
theorem InstanceInv_dropDecoded (h : InstanceInv cfg I) (d : StreamUnit δ) :
    InstanceInv cfg { I with dec := d, decValid := false } :=
  ⟨h.1, h.2.1, h.2.2.1, fun hv => by simp at hv⟩

/-- An event that an encoder in phase `DONE` ignores keeps the invariant. -/
theorem InstanceInv_encEvent (h : InstanceInv cfg I) {f : StreamUnit ε → StreamUnit ε}
    (hf : ∀ u, u.ctl.phase ≠ .run → f u = u) : InstanceInv cfg { I with enc := f I.enc } :=
  ⟨h.1, h.2.1, fun hv => by have hd := h.2.2.1 hv; simp [hf I.enc (by simp [hd]), hd], h.2.2.2⟩

/-- An event that a decoder in phase `DONE` ignores keeps the invariant. -/
theorem InstanceInv_decEvent (h : InstanceInv cfg I) {f : StreamUnit δ → StreamUnit δ}
    (hf : ∀ u, u.ctl.phase ≠ .run → f u = u) : InstanceInv cfg { I with dec := f I.dec } :=
  ⟨h.1, h.2.1, h.2.2.1, fun hv => by have hd := h.2.2.2 hv; simp [hf I.dec (by simp [hd]), hd]⟩

/-- `ENCODE` keeps the invariant. -/
theorem encodeOp_keeps_InstanceInv (h : InstanceInv cfg I) (hc : I.constructed = true)
    (p : List Byte → StreamUnit ε → StreamUnit ε) : InstanceInv cfg (encodeOp p I) :=
  ⟨h.1, fun hn => by simp [encodeOp, hc] at hn, fun hv => by simpa [encodeOp] using hv, h.2.2.2⟩

/-- `DECODE` keeps the invariant. -/
theorem decodeOp_keeps_InstanceInv (h : InstanceInv cfg I) (p : List α → StreamUnit δ → StreamUnit δ)
    (s : List α) : InstanceInv cfg (decodeOp p s I) :=
  ⟨h.1, h.2.1, h.2.2.1, fun hv => by simpa [decodeOp] using hv⟩

/-! ### Results -/

/-- A value is a result only in phase `DONE` and under the instance's flag (20_memory.md R63). -/
theorem opResult_unitResult_ok {valid : Bool} {value : δ → α} {u : StreamUnit δ} {v : α} :
    opResult valid (unitResult value u) = some (.ok v) ↔
      valid = true ∧ u.ctl.phase = .done ∧ value u.dp = v := by
  cases valid <;> cases h : u.ctl.phase <;> simp [opResult, unitResult, h]

/-! ### Programs -/

theorem runInputs_next {x : HostInput} {xs : List HostInput} {s t : State}
    (h : step { s with inbox := x :: xs } = .next t) : runInputs (x :: xs) s = runInputs xs t := by
  simp [runInputs, h]

theorem runInputs_refused {x : HostInput} {xs : List HostInput} {s : State} {r : Refusal}
    (h : step { s with inbox := x :: xs } = .refused r) :
    runInputs (x :: xs) s =
      { runInputs xs { s with inbox := xs } with refusals := r :: (runInputs xs { s with inbox := xs }).refusals } := by
  simp [runInputs, h, withdraw]

/-- A program that nothing cut short has left nothing to take. -/
theorem runInputs_inbox (xs : List HostInput) (s : State) (h : (runInputs xs s).fault = none) :
    (runInputs xs s).final.inbox = [] := by
  induction xs generalizing s with
  | nil => rfl
  | cons x xs ih =>
    unfold runInputs at h ⊢
    split <;> simp_all

end Sys2Proof.Machine
end

