-- ==== Sys2Proof/Laws/PerInstr.lean ====
section
/-! SUPPORT. Facts about every instruction, one lemma for each constructor. -/

namespace Sys2Proof.Laws

/-- What the host sends for an instruction is sent to the instance the instruction acts on. -/
def SentToItsInstance.Statement (i : Instr) : Prop :=
  ∀ cfg : Config, Machine.requestCodec (encode cfg i) = Machine.instrCodec i

namespace SentToItsInstance

/-- The `i` field of a command word is the instance. -/
theorem commandWord_codec (c : Command) (i : Codec) (o : Operand) :
    Machine.requestCodec (.command (commandWord c i) o) = i := by
  cases c <;> cases i <;> rfl

theorem svNop (i : Codec) : Statement (.svNop i) := fun _ => rfl

theorem svByte (i : Codec) (b : Byte) : Statement (.svByte i b) := fun _ => rfl

theorem svEnd (i : Codec) : Statement (.svEnd i) := fun _ => rfl

theorem svClear (i : Codec) : Statement (.svClear i) := fun _ => rfl

theorem npeNop : Statement (.npeNop) := fun _ => rfl

theorem npeByte (b : Byte) : Statement (.npeByte b) := fun _ => rfl

theorem npeEnd : Statement (.npeEnd) := fun _ => rfl

theorem npeClear : Statement (.npeClear) := fun _ => rfl

theorem npdNop : Statement (.npdNop) := fun _ => rfl

theorem npdBit (v : Bit) : Statement (.npdBit v) := fun _ => rfl

theorem npdEnd : Statement (.npdEnd) := fun _ => rfl

theorem npdClear : Statement (.npdClear) := fun _ => rfl

theorem rleNop : Statement (.rleNop) := fun _ => rfl

theorem rleByte (b : Byte) : Statement (.rleByte b) := fun _ => rfl

theorem rleEnd : Statement (.rleEnd) := fun _ => rfl

theorem rleClear : Statement (.rleClear) := fun _ => rfl

theorem rldNop : Statement (.rldNop) := fun _ => rfl

theorem rldByte (b : Byte) : Statement (.rldByte b) := fun _ => rfl

theorem rldEnd : Statement (.rldEnd) := fun _ => rfl

theorem rldClear : Statement (.rldClear) := fun _ => rfl

theorem npLit (b : Byte) : Statement (.npLit b) := fun _ => rfl

theorem npGrp (hi n : Nibble) (lo : List Nibble) : Statement (.npGrp hi n lo) := fun _ => rfl

theorem rlLit (b : Byte) : Statement (.rlLit b) := fun _ => rfl

theorem rlMrk (val dig : Byte) : Statement (.rlMrk val dig) := fun _ => rfl

theorem cmdNew (i : Codec) (p : List Byte) : Statement (.cmdNew i p) := fun _ => commandWord_codec _ i _

theorem cmdEncode (i : Codec) : Statement (.cmdEncode i) := fun _ => commandWord_codec _ i _

theorem cmdDecode (st : Stream) : Statement (.cmdDecode st) := fun _ => commandWord_codec _ st.codec _

theorem cmdDecodeOwn (i : Codec) : Statement (.cmdDecodeOwn i) := fun _ => commandWord_codec _ i _

end SentToItsInstance

end Sys2Proof.Laws
end

