-- ==== Sys2Proof/Tests/Slice0.lean ====
section
/-! SUPPORT. Tests. Expected results are the spec's (95_test_vectors.md and the rules' own examples, by name); the
witnesses show that the hypotheses of the statements can be met, clause by clause. -/

namespace Sys2Proof.Tests

open Sys2Proof.Machine

/-! ### Small states -/

/-- The next state, if there is one. -/
def after : Outcome → Option State
  | .next t => some t
  | .fault _ => none
  | .refused _ => none

/-- Bits written as 0 and 1 in stream order (R96). -/
def bitsOf (l : List Nat) : List Bit := l.map (· == 1)

/-- Both copies of `SV` with the common registers `c`. -/
def svAt (c : Ctl) : State := { State.reset with np.sv.ctl := c, rl.sv.ctl := c }

/-- `NPE` with an open block. -/
def npeAt (p : Phase) (blk : List Byte) : State :=
  { State.reset with np.enc := ⟨⟨p, .none, 0, blk.length⟩, ⟨blk, []⟩⟩ }

/-- `NPD` with a datapath. -/
def npdAt (p : Phase) (d : NpdDp) : State := { State.reset with np.dec := ⟨⟨p, .none, 0, 0⟩, d⟩ }

/-- `RLE` with an open run. -/
def rleAt (p : Phase) (r : Run) : State := { State.reset with rl.enc := ⟨⟨p, .none, 0, 0⟩, ⟨r, []⟩⟩ }

/-- `RLD` in a mode. -/
def rldAt (p : Phase) (m : RldMode) : State := { State.reset with rl.dec := ⟨⟨p, .none, 0, 0⟩, ⟨m, []⟩⟩ }

/-- Both instances constructed with the payload `p`. -/
def holding (p : List Byte) : State :=
  { State.reset with np.constructed := true, np.payload := p, rl.constructed := true, rl.payload := p }

/-- Strict counts (R11). -/
def strict (s : State) : State := { s with cfg.npStrictCount := true }

/-! ### `WellFormed` refuses an ill-formed term of each check -/

theorem test_wellFormed_refuses_np_literal_sentinel :
    Instr.WellFormed Config.default (.npLit 0x24) = false := by decide

theorem test_wellFormed_refuses_rl_literal_sentinel :
    Instr.WellFormed Config.default (.rlLit 0x24) = false := by decide

theorem test_wellFormed_refuses_group_of_wrong_length :
    Instr.WellFormed Config.default (.npGrp 0xA 4 [1, 2, 3]) = false := by decide

/-! ### Decoding, from words written out of R81, R82, R87, R93, R97 and the port words of P1 -/

theorem test_decode_sv :
    decode Config.default (.event (.sv .np) 0b0000000000) = .ok (.svNop .np) ∧
    decode Config.default (.event (.sv .rl) 0b0101100001) = .ok (.svByte .rl 0x61) ∧
    decode Config.default (.event (.sv .np) 0x200) = .ok (.svEnd .np) ∧
    decode Config.default (.event (.sv .rl) 0x300) = .ok (.svClear .rl) := by decide

theorem test_decode_npe :
    decode Config.default (.event .npe 0x0FF) = .ok .npeNop ∧
    decode Config.default (.event .npe 0x17A) = .ok (.npeByte 0x7A) ∧
    decode Config.default (.event .npe 0x2FF) = .ok .npeEnd ∧
    decode Config.default (.event .npe 0x300) = .ok .npeClear := by decide

theorem test_decode_npd :
    decode Config.default (.bitEvent 0b001) = .ok .npdNop ∧
    decode Config.default (.bitEvent 0b010) = .ok (.npdBit false) ∧
    decode Config.default (.bitEvent 0b011) = .ok (.npdBit true) ∧
    decode Config.default (.bitEvent 0b100) = .ok .npdEnd ∧
    decode Config.default (.bitEvent 0b111) = .ok .npdClear := by decide

theorem test_decode_rle :
    decode Config.default (.event .rle 0x000) = .ok .rleNop ∧
    decode Config.default (.event .rle 0x1FF) = .ok (.rleByte 0xFF) ∧
    decode Config.default (.event .rle 0x200) = .ok .rleEnd ∧
    decode Config.default (.event .rle 0x3A5) = .ok .rleClear := by decide

theorem test_decode_rld :
    decode Config.default (.event .rld 0x000) = .ok .rldNop ∧
    decode Config.default (.event .rld 0x124) = .ok (.rldByte 0x24) ∧
    decode Config.default (.event .rld 0x200) = .ok .rldEnd ∧
    decode Config.default (.event .rld 0x300) = .ok .rldClear := by decide

/-- NE2's literal, NE4's group, `"$a4"`, a literal byte. -/
theorem test_decode_tokens :
    decode Config.default (.npToken (bitsOf [0,1,1,0,0,0,0,1])) = .ok (.npLit 0x61) ∧
    decode Config.default (.npToken (bitsOf
      [0,0,1,0,0,1,0,0, 1,0,1,0, 0,1,0,0, 0,0,0,1, 0,0,1,0, 0,0,1,1, 0,1,0,0])) =
      .ok (.npGrp 0xA 4 [1, 2, 3, 4]) ∧
    decode Config.default (.rlToken [0x61]) = .ok (.rlLit 0x61) ∧
    decode Config.default (.rlToken [0x24, 0x61, 0x34]) = .ok (.rlMrk 0x61 0x34) := by decide

theorem test_decode_commands :
    decode Config.default (.command 0b000 (.bytes [0x61])) = .ok (.cmdNew .np [0x61]) ∧
    decode Config.default (.command 0b011 .none) = .ok (.cmdEncode .rl) ∧
    decode Config.default (.command 0b100 (.bits [true])) = .ok (.cmdDecode (.np [true])) ∧
    decode Config.default (.command 0b101 (.bytes [0x24])) = .ok (.cmdDecode (.rl [0x24])) ∧
    decode Config.default (.command 0b111 .none) = .ok (.cmdDecodeOwn .rl) := by decide

theorem test_decode_rejects_by_name :
    decode Config.default (.command 0b101 (.bits [])) = .error .operandMismatch ∧
    decode Config.default (.rlToken [0x24, 0x61]) = .error .truncatedToken ∧
    decode Config.default (.rlToken [0x61, 0x61]) = .error .trailingSymbols := by decide

theorem test_decodeTableWord :
    decodeTableWord 16 0x161 = some (.svByte .np 0x61) ∧ decodeTableWord 8 3 = some (.npdBit true) ∧
    decodeTableWord 8 0x61 = some (.npLit 0x61) ∧ decodeTableWord 16 0x24A1 = some (.npGrp 0xA 1 [0]) ∧
    decodeTableWord 24 0x246134 = some (.rlMrk 0x61 0x34) ∧ decodeTableWord 24 0x616134 = none := by decide

/-- A word sent as the next input is what the step runs (reset state, `NPD.BIT 1`, one bit counted). -/
theorem test_step_runs_the_word :
    (after (step (State.reset.withFetchWord 8 0b011))).map (fun t => (t.np.dec.dp.nbits, t.np.dec.ctl.inPos)) =
      some (1, 1) := by decide

/-! ### `SV` (R111's example, VV1, VV4) -/

theorem test_svByte_sentinel_faults_at_its_index :
    (after (exec (.svByte .rl 0x24) (svAt ⟨.run, .none, 0, 1⟩))).map (fun t => t.rl.sv.ctl) =
      some ⟨.faulted, .invalidInput, 1, 1⟩ := by decide

theorem test_svByte_neighbour_is_accepted :
    (after (exec (.svByte .np 0x25) (svAt ⟨.run, .none, 0, 4⟩))).map (fun t => t.np.sv.ctl) =
      some ⟨.run, .none, 0, 5⟩ := by decide

theorem test_svEnd_empty_payload :
    (after (exec (.svEnd .np) State.reset)).map (fun t => t.np.sv.ctl) = some ⟨.done, .none, 0, 0⟩ := by decide

/-- EV4. -/
theorem test_svEnd_after_fault_stays_faulted :
    (after (exec (.svEnd .rl) (svAt ⟨.faulted, .invalidInput, 0, 0⟩))).map (fun t => t.rl.sv.ctl.phase) =
      some .faulted := by decide

theorem test_svClear_recovers :
    (after (exec (.svClear .rl) (svAt ⟨.faulted, .invalidInput, 1, 1⟩))).map (fun t => t.rl.sv.ctl) =
      some ⟨.run, .none, 0, 0⟩ := by decide

/-! ### `NPE` (R122's and R123's examples, P4) -/

theorem test_npeByte_joins_the_block :
    (after (exec (.npeByte 0xA4) (npeAt .run [0xA1, 0xA2, 0xA3]))).map
      (fun t => (blkLen t.np.enc.dp, blkHi t.np.enc.dp, blkLo t.np.enc.dp, t.np.enc.dp.acc)) =
      some (4, some 0xA, [1, 2, 3, 4], []) := by decide

theorem test_npeByte_closes_the_block :
    (after (exec (.npeByte 0xB1) (npeAt .run [0xA1, 0xA2, 0xA3]))).map
      (fun t => (blkHi t.np.enc.dp, blkLo t.np.enc.dp, t.np.enc.dp.acc)) =
      some (some 0xB, [1], bitsOf [1,0,1,0,0,0,0,1, 1,0,1,0,0,0,1,0, 1,0,1,0,0,0,1,1]) := by decide

theorem test_npeEnd_single_literal :
    (after (exec .npeEnd (npeAt .run [0x61]))).map (fun t => (t.np.enc.dp.acc, t.np.enc.ctl.phase)) =
      some (bitsOf [0,1,1,0,0,0,0,1], .done) := by decide

/-- EV2: the open block is discarded. -/
theorem test_npeClear_discards :
    (after (exec .npeClear (npeAt .run [0x61]))).map (fun t => (t.np.enc.dp, t.np.enc.ctl.inPos)) =
      some (⟨[], []⟩, 0) := by decide

/-! ### `NPD` (the examples of R146, R147; ND9 strict) -/

theorem test_npdBit_expands_a_nibble :
    (after (exec (.npdBit true) (npdAt .run ⟨.lo 0xA, 1, 3, 2, []⟩))).map (fun t => t.np.dec.dp) =
      some ⟨.lo 0xA, 0, 0, 1, [0xA3]⟩ := by decide

theorem test_npdBit_strict_count_faults_and_writes_nothing_else :
    (after (exec (.npdBit true) (strict (npdAt .run ⟨.cnt 0xA, 1, 3, 0, []⟩)))).map
      (fun t => (t.np.dec.dp, t.np.dec.ctl.fault)) =
      some (⟨.cnt 0xA, 1, 3, 0, []⟩, .malformedStream) := by decide

theorem test_npdEnd_truncated_group :
    (after (exec .npdEnd
      { State.reset with np.dec := ⟨⟨.run, .none, 0, 28⟩, ⟨.lo 0xA, 0, 0, 1, [0xA1, 0xA2, 0xA3]⟩⟩ })).map
      (fun t => t.np.dec.ctl) = some ⟨.faulted, .malformedStream, 28, 28⟩ := by decide

theorem test_npdEnd_empty_stream :
    (after (exec .npdEnd State.reset)).map (fun t => t.np.dec.ctl.phase) = some .done := by decide

theorem test_npdClear_discards_half_a_field :
    (after (exec .npdClear (npdAt .faulted ⟨.hi, 2, 2, 0, [0x61]⟩))).map (fun t => t.np.dec) =
      some ⟨⟨.run, .none, 0, 0⟩, ⟨.lit, 0, 0, 0, []⟩⟩ := by decide

/-! ### `RLE` (R162's example, RE6, RE7) -/

theorem test_rleByte_break_emits_the_marker :
    (after (exec (.rleByte 0x62) (rleAt .run (.opened 0x61 4)))).map (fun t => t.rl.enc.dp) =
      some ⟨.opened 0x62 1, [0x24, 0x61, 0x34]⟩ := by decide

theorem test_rleByte_tenth_is_rejected :
    (after (exec (.rleByte 0x61) (rleAt .run (.opened 0x61 9)))).map (fun t => (t.rl.enc.dp, t.rl.enc.ctl.fault)) =
      some (⟨.opened 0x61 9, []⟩, .unsupportedRunLength) := by decide

theorem test_rleEnd_nine :
    (after (exec .rleEnd (rleAt .run (.opened 0x61 9)))).map (fun t => t.rl.enc.dp) =
      some ⟨.none, [0x24, 0x61, 0x39]⟩ := by decide

theorem test_rleEnd_three :
    (after (exec .rleEnd (rleAt .run (.opened 0x61 3)))).map (fun t => t.rl.enc.dp.out) =
      some [0x61, 0x61, 0x61] := by decide

theorem test_rleClear_discards :
    (after (exec .rleClear (rleAt .faulted (.opened 0x61 9)))).map (fun t => t.rl.enc) =
      some ⟨⟨.run, .none, 0, 0⟩, ⟨.none, []⟩⟩ := by decide

/-! ### `RLD` (R183's and R184's examples, RD13, RD14) -/

theorem test_rldByte_expands :
    (after (exec (.rldByte 0x34) (rldAt .run (.dig 0x61)))).map (fun t => t.rl.dec.dp) =
      some ⟨.lit, [0x61, 0x61, 0x61, 0x61]⟩ := by decide

theorem test_rldByte_next_to_the_digits_faults :
    (after (exec (.rldByte 0x3A) (rldAt .run (.dig 0x61)))).map (fun t => t.rl.dec.ctl.fault) =
      some .malformedStream ∧
    (after (exec (.rldByte 0x2F) (rldAt .run (.dig 0x61)))).map (fun t => t.rl.dec.ctl.fault) =
      some .malformedStream := by decide

theorem test_rldEnd_half_a_marker :
    (after (exec .rldEnd { State.reset with rl.dec := ⟨⟨.run, .none, 0, 2⟩, ⟨.dig 0x61, []⟩⟩ })).map
      (fun t => t.rl.dec) = some ⟨⟨.faulted, .malformedStream, 2, 2⟩, ⟨.dig 0x61, []⟩⟩ := by decide

theorem test_rldEnd_token_boundary :
    (after (exec .rldEnd State.reset)).map (fun t => t.rl.dec.ctl.phase) = some .done := by decide

/-- EV5. -/
theorem test_rldClear_discards :
    (after (exec .rldClear (rldAt .run .val))).map (fun t => t.rl.dec.dp) = some ⟨.lit, []⟩ := by decide

/-- EV3: `NOP` has no effect. -/
theorem test_nop :
    after (exec .rleNop (rleAt .run (.opened 0x61 2))) = some (rleAt .run (.opened 0x61 2)) ∧
    after (exec .npeNop (npeAt .run [0x61])) = some (npeAt .run [0x61]) ∧
    after (exec .npdNop (npdAt .run ⟨.hi, 1, 2, 0, []⟩)) = some (npdAt .run ⟨.hi, 1, 2, 0, []⟩) ∧
    after (exec .rldNop (rldAt .run .val)) = some (rldAt .run .val) ∧
    after (exec (.svNop .rl) (svAt ⟨.done, .none, 0, 3⟩)) = some (svAt ⟨.done, .none, 0, 3⟩) := by decide

/-! ### Tokens (R142's example, ND7, ND12, RD2, RD12) -/

theorem test_npLit :
    (after (exec (.npLit 0x61) State.reset)).map (fun t => (t.np.dec.dp, t.np.dec.ctl.inPos)) =
      some (⟨.lit, 0, 0, 0, [0x61]⟩, 8) := by decide

theorem test_npGrp :
    (after (exec (.npGrp 0xA 4 [1, 2, 3, 4]) State.reset)).map (fun t => (t.np.dec.dp, t.np.dec.ctl.inPos)) =
      some (⟨.lit, 0, 0, 0, [0xA1, 0xA2, 0xA3, 0xA4]⟩, 32) := by decide

theorem test_npGrp_strict :
    (after (exec (.npGrp 2 1 [4]) (strict State.reset))).map (fun t => t.np.dec.ctl) =
      some ⟨.faulted, .malformedStream, 15, 15⟩ := by decide

theorem test_rlLit :
    (after (exec (.rlLit 0x61) State.reset)).map (fun t => t.rl.dec.dp.out) = some [0x61] := by decide

theorem test_rlMrk :
    (after (exec (.rlMrk 0x61 0x34) State.reset)).map (fun t => t.rl.dec.dp.out) =
      some [0x61, 0x61, 0x61, 0x61] ∧
    (after (exec (.rlMrk 0x61 0x78) State.reset)).map (fun t => t.rl.dec.ctl) =
      some ⟨.faulted, .malformedStream, 2, 2⟩ := by decide

/-! ### Commands (R201's examples, NE12 and P1, RE9 and P2, RE15 and P3, ND6, ND7, RD7, RD10) -/

theorem test_new_rejected :
    (after (exec (.cmdNew .rl [0x61, 0x24, 0x62]) (holding [0x61]))).map
      (fun t => (newResult t.rl, t.rl.constructed, t.rl.payload)) =
      some (some (.error .invalidInput 1), false, []) := by decide

theorem test_new_accepted :
    (after (exec (.cmdNew .np [0x00, 0xFF, 0x80, 0x23, 0x25]) State.reset)).map
      (fun t => (newResult t.np, t.np.payload, t.np.sv.ctl.inPos)) =
      some (some (.ok ()), [0x00, 0xFF, 0x80, 0x23, 0x25], 5) := by decide

theorem test_encode_np :
    (after (exec (.cmdEncode .np) (holding [0x61, 0x62, 0x63, 0x64, 0x31, 0x32, 0x7A]))).map
      (fun t => npEncodeResult t.np) =
      some (some (.ok (bitsOf [0,0,1,0,0,1,0,0, 0,1,1,0, 0,1,0,0, 0,0,0,1, 0,0,1,0, 0,0,1,1, 0,1,0,0,
        0,0,1,1,0,0,0,1, 0,0,1,1,0,0,1,0, 0,1,1,1,1,0,1,0]))) := by decide

theorem test_encode_rl :
    (after (exec (.cmdEncode .rl) (holding [0x61, 0x61, 0x62, 0x62, 0x62, 0x62, 0x63, 0x63]))).map
      (fun t => rlEncodeResult t.rl) = some (some (.ok [0x61, 0x61, 0x24, 0x62, 0x34, 0x63, 0x63])) ∧
    (after (exec (.cmdEncode .rl) (holding ([0x78] ++ List.replicate 10 0x61 ++ [0x62])))).map
      (fun t => (rlEncodeResult t.rl, rlEncoded t.rl)) =
      some (some (.error .unsupportedRunLength 10), [0x78]) := by decide

theorem test_decode_np :
    (after (exec (.cmdDecode (.np (bitsOf [0,0,1,0,0,1,0,0, 1,0,1,0, 0,1,0,0, 0,0,0,1, 0,0,1,0, 0,0,1,1])))
      State.reset)).map (fun t => (npDecodeResult t.np, t.np.dec.dp.out)) =
      some (some (.error .malformedStream 28), [0xA1, 0xA2, 0xA3]) := by decide

theorem test_decode_rl :
    (after (exec (.cmdDecode (.rl [0x61, 0x62, 0x24, 0x63, 0x33, 0x64])) State.reset)).map
      (fun t => rlDecodeResult t.rl) =
      some (some (.ok [0x61, 0x62, 0x63, 0x63, 0x63, 0x64])) ∧
    (after (exec (.cmdDecode (.rl [0x24, 0x61])) State.reset)).map (fun t => rlDecodeResult t.rl) =
      some (some (.error .malformedStream 2)) := by decide

theorem test_decodeOwn_rl :
    (after (exec (.cmdDecodeOwn .rl)
      { holding [0x61, 0x61, 0x61, 0x61] with
        rl.enc := ⟨⟨.done, .none, 0, 4⟩, ⟨.none, [0x24, 0x61, 0x34]⟩⟩, rl.encValid := true })).map
      (fun t => (rlDecodeResult t.rl, t.rl.dec.ctl.inPos)) =
      some (some (.ok [0x61, 0x61, 0x61, 0x61]), 3) := by decide

theorem test_out_of_order_is_refused :
    after (exec (.cmdEncode .rl) State.reset) = none ∧ after (exec (.cmdDecodeOwn .np) State.reset) = none := by
  decide

/-- R254: bytes sent to a cleared encoder are no encoding of the payload. -/
theorem test_decodeOwn_after_clear_is_refused :
    after (execAll [.cmdEncode .rl, .rleClear, .cmdDecodeOwn .rl] (holding [0x61])) = none ∧
    ((after (execAll [.cmdEncode .np, .npeClear] (holding [0x61]))).map (fun t => npEncodeResult t.np)) =
      some none := by decide

/-- P3 (a) and (d): the refusal is remembered, the core goes on. -/
theorem test_program_P3 :
    let e := runProgram { State.reset with inbox :=
      [.send (.command 0b001 (.bytes [0x61, 0x24, 0x62])), .send (.command 0b011 .none),
        .send (.command 0b100 (.bits (bitsOf
          [0,0,1,0,0,1,0,0, 1,0,1,0, 0,1,0,0, 0,0,0,1, 0,0,1,0, 0,0,1,1, 0,1,0,0])))] }
    (e.refusals, npDecodeResult e.final.np, newResult e.final.rl) =
      ([.notConstructed .rl], some (.ok [0xA1, 0xA2, 0xA3, 0xA4]), some (.error .invalidInput 1)) := by decide

/-- A table word is padded for the sentinel of the state it is sent to. -/
theorem test_withFetchWord_other_sentinel :
    (after (step (({ State.reset with cfg.sentinel := 0x40 } : State).withFetchWord 8 0x24))).map
      (fun t => t.np.dec.dp.out) = some [0x24] := by decide

/-! ### Witnesses: the hypotheses of each statement, clause by clause, met by concrete states and operands -/

theorem witness_StepTakesTheNextInput :
    State.reset.inbox = [] ∧
    ({ State.reset with inbox := [.send (.event .rle 0x200), .reset] } : State).inbox =
      .send (.event .rle 0x200) :: [.reset] ∧
    decode State.reset.cfg (.event .rle 0x200) = .ok .rleEnd ∧
    ({ State.reset with inbox := [.send (.rlToken [])] } : State).inbox = .send (.rlToken []) :: [] ∧
    decode State.reset.cfg (.rlToken []) = .error .truncatedToken := by decide

theorem witness_ResetAndClearRestoreTheListedValues :
    ({ rleAt .faulted (.opened 0x61 9) with inbox := [.reset] } : State).inbox = .reset :: [] := by decide

theorem witness_ResetStateIsWhatResetLeaves :
    (npeAt .run [0x61]).cfg = State.reset.cfg ∧ npeAt .run [0x61] ≠ State.reset := by decide

theorem witness_DecodeOfEncodeIsTheInstruction :
    Instr.WellFormed Config.default (.npGrp 0xF 15 (List.replicate 15 0xE)) = true ∧
    Instr.WellFormed Config.default (.npGrp 0 0 []) = true ∧
    Instr.WellFormed Config.default (.npLit 0x25) = true ∧
    Instr.WellFormed Config.default (.rlMrk 0x24 0xFF) = true ∧
    Instr.WellFormed Config.default (.cmdNew .rl []) = true := by decide

theorem witness_TokenDecodingLosesNoSymbol :
    decode Config.default (.npToken (bitsOf [0,1,1,0,0,0,0,1])) = .ok (.npLit 0x61) ∧
    decode Config.default (.npToken (bitsOf [0,0,1,0,0,1,0,0, 1,0,1,0, 0,0,0,0])) = .ok (.npGrp 0xA 0 []) ∧
    decode Config.default (.rlToken [0x61]) = .ok (.rlLit 0x61) ∧
    decode Config.default (.rlToken [0x24, 0x24, 0x24]) = .ok (.rlMrk 0x24 0x24) := by decide

theorem witness_StreamFieldsAreMostSignificantBitFirst :
    (0 < 8 ∧ 7 < 8) ∧ (0 < 4 ∧ 3 < 4) ∧
    ([1, 2, 3, 4] : List Nibble)[0]? = some 1 ∧ ([1, 2, 3, 4] : List Nibble)[3]? = some 4 := by decide

theorem witness_SvByteScansForTheSentinel :
    (svAt ⟨.done, .none, 0, 2⟩).np.sv.ctl.phase ≠ .run ∧ (svAt ⟨.faulted, .invalidInput, 1, 1⟩).rl.sv.ctl.phase ≠ .run ∧
    ((svAt ⟨.run, .none, 0, 1⟩).np.sv.ctl.phase = .run ∧ (svAt ⟨.run, .none, 0, 1⟩).rl.sv.ctl.phase = .run ∧
      (0x24 : Byte) = State.reset.cfg.sentinel ∧ (0x23 : Byte) ≠ State.reset.cfg.sentinel ∧
      (0x25 : Byte) ≠ State.reset.cfg.sentinel) := by decide

theorem witness_SvEndFinishesThePass :
    (svAt ⟨.run, .none, 0, 0⟩).np.sv.ctl.phase = .run ∧ (svAt ⟨.run, .none, 0, 7⟩).rl.sv.ctl.phase = .run ∧
    (svAt ⟨.done, .none, 0, 2⟩).np.sv.ctl.phase ≠ .run ∧
    (svAt ⟨.faulted, .invalidInput, 1, 1⟩).rl.sv.ctl.phase ≠ .run := by decide

/-- A block of 14 has room, one of 15 has none. -/
theorem witness_NpeByteGroupsByHighNibble :
    (npeAt .done []).np.enc.ctl.phase ≠ .run ∧
    ((npeAt .run []).np.enc.ctl.phase = .run ∧ (npeAt .run []).np.enc.dp.blk = []) ∧
    ((npeAt .run [0xA1]).np.enc.dp.blk = 0xA1 :: [] ∧ hi4 0xB1 ≠ hi4 0xA1) ∧
    ((npeAt .run (List.replicate 15 0xA1)).np.enc.dp.blk = 0xA1 :: List.replicate 14 0xA1 ∧
      ((0xA1 : Byte) :: List.replicate 14 0xA1).length = 15) ∧
    ((npeAt .run (List.replicate 14 0xA1)).np.enc.dp.blk = 0xA1 :: List.replicate 13 0xA1 ∧
      hi4 0xAF = hi4 0xA1 ∧ ((0xA1 : Byte) :: List.replicate 13 0xA1).length ≠ 15) := by decide

theorem witness_ClosedBlockBits :
    (1 ≤ ([0] : List Nibble).length ∧ ([0] : List Nibble).length ≤ 3) ∧
    (([1, 2, 3] : List Nibble).length ≤ 15 ∧ ([1, 2, 3] : List Nibble).length ≤ 3) ∧
    (([1, 2, 3, 4] : List Nibble).length ≤ 15 ∧ 3 < ([1, 2, 3, 4] : List Nibble).length) ∧
    ((List.replicate 15 (0xE : Nibble)).length ≤ 15 ∧ 3 < (List.replicate 15 (0xE : Nibble)).length) := by decide

theorem witness_NpeEndFlushesTheOpenBlock :
    (npeAt .done []).np.enc.ctl.phase ≠ .run ∧
    ((npeAt .run []).np.enc.ctl.phase = .run ∧ (npeAt .run []).np.enc.dp.blk = []) ∧
    ((npeAt .run [0x61]).np.enc.ctl.phase = .run ∧ (npeAt .run [0x61]).np.enc.dp.blk ≠ []) := by decide

/-- The last bit but one and the last bit of a field in each mode, and the counts 0, 1, 3, 4, 15. -/
theorem witness_NpdBitParsesAndExpands :
    (npdAt .done NpdDp.reset).np.dec.ctl.phase ≠ .run ∧
    (npdAt .run ⟨.lit, 0, 6, 0, []⟩).np.dec.ctl.phase = .run ∧
    (((6 : BitVec 3).toNat + 1 < 8 ∧ ¬ (7 : BitVec 3).toNat + 1 < 8) ∧
      ((2 : BitVec 3).toNat + 1 < 4 ∧ ¬ (3 : BitVec 3).toNat + 1 < 4)) ∧
    (BitVec.ofNat 8 ((0x12 : BitVec 8).toNat * 2 + false.toNat) = State.reset.cfg.sentinel ∧
      BitVec.ofNat 8 ((0x12 : BitVec 8).toNat * 2 + true.toNat) ≠ State.reset.cfg.sentinel) ∧
    (npdAt .run ⟨.hi, 5, 3, 0, []⟩).np.dec.dp.mode = .hi ∧
    ((npdAt .run ⟨.cnt 0xA, 1, 3, 0, []⟩).np.dec.dp.mode = .cnt 0xA ∧
      (lo4 0x3).toNat ≤ 3 ∧ (strict State.reset).cfg.npStrictCount = true ∧
      lo4 0x0 = 0 ∧ State.reset.cfg.npStrictCount = false ∧
      (lo4 0x1 ≠ 0 ∧ ((lo4 0x1).toNat ≤ 3 → State.reset.cfg.npStrictCount = false)) ∧
      (lo4 0x4 ≠ 0 ∧ ((lo4 0x4).toNat ≤ 3 → (strict State.reset).cfg.npStrictCount = false)) ∧
      (lo4 0xF ≠ 0 ∧ ((lo4 0xF).toNat ≤ 3 → (strict State.reset).cfg.npStrictCount = false))) ∧
    ((npdAt .run ⟨.lo 0xA, 1, 3, 1, []⟩).np.dec.dp.mode = .lo 0xA ∧
      (npdAt .run ⟨.lo 0xA, 1, 3, 1, []⟩).np.dec.dp.grpRem = 1 ∧
      (npdAt .run ⟨.lo 0xA, 1, 3, 2, []⟩).np.dec.dp.grpRem ≠ 1) := by decide

theorem witness_NpdEndNeedsATokenBoundary :
    (npdAt .faulted NpdDp.reset).np.dec.ctl.phase ≠ .run ∧
    ((npdAt .run NpdDp.reset).np.dec.ctl.phase = .run ∧ (npdAt .run NpdDp.reset).np.dec.dp.mode = .lit ∧
      (npdAt .run NpdDp.reset).np.dec.dp.nbits = 0) ∧
    (npdAt .run ⟨.lit, 0, 1, 0, []⟩).np.dec.dp.nbits ≠ 0 ∧
    (npdAt .run ⟨.hi, 0, 0, 0, []⟩).np.dec.dp.mode ≠ .lit := by decide

/-- A run of 8 and a run of 9. -/
theorem witness_RleByteCountsTheRun :
    (rleAt .done .none).rl.enc.ctl.phase ≠ .run ∧
    ((rleAt .run .none).rl.enc.ctl.phase = .run ∧ (rleAt .run .none).rl.enc.dp.run = .none) ∧
    ((rleAt .run (.opened 0x61 9)).rl.enc.dp.run = .opened 0x61 9 ∧ (9 : BitVec 4) = 9) ∧
    ((rleAt .run (.opened 0x61 8)).rl.enc.dp.run = .opened 0x61 8 ∧ (8 : BitVec 4) ≠ 9) ∧
    (0x62 : Byte) ≠ 0x61 := by decide

theorem witness_ClosedRunBytes :
    (1 ≤ (1 : BitVec 4).toNat ∧ (1 : BitVec 4).toNat ≤ 3) ∧ (3 : BitVec 4).toNat ≤ 3 ∧
    (3 < (4 : BitVec 4).toNat ∧ (4 : BitVec 4).toNat ≤ 9) ∧ (3 < (9 : BitVec 4).toNat ∧ (9 : BitVec 4).toNat ≤ 9) := by
  decide

theorem witness_RleEndFlushesTheOpenRun :
    (rleAt .faulted (.opened 0x61 9)).rl.enc.ctl.phase ≠ .run ∧
    ((rleAt .run .none).rl.enc.ctl.phase = .run ∧ (rleAt .run .none).rl.enc.dp.run = .none) ∧
    ((rleAt .run (.opened 0x61 1)).rl.enc.ctl.phase = .run ∧
      (rleAt .run (.opened 0x61 1)).rl.enc.dp.run = .opened 0x61 1) := by decide

/-- The digits `'0'` and `'9'` and the bytes next to them. -/
theorem witness_RldByteDetectsAndExpandsMarkers :
    (rldAt .done .lit).rl.dec.ctl.phase ≠ .run ∧ (rldAt .run .lit).rl.dec.ctl.phase = .run ∧
    ((rldAt .run .lit).rl.dec.dp.mode = .lit ∧ (0x24 : Byte) = State.reset.cfg.sentinel ∧
      (0x34 : Byte) ≠ State.reset.cfg.sentinel) ∧
    (rldAt .run .val).rl.dec.dp.mode = .val ∧
    ((rldAt .run (.dig 0x61)).rl.dec.dp.mode = .dig 0x61 ∧
      (0x30 ≤ (0x30 : Byte).toNat ∧ (0x30 : Byte).toNat ≤ 0x39) ∧
      (0x30 ≤ (0x39 : Byte).toNat ∧ (0x39 : Byte).toNat ≤ 0x39) ∧
      (0x2F : Byte).toNat < 0x30 ∧ 0x39 < (0x3A : Byte).toNat) := by decide

theorem witness_RldEndNeedsATokenBoundary :
    (rldAt .faulted .lit).rl.dec.ctl.phase ≠ .run ∧
    ((rldAt .run .lit).rl.dec.ctl.phase = .run ∧ (rldAt .run .lit).rl.dec.dp.mode = .lit) ∧
    (rldAt .run .val).rl.dec.dp.mode ≠ .lit ∧ (rldAt .run (.dig 0x61)).rl.dec.dp.mode ≠ .lit := by decide

/-- Each clause has an event that enters `FAULTED`, and a faulted unit. -/
theorem witness_FaultEntryWritesOnlyTheFaultRegisters :
    (∃ t, exec (.svByte .np 0x24) State.reset = .next t ∧ State.reset.np.sv.ctl.phase ≠ .faulted ∧
      t.np.sv.ctl.phase = .faulted) ∧
    (∃ t, exec (.svByte .rl 0x24) State.reset = .next t ∧ t.rl.sv.ctl.phase = .faulted) ∧
    (∃ t, exec (.npdBit true) (strict (npdAt .run ⟨.cnt 0xA, 1, 3, 0, []⟩)) = .next t ∧
      t.np.dec.ctl.phase = .faulted) ∧
    (∃ t, exec .npdEnd (npdAt .run ⟨.hi, 0, 0, 0, []⟩) = .next t ∧ t.np.dec.ctl.phase = .faulted) ∧
    (∃ t, exec (.rleByte 0x61) (rleAt .run (.opened 0x61 9)) = .next t ∧ t.rl.enc.ctl.phase = .faulted) ∧
    (∃ t, exec (.rldByte 0x3A) (rldAt .run (.dig 0x61)) = .next t ∧ t.rl.dec.ctl.phase = .faulted) ∧
    (∃ t, exec .rldEnd (rldAt .run .val) = .next t ∧ t.rl.dec.ctl.phase = .faulted) ∧
    ((svAt ⟨.faulted, .invalidInput, 1, 1⟩).np.sv.ctl.phase = .faulted ∧
      (svAt ⟨.faulted, .invalidInput, 1, 1⟩).rl.sv.ctl.phase = .faulted ∧
      (npeAt .faulted []).np.enc.ctl.phase = .faulted ∧ (npdAt .faulted NpdDp.reset).np.dec.ctl.phase = .faulted ∧
      (rleAt .faulted .none).rl.enc.ctl.phase = .faulted ∧ (rldAt .faulted .val).rl.dec.ctl.phase = .faulted) := by
  refine ⟨⟨_, rfl, ?_⟩, ⟨_, rfl, ?_⟩, ⟨_, rfl, ?_⟩, ⟨_, rfl, ?_⟩, ⟨_, rfl, ?_⟩, ⟨_, rfl, ?_⟩, ⟨_, rfl, ?_⟩, ?_⟩ <;>
    decide

/-- Operations and tokens that enter `FAULTED` (the single events: the witness above). -/
theorem witness_OnlyTheListedEventsEnterFaulted :
    (∃ t, exec (.cmdNew .np [0x61, 0x24]) State.reset = .next t ∧ State.reset.np.sv.ctl.phase ≠ .faulted ∧
      t.np.sv.ctl.phase = .faulted) ∧
    (∃ t, exec (.cmdNew .rl [0x24]) State.reset = .next t ∧ t.rl.sv.ctl.phase = .faulted) ∧
    (∃ t, exec (.npeByte 0x24) State.reset = .next t ∧ State.reset.np.enc.ctl.phase ≠ .faulted) ∧
    (∃ t, exec (.npGrp 2 1 [4]) (strict State.reset) = .next t ∧ State.reset.np.dec.ctl.phase ≠ .faulted ∧
      t.np.dec.ctl.phase = .faulted) ∧
    (∃ t, exec (.cmdEncode .rl) (holding (List.replicate 10 0x61)) = .next t ∧
      (holding (List.replicate 10 0x61)).rl.enc.ctl.phase ≠ .faulted ∧ t.rl.enc.ctl.phase = .faulted) ∧
    (∃ t, exec (.rlMrk 0x61 0x78) State.reset = .next t ∧ State.reset.rl.dec.ctl.phase ≠ .faulted ∧
      t.rl.dec.ctl.phase = .faulted) := by
  refine ⟨⟨_, rfl, ?_⟩, ⟨_, rfl, ?_⟩, ⟨_, rfl, ?_⟩, ⟨_, rfl, ?_⟩, ⟨_, rfl, ?_⟩, ⟨_, rfl, ?_⟩⟩ <;> decide

theorem witness_CursorCountsProcessedSymbols :
    (∃ t, step { npeAt .run [0x61] with inbox := [.reset] } = .next t) ∧
    (∃ t, exec (.svClear .np) (svAt ⟨.faulted, .invalidInput, 1, 1⟩) = .next t) ∧
    (∃ t, exec (.svByte .rl 0x61) (svAt ⟨.run, .none, 0, 1⟩) = .next t ∧ t.rl.sv.ctl.phase = .run) ∧
    (∃ t, exec (.rldByte 0x2F) (rldAt .run (.dig 0x61)) = .next t ∧ t.rl.dec.ctl.phase ≠ .run) ∧
    (∃ t, exec (.npdBit true) State.reset = .next t ∧ t.np.dec.ctl.phase = .run) := by
  refine ⟨⟨_, rfl⟩, ⟨_, rfl⟩, ⟨_, rfl, ?_⟩, ⟨_, rfl, ?_⟩, ⟨_, rfl, ?_⟩⟩ <;> decide

theorem witness_AccumulatorsAreAppendOnly :
    (∃ t, step { rldAt .run .val with inbox := [.reset] } = .next t) ∧
    (∃ t, exec .npeEnd (npeAt .run [0x61]) = .next t ∧ t.np.enc.dp.acc ≠ []) ∧
    (∃ t, exec (.rldByte 0x39) (rldAt .run (.dig 0x61)) = .next t ∧ t.rl.dec.dp.out ≠ []) ∧
    (∃ t, exec .rleClear (rleAt .run .none) = .next t) ∧ (∃ t, exec (.cmdNew .np []) State.reset = .next t) := by
  refine ⟨⟨_, rfl⟩, ⟨_, rfl, ?_⟩, ⟨_, rfl, ?_⟩, ⟨_, rfl⟩, ⟨_, rfl⟩⟩ <;> decide

theorem witness_OneEventAppendsABoundedLength :
    (NpeInv (npeAt .run (List.replicate 15 0xA1)).np.enc ∧
      ∃ t, exec (.npeByte 0xA1) (npeAt .run (List.replicate 15 0xA1)) = .next t) ∧
    (NpeInv (npeAt .run [0x61]).np.enc ∧ ∃ t, exec .npeEnd (npeAt .run [0x61]) = .next t) ∧
    (∃ t, exec (.npdBit true) (npdAt .run ⟨.lo 0xA, 1, 3, 2, []⟩) = .next t) ∧
    (RleInv (rleAt .run (.opened 0x61 9)).rl.enc ∧
      (∃ t, exec (.rleByte 0x62) (rleAt .run (.opened 0x61 9)) = .next t) ∧
      ∃ t, exec .rleEnd (rleAt .run (.opened 0x61 9)) = .next t) ∧
    (∃ t, exec (.rldByte 0x39) (rldAt .run (.dig 0x61)) = .next t) ∧
    (∃ t, exec .npdEnd State.reset = .next t) ∧ (∃ t, exec .rldEnd State.reset = .next t) := by
  refine ⟨⟨?_, _, rfl⟩, ⟨?_, _, rfl⟩, ⟨_, rfl⟩, ⟨?_, ⟨_, rfl⟩, _, rfl⟩, ⟨_, rfl⟩, ⟨_, rfl⟩, ⟨_, rfl⟩⟩ <;> decide

theorem witness_NpLiteralTokenIsItsByte :
    (State.reset.np.dec.ctl.phase = .run ∧ State.reset.np.dec.dp.mode = .lit ∧ State.reset.np.dec.dp.shreg = 0 ∧
      State.reset.np.dec.dp.nbits = 0) ∧
    (0x25 : Byte) ≠ State.reset.cfg.sentinel ∧ (0x24 : Byte) = State.reset.cfg.sentinel := by decide

/-- The counts 0, 1, 3, 4 and 15 (the state is the reset state: the witness above). -/
theorem witness_NpGroupTokenIsItsBytes :
    (([] : List Nibble).length = (0 : Nibble).toNat ∧ State.reset.cfg.npStrictCount = false) ∧
    (([4] : List Nibble).length = (1 : Nibble).toNat ∧ 1 ≤ (1 : Nibble).toNat ∧ (1 : Nibble).toNat ≤ 3) ∧
    (([4, 5, 6] : List Nibble).length = (3 : Nibble).toNat ∧ (3 : Nibble).toNat ≤ 3 ∧
      (strict State.reset).cfg.npStrictCount = true ∧ (strict State.reset).np.dec.ctl.phase = .run) ∧
    (([1, 2, 3, 4] : List Nibble).length = (4 : Nibble).toNat ∧
      ((4 : Nibble).toNat ≤ 3 → (strict State.reset).cfg.npStrictCount = false)) ∧
    ((List.replicate 15 (0xE : Nibble)).length = (15 : Nibble).toNat ∧ 1 ≤ (15 : Nibble).toNat) := by decide

theorem witness_RlTokensAreTheirBytes :
    (State.reset.rl.dec.ctl.phase = .run ∧ State.reset.rl.dec.dp.mode = .lit) ∧
    (0x61 : Byte) ≠ State.reset.cfg.sentinel ∧
    (0x30 ≤ (0x30 : Byte).toNat ∧ (0x30 : Byte).toNat ≤ 0x39) ∧
    (0x30 ≤ (0x39 : Byte).toNat ∧ (0x39 : Byte).toNat ≤ 0x39) ∧
    (0x2F : Byte).toNat < 0x30 ∧ 0x39 < (0x3A : Byte).toNat := by decide

theorem witness_NewValidatesThenLatches :
    State.reset.cfg.sentinel ∉ ([] : List Byte) ∧ State.reset.cfg.sentinel ∉ ([0x23, 0x25] : List Byte) ∧
    (([0x24] : List Byte) = [] ++ State.reset.cfg.sentinel :: [] ∧ State.reset.cfg.sentinel ∉ ([] : List Byte)) ∧
    (([0x61, 0x24, 0x24] : List Byte) = [0x61] ++ State.reset.cfg.sentinel :: [0x24] ∧
      State.reset.cfg.sentinel ∉ ([0x61] : List Byte)) := by decide

theorem witness_OperationsAreTheirExpansions :
    (holding [0x61]).np.constructed = true ∧ (holding []).rl.constructed = true ∧
    ({ holding [0x61] with np.encValid := true } : State).np.encValid = true ∧
    ({ holding [0x61] with rl.encValid := true } : State).rl.encValid = true := by decide

theorem witness_OutOfOrderOperationsAreRefused :
    State.reset.np.constructed = false ∧ State.reset.rl.constructed = false ∧
    (holding [0x61]).np.encValid = false ∧ (holding [0x61]).rl.encValid = false := by decide

theorem witness_RejectedPayloadIsNeverEncoded :
    (holding [0x61]).cfg.sentinel ∈ ([0x61, 0x24] : List Byte) ∧ State.reset.cfg.sentinel ∈ ([0x24] : List Byte) := by
  decide

theorem witness_EncodeNpGivesTheBlockEncoding :
    (holding []).np.constructed = true ∧ (holding (List.replicate 16 0xA1)).np.constructed = true := by decide

theorem witness_EncodeRlGivesTheRunEncoding :
    (holding (List.replicate 9 0x61)).rl.constructed = true ∧
    rlEncodeForm Config.default (List.replicate 9 0x61) = .ok [0x24, 0x61, 0x39] ∧
    (holding (List.replicate 10 0x61)).rl.constructed = true ∧
    rlEncodeForm Config.default (List.replicate 10 0x61) = .error .unsupportedRunLength 9 := by decide

theorem witness_DecodeNpGivesTheRecursiveForm :
    npDecodeForm Config.default [] = some [] ∧
    npDecodeForm Config.default (bitsOf [0,1,1,0,0,0,0,1]) = some [0x61] ∧
    npDecodeForm Config.default (bitsOf [0,1,1,0,0,0,0]) = none ∧
    npDecodeForm (strict State.reset).cfg (bitsOf [0,0,1,0,0,1,0,0, 1,0,1,0, 0,0,0,0]) = none ∧
    State.reset.cfg.npStrictCount = false := by decide

theorem witness_DecodeRlGivesTheRecursiveForm :
    rlDecodeForm Config.default [0x24, 0x61, 0x30] = some [] ∧
    rlDecodeForm Config.default [0x24, 0x61, 0x3A] = none ∧ rlDecodeForm Config.default [0x24, 0x61] = none := by
  decide

/-- Both instances with a finished encoding of `"aaaa"`. -/
def encodedAaaa : State :=
  { holding [0x61, 0x61, 0x61, 0x61] with
    np.enc := ⟨⟨.done, .none, 0, 4⟩,
      ⟨[], bitsOf [0,0,1,0,0,1,0,0, 0,1,1,0, 0,1,0,0, 0,0,0,1, 0,0,0,1, 0,0,0,1, 0,0,0,1]⟩⟩
    np.encValid := true
    rl.enc := ⟨⟨.done, .none, 0, 4⟩, ⟨.none, [0x24, 0x61, 0x34]⟩⟩
    rl.encValid := true }

theorem witness_DecodeOwnGivesThePayloadBack :
    Coherent encodedAaaa ∧ encodedAaaa.np.encValid = true ∧ encodedAaaa.cfg.sentinel ∉ encodedAaaa.np.payload ∧
    encodedAaaa.rl.encValid = true ∧ encodedAaaa.cfg.sentinel ∉ encodedAaaa.rl.payload := by decide

theorem witness_NibblePackRoundTrip :
    validate Config.default [] = some (.ok ()) ∧ validate Config.default [0x00, 0x23, 0xFF] = some (.ok ()) := by decide

theorem witness_RunLengthRoundTrip :
    validate Config.default (List.replicate 9 0x61) = some (.ok ()) ∧
    rlEncode Config.default (List.replicate 9 0x61) = some (.ok [0x24, 0x61, 0x39]) ∧
    (∀ r ∈ rlRuns (List.replicate 9 0x61), r.2 ≤ 9) := by decide

theorem witness_NpInstanceRoundTrip :
    State.reset.cfg.sentinel ∉ ([0x61, 0x62] : List Byte) ∧ GoodFinal State.reset ∧
    (strict State.reset).cfg.sentinel = State.reset.cfg.sentinel := by decide

/-- The encoding succeeds for a run of 9, and not for a run of 10. -/
theorem witness_RlInstanceRoundTrip :
    State.reset.cfg.sentinel ∉ List.replicate 10 (0x61 : Byte) ∧
    ∃ t, execAll [.cmdNew .rl (List.replicate 9 0x61), .cmdEncode .rl] State.reset = .next t ∧
      rlEncodeResult t.rl = some (.ok [0x24, 0x61, 0x39]) := by
  refine ⟨by decide, _, rfl, by decide⟩

theorem witness_BlockBoundaryAtFifteen :
    (List.replicate 15 (0xE : Nibble)).length = 15 ∧ ([] : List Nibble).length ≤ 15 ∧
    (([1, 2, 3] : List Nibble).length ≤ 15 ∧ ([1, 2, 3] : List Nibble).length ≤ 3) ∧
    ¬ ([1, 2, 3, 4] : List Nibble).length ≤ 3 := by decide

theorem witness_RlEncodedIsNoLonger :
    rlEncode Config.default [0x61, 0x61, 0x61, 0x61, 0x62] = some (.ok [0x24, 0x61, 0x34, 0x62]) := by decide

/-- The reset state with something sent; its step. -/
theorem witness_EveryStepKeepsTheInvariants :
    StateInv { State.reset with inbox := [.send (.event .npe 0x161)] } ∧
    ∃ t, step { State.reset with inbox := [.send (.event .npe 0x161)] } = .next t ∧ t.np.enc.dp.blk = [0x61] := by
  refine ⟨⟨?_, ?_, ?_, ?_, ?_, ?_, ?_, ?_⟩, _, rfl, ?_⟩ <;> decide

theorem witness_EncoderHoldsTheEncodingSoFar : ∀ r ∈ rlRuns (List.replicate 9 0x61), r.2 ≤ 9 := by decide

/-- Before and after the `CLEAR` that ends the validity. -/
theorem witness_BuffersStayCoherent :
    Coherent encodedAaaa ∧ encodedAaaa.np.encValid = true ∧ encodedAaaa.rl.encValid = true ∧
    (∃ t, exec .npeClear encodedAaaa = .next t ∧ t.np.encValid = false) ∧
    ∃ t, step { encodedAaaa with inbox := [.send (.event .rle 0x161)] } = .next t ∧ t.rl.encValid = true := by
  refine ⟨by decide, rfl, rfl, ⟨_, rfl, rfl⟩, _, rfl, rfl⟩

/-- No unit faulted, no pass open, an unconstructed `RL` instance, one byte and a run of 9. -/
theorem witness_RoundTripEndsWellRefusalAndOpenPassDoNot :
    NoUnitFaulted State.reset ∧ NoPassOpen State.reset ∧ State.reset.cfg.sentinel ∉ ([0x61] : List Byte) ∧
    State.reset.rl.constructed = false ∧ NoUnitFaulted encodedAaaa ∧ NoPassOpen encodedAaaa ∧
    (([0x61] : List Byte) ≠ [] ∧ ∀ r ∈ rlRuns [0x61], r.2 ≤ 9) ∧
    (List.replicate 9 (0x61 : Byte) ≠ [] ∧ ∀ r ∈ rlRuns (List.replicate 9 0x61), r.2 ≤ 9) := by decide

theorem witness_ParametersNeverChange :
    (∃ t, step { strict State.reset with inbox := [.reset] } = .next t) ∧
    (∃ t, step { strict State.reset with inbox := [.send (.event .npe 0x161)] } = .next t) ∧
    ∃ t, step (strict State.reset) = .next t := by
  refine ⟨⟨_, rfl⟩, ⟨_, rfl⟩, _, rfl⟩

theorem witness_InstancesDoNotInterfere :
    (instrCodec (.npeByte 0x61) = .np ∧ ∃ t, exec (.npeByte 0x61) State.reset = .next t) ∧
    (instrCodec (.rleByte 0x61) = .rl ∧ ∃ t, exec (.rleByte 0x61) State.reset = .next t) ∧
    instrCodec (.npeByte 0x61) ≠ instrCodec (.rleByte 0x61) ∧
    ∃ t, execAll [.npeByte 0x61, .rleByte 0x61] State.reset = .next t := by
  refine ⟨⟨by decide, _, rfl⟩, ⟨by decide, _, rfl⟩, by decide, _, rfl⟩

theorem witness_PayloadIsImmutableAfterNew :
    (∃ t, exec (.cmdEncode .np) (holding [0x61]) = .next t ∧ t.np.payload = [0x61]) ∧
    (∀ p, Instr.cmdEncode .np ≠ .cmdNew .np p) ∧ (∀ p, Instr.cmdEncode .np ≠ .cmdNew .rl p) := by
  refine ⟨⟨_, rfl, by decide⟩, ?_, ?_⟩ <;> intro p h <;> cases h

end Sys2Proof.Tests
end

section
/-! The reset input (70_reset_and_hazards.md R250): how `step` takes it, and the state the host starts from. -/

namespace Sys2Proof.Machine

/-- The one branch of `step` that runs `assertReset`: the reset input leaves the inbox first (R250). -/
theorem step_of_inbox_reset {s : State} {rest : List HostInput} (h : s.inbox = .reset :: rest) :
    step s = .next (assertReset { s with inbox := rest }) := by
  simp only [step, h]

/-- Reset looks at nothing of a state but its parameters and its inbox (R47, R250). -/
theorem assertReset_eq_resetWith {s : State} (h : s.inbox = []) : assertReset s = State.resetWith s.cfg := by
  simp only [assertReset, h, State.resetWith]

/-- Settles O3: the parameters and the inbox are read off the definition; the reset input is taken by
`step_of_inbox_reset` and leaves `State.resetWith` of the parameters, which are the default ones by hypothesis. -/
theorem resetStateIsWhatResetLeaves : Obligations.ResetStateIsWhatResetLeaves := by
  refine ⟨rfl, rfl, fun s hcfg => ?_⟩
  calc step { s with inbox := [.reset] }
      = .next (assertReset { s with inbox := [] }) := step_of_inbox_reset rfl
    _ = .next (State.resetWith s.cfg) := congrArg _ (assertReset_eq_resetWith rfl)
    _ = .next State.reset := by rw [hcfg]; rfl

end Sys2Proof.Machine
end

section
/-! The status word (10_state.md R26). -/

namespace Sys2Proof.Machine

/-- The two fields do not overlap: the phase takes the two bits below the fault. -/
theorem statusWord_toNat (c : Ctl) :
    (statusWord c).toNat = (phaseCode c.phase).toNat + 4 * (faultCode c.fault).toNat := by
  have hp := (phaseCode c.phase).isLt
  have hf := (faultCode c.fault).isLt
  have hzero : BitVec.toNat (0 : BitVec 4) = 0 := rfl
  rw [statusWord, BitVec.toNat_append, BitVec.toNat_append, ← Nat.shiftLeft_add_eq_or_of_lt hp,
    ← Nat.shiftLeft_add_eq_or_of_lt hf, hzero]
  simp only [Nat.shiftLeft_eq]
  omega

/-- Settles O57: the word is the sum of its fields (`statusWord_toNat`), whose codes are those of R21 and R22. -/
theorem statusWordLayout : Obligations.StatusWordLayout := by
  intro c
  rw [statusWord_toNat]
  congr 1
  · cases c.phase <;> rfl
  · congr 1
    cases c.fault <;> rfl

end Sys2Proof.Machine
end

section
/-! What one instruction does to a codec, said once for `NP` and `RL` (10_state.md R44, R45), and what one step does
to the state (45_core_operations.md R211). -/

namespace Sys2Proof.Machine

variable {ε δ α : Type}

/-- What tells the two codecs apart: the reset values of the two datapaths and what symbols and `END` do to them. -/
structure UnitOps (ε δ α : Type) where
  encInit : ε
  encAct : Byte → ε → Except FaultCode ε
  encEndAct : ε → Except FaultCode ε
  decInit : δ
  decAct : α → δ → Except FaultCode δ
  decEndAct : δ → Except FaultCode δ

/-- The encoder's pass (R14). -/
def UnitOps.encPass (o : UnitOps ε δ α) : List Byte → StreamUnit ε → StreamUnit ε :=
  pass (clearEvent o.encInit) (fun b => symbolEvent (o.encAct b)) (endEvent o.encEndAct)

/-- The decoder's symbols presented in order. -/
def UnitOps.decFeed (o : UnitOps ε δ α) : List α → StreamUnit δ → StreamUnit δ :=
  feed fun x => symbolEvent (o.decAct x)

/-- The decoder's pass (R14). -/
def UnitOps.decPass (o : UnitOps ε δ α) : List α → StreamUnit δ → StreamUnit δ :=
  pass (clearEvent o.decInit) (fun x => symbolEvent (o.decAct x)) (endEvent o.decEndAct)

/-- `NPE` and `NPD`. -/
def npOps (cfg : Config) : UnitOps NpeDp NpdDp Bit where
  encInit := NpeDp.reset
  encAct := npeByteAct cfg
  encEndAct := npeEndAct cfg
  decInit := NpdDp.reset
  decAct := npdBitAct cfg
  decEndAct := npdEndAct

/-- `RLE` and `RLD`. -/
def rlOps (cfg : Config) : UnitOps RleDp RldDp Byte where
  encInit := RleDp.reset
  encAct := rleByteAct cfg
  encEndAct := rleEndAct cfg
  decInit := RldDp.reset
  decAct := rldByteAct cfg
  decEndAct := rldEndAct

theorem npOps_encPass (cfg : Config) : (npOps cfg).encPass = npePass cfg := rfl

theorem rlOps_encPass (cfg : Config) : (rlOps cfg).encPass = rlePass cfg := rfl

theorem npOps_decPass (cfg : Config) : (npOps cfg).decPass = npdPass cfg := rfl

theorem rlOps_decPass (cfg : Config) : (rlOps cfg).decPass = rldPass cfg := rfl

/-- Everything one instruction can do to a codec: nothing (`NOP`, and whatever is for the other one), an event of one
of its units, a token's symbols, or one of the four operations. `exec_instanceStep` ties it to `exec`. -/
inductive InstanceStep (cfg : Config) (o : UnitOps ε δ α) (I : Instance ε δ) : Instance ε δ → Prop where
  | idle : InstanceStep cfg o I I
  | svByte (b : Byte) : InstanceStep cfg o I { I with sv := Machine.svByte cfg b I.sv }
  | svEnd : InstanceStep cfg o I { I with sv := Machine.svEnd I.sv }
  | svClear : InstanceStep cfg o I { I with sv := Machine.svClear I.sv }
  | encByte (b : Byte) : InstanceStep cfg o I { I with enc := symbolEvent (o.encAct b) I.enc }
  | encEnd : InstanceStep cfg o I { I with enc := endEvent o.encEndAct I.enc }
  | encClear : InstanceStep cfg o I { I with enc := clearEvent o.encInit I.enc, encValid := false }
  | decSymbols (xs : List α) : InstanceStep cfg o I { I with dec := o.decFeed xs I.dec }
  | decEnd : InstanceStep cfg o I { I with dec := endEvent o.decEndAct I.dec }
  | decClear : InstanceStep cfg o I { I with dec := clearEvent o.decInit I.dec, decValid := false }
  | new (p : List Byte) : InstanceStep cfg o I (newOp cfg o.encInit o.decInit p I)
  | encode (h : I.constructed = true) : InstanceStep cfg o I (encodeOp o.encPass I)
  | decode (xs : List α) : InstanceStep cfg o I (decodeOp o.decPass xs I)

/-- An operation with a precondition answers a next state only when the precondition holds (R205). -/
theorem eq_of_guarded_next {c : Bool} {r : Refusal} {s t : State}
    (h : (if c = true then Host.Outcome.next s else .refused r : Outcome) = .next t) : c = true ∧ s = t := by
  cases c
  · cases h
  · exact ⟨rfl, Host.Outcome.next.inj h⟩

/-- An instruction that answers a next state has done one `InstanceStep` to each codec, to one of them none, and has
left the parameters and the inbox. -/
theorem exec_instanceStep {i : Instr} {s t : State} (h : exec i s = .next t) :
    InstanceStep s.cfg (npOps s.cfg) s.np t.np ∧ InstanceStep s.cfg (rlOps s.cfg) s.rl t.rl ∧
    t.cfg = s.cfg ∧ t.inbox = s.inbox := by
  cases i with
  | svNop c => cases c <;> cases h <;> exact ⟨.idle, .idle, rfl, rfl⟩
  | svByte c b =>
    cases c <;> cases h
    · exact ⟨.svByte b, .idle, rfl, rfl⟩
    · exact ⟨.idle, .svByte b, rfl, rfl⟩
  | svEnd c =>
    cases c <;> cases h
    · exact ⟨.svEnd, .idle, rfl, rfl⟩
    · exact ⟨.idle, .svEnd, rfl, rfl⟩
  | svClear c =>
    cases c <;> cases h
    · exact ⟨.svClear, .idle, rfl, rfl⟩
    · exact ⟨.idle, .svClear, rfl, rfl⟩
  | npeNop | npdNop | rleNop | rldNop => cases h; exact ⟨.idle, .idle, rfl, rfl⟩
  | npeByte b => cases h; exact ⟨.encByte b, .idle, rfl, rfl⟩
  | npeEnd => cases h; exact ⟨.encEnd, .idle, rfl, rfl⟩
  | npeClear => cases h; exact ⟨.encClear, .idle, rfl, rfl⟩
  | npdBit v => cases h; exact ⟨.decSymbols [v], .idle, rfl, rfl⟩
  | npdEnd => cases h; exact ⟨.decEnd, .idle, rfl, rfl⟩
  | npdClear => cases h; exact ⟨.decClear, .idle, rfl, rfl⟩
  | npLit b => cases h; exact ⟨.decSymbols (npLitBits b), .idle, rfl, rfl⟩
  | npGrp hi n lo => cases h; exact ⟨.decSymbols (npGrpBits s.cfg hi n lo), .idle, rfl, rfl⟩
  | rleByte b => cases h; exact ⟨.idle, .encByte b, rfl, rfl⟩
  | rleEnd => cases h; exact ⟨.idle, .encEnd, rfl, rfl⟩
  | rleClear => cases h; exact ⟨.idle, .encClear, rfl, rfl⟩
  | rldByte b => cases h; exact ⟨.idle, .decSymbols [b], rfl, rfl⟩
  | rldEnd => cases h; exact ⟨.idle, .decEnd, rfl, rfl⟩
  | rldClear => cases h; exact ⟨.idle, .decClear, rfl, rfl⟩
  | rlLit b => cases h; exact ⟨.idle, .decSymbols (rlLitBytes b), rfl, rfl⟩
  | rlMrk val dig => cases h; exact ⟨.idle, .decSymbols (rlMrkBytes s.cfg val dig), rfl, rfl⟩
  | cmdNew c p =>
    cases c <;> cases h
    · exact ⟨.new p, .idle, rfl, rfl⟩
    · exact ⟨.idle, .new p, rfl, rfl⟩
  | cmdEncode c =>
    cases c <;> obtain ⟨hc, rfl⟩ := eq_of_guarded_next h
    · exact ⟨.encode hc, .idle, rfl, rfl⟩
    · exact ⟨.idle, .encode hc, rfl, rfl⟩
  | cmdDecode st =>
    cases st with
    | np bits => cases h; exact ⟨.decode bits, .idle, rfl, rfl⟩
    | rl bytes => cases h; exact ⟨.idle, .decode bytes, rfl, rfl⟩
  | cmdDecodeOwn c =>
    cases c <;> obtain ⟨-, rfl⟩ := eq_of_guarded_next h
    · exact ⟨.decode (npEncoded s.np), .idle, rfl, rfl⟩
    · exact ⟨.idle, .decode (rlEncoded s.rl), rfl, rfl⟩

/-- A step that answers a next state found nothing sent, took the reset input, or ran an instruction. -/
theorem step_next_cases {s t : State} (h : step s = .next t) :
    t = s ∨ (∃ rest, t = assertReset { s with inbox := rest }) ∨
    ∃ i rest, exec i { s with inbox := rest } = .next t := by
  unfold step at h
  split at h
  case h_1 => exact .inl (Host.Outcome.next.inj h).symm
  case h_2 rest _ => exact .inr (.inl ⟨rest, (Host.Outcome.next.inj h).symm⟩)
  case h_3 r rest _ =>
    split at h
    case h_1 i _ => exact .inr (.inr ⟨i, rest, h⟩)
    case h_2 => cases h

/-- What the inbox does not show in, reset establishes and every instruction keeps, every step keeps. -/
theorem step_keeps {P : State → Prop} (hinbox : ∀ s rest, P s → P { s with inbox := rest })
    (hreset : ∀ s, P s → P (assertReset s)) (hexec : ∀ i s t, P s → exec i s = .next t → P t)
    {s t : State} (hs : P s) (h : step s = .next t) : P t := by
  obtain rfl | ⟨rest, rfl⟩ | ⟨i, rest, he⟩ := step_next_cases h
  · exact hs
  · exact hreset _ (hinbox s rest hs)
  · exact hexec i _ t (hinbox s rest hs) he

/-- Settles O54: reset keeps the parameters by `assertReset_cfg`, an instruction by `exec_instanceStep`. -/
theorem parametersNeverChange : Obligations.ParametersNeverChange := by
  intro s t h
  refine step_keeps (P := fun u => u.cfg = s.cfg) (fun _ _ hu => hu) (fun u hu => ?_) (fun i u v hu he => ?_) rfl h
  · rw [assertReset_cfg, hu]
  · obtain ⟨-, -, hcfg, -⟩ := exec_instanceStep he
    rw [hcfg, hu]

end Sys2Proof.Machine
end

section
/-! The invariants of 10_state.md R46: reset establishes them and every step keeps them. -/

namespace Sys2Proof.Machine

variable {ε δ α : Type}

/-! ### The validator's pass -/

theorem feed_svByte_phase (cfg : Config) (p : List Byte) {u : StreamUnit Unit} (h : u.ctl.phase = .run) :
    (feed (svByte cfg) p u).ctl.phase = if cfg.sentinel ∈ p then .faulted else .run := by
  induction p generalizing u with
  | nil => simpa using h
  | cons b p ih =>
    rw [feed_cons]
    by_cases hb : b = cfg.sentinel
    · have he : svByte cfg b u = { u with ctl := raiseFault .invalidInput u.ctl } :=
        symbolEvent_error h (by simp [svByteAct, hb])
      have hf : feed (svByte cfg) p (svByte cfg b u) = svByte cfg b u :=
        feed_symbolEvent_ignored (svByteAct cfg) p (by simp [he])
      rw [hf, he]
      simp [hb]
    · have he : svByte cfg b u = { ctl := advance u.ctl, dp := u.dp } :=
        symbolEvent_ok h (by simp [svByteAct, hb])
      have hne : cfg.sentinel ≠ b := fun hs => hb hs.symm
      rw [ih (by simpa [he] using h)]
      simp [hne]

/-- The validator accepts exactly the payloads without the sentinel (R114). -/
theorem svPass_done_iff (cfg : Config) (p : List Byte) (u : StreamUnit Unit) :
    (svPass cfg p u).ctl.phase = .done ↔ cfg.sentinel ∉ p := by
  have hp := feed_svByte_phase cfg p (u := svClear u) rfl
  by_cases hs : cfg.sentinel ∈ p
  · rw [if_pos hs] at hp
    have he : svEnd (feed (svByte cfg) p (svClear u)) = feed (svByte cfg) p (svClear u) :=
      endEvent_ignored (by rw [hp]; decide)
    simp [svPass, pass, he, hp, hs]
  · rw [if_neg hs] at hp
    have he : svEnd (feed (svByte cfg) p (svClear u)) = { ctl := finish _, dp := _ } := endEvent_ok hp rfl
    simp [svPass, pass, he, hs]

/-! ### One codec -/

/-- The invariants of a codec and its units, `E` being its encoder's and `D` its decoder's. -/
structure CodecInv (E : StreamUnit ε → Prop) (D : StreamUnit δ → Prop) (cfg : Config) (I : Instance ε δ) :
    Prop where
  sv : SvInv I.sv
  enc : E I.enc
  dec : D I.dec
  inst : InstanceInv cfg I

/-- `E` and `D` hold after `CLEAR` and are kept by every other event of their unit. -/
structure UnitOps.Keep (o : UnitOps ε δ α) (E : StreamUnit ε → Prop) (D : StreamUnit δ → Prop) : Prop where
  encClear : ∀ u, E (clearEvent o.encInit u)
  encByte : ∀ b u, E u → E (symbolEvent (o.encAct b) u)
  encEnd : ∀ u, E u → E (endEvent o.encEndAct u)
  decClear : ∀ u, D (clearEvent o.decInit u)
  decSymbol : ∀ x u, D u → D (symbolEvent (o.decAct x) u)
  decEnd : ∀ u, D u → D (endEvent o.decEndAct u)

theorem npOps_keep (cfg : Config) : (npOps cfg).Keep NpeInv NpdInv where
  encClear := npeClear_NpeInv
  encByte b _ := npeByte_keeps_NpeInv cfg b
  encEnd _ := npeEnd_keeps_NpeInv cfg
  decClear := npdClear_NpdInv
  decSymbol v _ := npdBit_keeps_NpdInv cfg v
  decEnd _ := npdEnd_keeps_NpdInv

theorem rlOps_keep (cfg : Config) : (rlOps cfg).Keep RleInv RldInv where
  encClear := rleClear_RleInv
  encByte b _ := rleByte_keeps_RleInv cfg b
  encEnd _ := rleEnd_keeps_RleInv cfg
  decClear := rldClear_RldInv
  decSymbol b _ := rldByte_keeps_RldInv cfg b
  decEnd _ := rldEnd_keeps_RldInv

section Keep

variable {o : UnitOps ε δ α} {E : StreamUnit ε → Prop} {D : StreamUnit δ → Prop}

theorem UnitOps.Keep.encPass (k : o.Keep E D) (p : List Byte) (u : StreamUnit ε) : E (o.encPass p u) :=
  k.encEnd _ (feed_keeps _ k.encByte p _ (k.encClear u))

theorem UnitOps.Keep.decFeed (k : o.Keep E D) (xs : List α) {u : StreamUnit δ} (h : D u) : D (o.decFeed xs u) :=
  feed_keeps _ k.decSymbol xs u h

theorem UnitOps.Keep.decPass (k : o.Keep E D) (xs : List α) (u : StreamUnit δ) : D (o.decPass xs u) :=
  k.decEnd _ (k.decFeed xs (k.decClear u))

/-- `NEW` establishes the invariant whatever the codec was: the payload is latched only when the validator accepts
it, and the flags are 0 (R201). -/
theorem newOp_InstanceInv (cfg : Config) (ie : ε) (id : δ) (p : List Byte) (I : Instance ε δ) :
    InstanceInv cfg (newOp cfg ie id p I) := by
  by_cases hp : cfg.sentinel ∈ p <;> simp [InstanceInv, newOp, svPass_done_iff, hp]

theorem InstanceStep.keeps_CodecInv (k : o.Keep E D) {cfg : Config} {I J : Instance ε δ}
    (h : CodecInv E D cfg I) (hs : InstanceStep cfg o I J) : CodecInv E D cfg J := by
  obtain ⟨hsv, henc, hdec, hi⟩ := h
  cases hs with
  | idle => exact ⟨hsv, henc, hdec, hi⟩
  | svByte b => exact ⟨svByte_keeps_SvInv cfg b hsv, henc, hdec, hi⟩
  | svEnd => exact ⟨svEnd_keeps_SvInv hsv, henc, hdec, hi⟩
  | svClear => exact ⟨svClear_SvInv _, henc, hdec, hi⟩
  | encByte b => exact ⟨hsv, k.encByte b _ henc, hdec, InstanceInv_encEvent hi fun _ => symbolEvent_ignored⟩
  | encEnd => exact ⟨hsv, k.encEnd _ henc, hdec, InstanceInv_encEvent hi fun _ => endEvent_ignored⟩
  | encClear => exact ⟨hsv, k.encClear _, hdec, InstanceInv_dropEncoded hi _⟩
  | decSymbols xs =>
    exact ⟨hsv, henc, k.decFeed xs hdec, InstanceInv_decEvent hi fun _ => feed_symbolEvent_ignored o.decAct xs⟩
  | decEnd => exact ⟨hsv, henc, k.decEnd _ hdec, InstanceInv_decEvent hi fun _ => endEvent_ignored⟩
  | decClear => exact ⟨hsv, henc, k.decClear _, InstanceInv_dropDecoded hi _⟩
  | new p => exact ⟨svPass_SvInv cfg p _, k.encClear _, k.decClear _, newOp_InstanceInv cfg _ _ p I⟩
  | encode hc => exact ⟨hsv, k.encPass _ _, hdec, encodeOp_keeps_InstanceInv hi hc _⟩
  | decode xs => exact ⟨hsv, henc, k.decPass xs _, decodeOp_keeps_InstanceInv hi _ xs⟩

end Keep

/-! ### The state -/

theorem StateInv_iff (s : State) :
    StateInv s ↔ CodecInv NpeInv NpdInv s.cfg s.np ∧ CodecInv RleInv RldInv s.cfg s.rl := by
  constructor
  · rintro ⟨nsv, nenc, ndec, ninst, rsv, renc, rdec, rinst⟩
    exact ⟨⟨nsv, nenc, ndec, ninst⟩, ⟨rsv, renc, rdec, rinst⟩⟩
  · rintro ⟨⟨nsv, nenc, ndec, ninst⟩, ⟨rsv, renc, rdec, rinst⟩⟩
    exact ⟨nsv, nenc, ndec, ninst, rsv, renc, rdec, rinst⟩

theorem InstanceInv_reset (cfg : Config) (e : ε) (d : δ) : InstanceInv cfg (Instance.reset e d) := by
  simp [InstanceInv, Instance.reset]

/-- Each unit after reset is that unit after `CLEAR` (R47). -/
theorem assertReset_StateInv (s : State) : StateInv (assertReset s) :=
  ⟨svClear_SvInv s.np.sv, npeClear_NpeInv s.np.enc, npdClear_NpdInv s.np.dec, InstanceInv_reset _ _ _,
    svClear_SvInv s.rl.sv, rleClear_RleInv s.rl.enc, rldClear_RldInv s.rl.dec, InstanceInv_reset _ _ _⟩

theorem exec_keeps_StateInv {i : Instr} {s t : State} (hs : StateInv s) (h : exec i s = .next t) : StateInv t := by
  rw [StateInv_iff] at hs ⊢
  obtain ⟨hnp, hrl⟩ := hs
  obtain ⟨np, rl, hcfg, -⟩ := exec_instanceStep h
  rw [hcfg]
  exact ⟨np.keeps_CodecInv (npOps_keep s.cfg) hnp, rl.keeps_CodecInv (rlOps_keep s.cfg) hrl⟩

/-- Settles O50: the reset state is what the reset input leaves of itself. -/
theorem resetSatisfiesTheInvariants : Obligations.ResetSatisfiesTheInvariants :=
  assertReset_StateInv State.reset

/-- Settles O51: by `step_keeps`, from `assertReset_StateInv` for the reset input and `exec_keeps_StateInv` for
instructions. -/
theorem everyStepKeepsTheInvariants : Obligations.EveryStepKeepsTheInvariants := by
  intro s t hs h
  exact step_keeps (fun _ _ hu => hu) (fun u _ => assertReset_StateInv u) (fun _ _ _ => exec_keeps_StateInv) hs h

end Sys2Proof.Machine
end

section
/-! The encoded buffer (10_state.md R44, 20_memory.md R76): while it is valid it is the encoder's result over the
payload. -/

namespace Sys2Proof.Machine

variable {ε δ α : Type}

/-- `Coherent` for one codec: a valid encoded buffer is the complete result of the encoder's pass over the payload. -/
def EncCoherent (o : UnitOps ε δ α) (I : Instance ε δ) : Prop :=
  I.encValid = true → I.enc = o.encPass I.payload I.enc ∧ I.enc.ctl.phase = .done

/-- An event that an encoder in phase `DONE` ignores keeps the buffer. -/
theorem EncCoherent_encEvent {o : UnitOps ε δ α} {I : Instance ε δ} (h : EncCoherent o I)
    {f : StreamUnit ε → StreamUnit ε} (hf : ∀ u, u.ctl.phase ≠ .run → f u = u) :
    EncCoherent o { I with enc := f I.enc } := by
  intro hv
  have hI := h hv
  have hkeep : f I.enc = I.enc := hf I.enc (by rw [hI.2]; decide)
  simpa only [hkeep] using hI

/-- `ENCODE` leaves the encoder where its pass does; a pass begins with `CLEAR`, so another one ends there too. -/
theorem EncCoherent_encodeOp (o : UnitOps ε δ α) (I : Instance ε δ) : EncCoherent o (encodeOp o.encPass I) :=
  fun hv => ⟨rfl, of_decide_eq_true hv⟩

theorem InstanceStep.keeps_EncCoherent {cfg : Config} {o : UnitOps ε δ α} {I J : Instance ε δ}
    (h : EncCoherent o I) (hs : InstanceStep cfg o I J) : EncCoherent o J := by
  cases hs with
  | idle | svByte b | svEnd | svClear => exact h
  | decSymbols xs | decEnd | decClear | decode xs => exact h
  | encByte b => exact EncCoherent_encEvent h fun _ => symbolEvent_ignored
  | encEnd => exact EncCoherent_encEvent h fun _ => endEvent_ignored
  | encClear | new p => exact fun hv => nomatch hv
  | encode hc => exact EncCoherent_encodeOp o I

theorem endEvent_phase_ne_run (act : δ → Except FaultCode δ) (u : StreamUnit δ) :
    (endEvent act u).ctl.phase ≠ .run := by
  obtain ⟨hr, he⟩ | ⟨-, f, -, he⟩ | ⟨-, d, -, he⟩ := endEvent_cases act u
  · rwa [he]
  · simp [he]
  · simp [he]

/-- `NPE` raises no fault (R22), so its pass ends in `DONE`. -/
theorem npePass_done (cfg : Config) (p : List Byte) (u : StreamUnit NpeDp) : (npePass cfg p u).ctl.phase = .done := by
  obtain ⟨⟨hfault, hcode, -⟩, -⟩ := npePass_NpeInv cfg p u
  have hnone : (npePass cfg p u).ctl.fault = .none := by simpa using hcode
  have hrun : (npePass cfg p u).ctl.phase ≠ .run := endEvent_phase_ne_run _ _
  cases hp : (npePass cfg p u).ctl.phase with
  | run => exact absurd hp hrun
  | done => rfl
  | faulted => exact absurd hnone (hfault.mpr hp)

theorem Coherent_iff (s : State) :
    Coherent s ↔ EncCoherent (npOps s.cfg) s.np ∧ EncCoherent (rlOps s.cfg) s.rl := by
  refine and_congr ⟨fun h hv => ⟨h hv, ?_⟩, fun h hv => (h hv).1⟩ Iff.rfl
  rw [h hv]
  exact npePass_done ..

theorem assertReset_Coherent (s : State) : Coherent (assertReset s) :=
  ⟨fun hv => (nomatch hv), fun hv => (nomatch hv)⟩

theorem exec_keeps_Coherent {i : Instr} {s t : State} (hs : Coherent s) (h : exec i s = .next t) : Coherent t := by
  rw [Coherent_iff] at hs ⊢
  obtain ⟨hnp, hrl⟩ := hs
  obtain ⟨np, rl, hcfg, -⟩ := exec_instanceStep h
  rw [hcfg]
  exact ⟨np.keeps_EncCoherent hnp, rl.keeps_EncCoherent hrl⟩

/-- Settles O53: by `assertReset_Coherent`, `exec_keeps_Coherent` and `step_keeps`. -/
theorem buffersStayCoherent : Obligations.BuffersStayCoherent :=
  ⟨assertReset_Coherent State.reset, fun _ _ _ => exec_keeps_Coherent, fun _ _ hs h =>
    step_keeps (fun _ _ hu => hu) (fun u _ => assertReset_Coherent u) (fun _ _ _ => exec_keeps_Coherent) hs h⟩

end Sys2Proof.Machine
end

section
/-! The two codecs are independent (10_state.md R45, 20_memory.md R78). -/

namespace Sys2Proof.Machine

/-- The outcome with its next state, if it has one, changed. -/
def mapNext (f : State → State) : Outcome → Outcome
  | .next t => .next (f t)
  | .fault r => .fault r
  | .refused r => .refused r

theorem mapNext_eq_next {f : State → State} {x : Outcome} {t : State} (h : mapNext f x = .next t) :
    ∃ u, x = .next u ∧ f u = t := by
  cases x with
  | next u => exact ⟨u, rfl, Host.Outcome.next.inj h⟩
  | fault r => cases h
  | refused r => cases h

theorem mapNext_guarded (f : State → State) (c : Prop) [Decidable c] (s : State) (r : Refusal) :
    mapNext f (if c then .next s else .refused r) = if c then .next (f s) else .refused r := by
  split <;> rfl

/-- An instruction for `NP` neither reads nor writes the other codec: putting another one in its place commutes with
the instruction. -/
theorem exec_replace_rl {i : Instr} (hi : instrCodec i = .np) (s : State) (other : Instance RleDp RldDp) :
    exec i { s with rl := other } = mapNext (fun t => { t with rl := other }) (exec i s) := by
  cases i with
  | svNop c | svByte c b | svEnd c | svClear c | cmdNew c p => cases hi; rfl
  | npeNop | npeByte b | npeEnd | npeClear | npdNop | npdBit v | npdEnd | npdClear => rfl
  | npLit b | npGrp hi n lo => rfl
  | rleNop | rleByte b | rleEnd | rleClear | rldNop | rldByte b | rldEnd | rldClear => cases hi
  | rlLit b | rlMrk val dig => cases hi
  | cmdEncode c | cmdDecodeOwn c => cases hi; simp only [exec, execCmdEncode, execCmdDecodeOwn, mapNext_guarded]
  | cmdDecode st =>
    cases st with
    | np bits => rfl
    | rl bytes => cases hi

/-- An instruction for `RL` neither reads nor writes the other codec. -/
theorem exec_replace_np {i : Instr} (hi : instrCodec i = .rl) (s : State) (other : Instance NpeDp NpdDp) :
    exec i { s with np := other } = mapNext (fun t => { t with np := other }) (exec i s) := by
  cases i with
  | svNop c | svByte c b | svEnd c | svClear c | cmdNew c p => cases hi; rfl
  | rleNop | rleByte b | rleEnd | rleClear | rldNop | rldByte b | rldEnd | rldClear => rfl
  | rlLit b | rlMrk val dig => rfl
  | npeNop | npeByte b | npeEnd | npeClear | npdNop | npdBit v | npdEnd | npdClear => cases hi
  | npLit b | npGrp hi n lo => cases hi
  | cmdEncode c | cmdDecodeOwn c => cases hi; simp only [exec, execCmdEncode, execCmdDecodeOwn, mapNext_guarded]
  | cmdDecode st =>
    cases st with
    | np bits => cases hi
    | rl bytes => rfl

section Frame

variable {i j : Instr} {s t u : State}

/-- What it does not write it keeps: put the codec of `s` itself in its place. -/
theorem exec_keeps_rl (hi : instrCodec i = .np) (h : exec i s = .next t) : t.rl = s.rl := by
  have hm : mapNext (fun t => { t with rl := s.rl }) (exec i s) = .next t := by
    rw [← exec_replace_rl hi s s.rl, ← h]
  obtain ⟨_, -, rfl⟩ := mapNext_eq_next hm
  rfl

theorem exec_keeps_np (hi : instrCodec i = .rl) (h : exec i s = .next t) : t.np = s.np := by
  have hm : mapNext (fun t => { t with np := s.np }) (exec i s) = .next t := by
    rw [← exec_replace_np hi s s.np, ← h]
  obtain ⟨_, -, rfl⟩ := mapNext_eq_next hm
  rfl

theorem exec_np_writes (hi : instrCodec i = .np) (h : exec i s = .next t) : t = { s with np := t.np } := by
  obtain ⟨-, -, hcfg, hinbox⟩ := exec_instanceStep h
  rw [← exec_keeps_rl hi h, ← hcfg, ← hinbox]

theorem exec_rl_writes (hi : instrCodec i = .rl) (h : exec i s = .next t) : t = { s with rl := t.rl } := by
  obtain ⟨-, -, hcfg, hinbox⟩ := exec_instanceStep h
  rw [← exec_keeps_np hi h, ← hcfg, ← hinbox]

theorem execAll_pair_next : execAll [i, j] s = .next t ↔ ∃ u, exec i s = .next u ∧ exec j u = .next t := by
  cases h : exec i s with
  | next u => cases hj : exec j u <;> simp [execAll, h, hj]
  | fault f => simp [execAll, h]
  | refused r => simp [execAll, h]

/-- The second of two instructions for different codecs answers the same without the first one, which then runs from
the state it leaves. -/
theorem exec_swap (hij : instrCodec i ≠ instrCodec j) (hu : exec i s = .next u) (ht : exec j u = .next t) :
    ∃ v, exec j s = .next v ∧ exec i v = .next t := by
  cases hi : instrCodec i <;> cases hj : instrCodec j
  case np.np | rl.rl => exact absurd (hi.trans hj.symm) hij
  case np.rl =>
    rw [exec_np_writes hi hu, exec_replace_np hj] at ht
    obtain ⟨v, hv, rfl⟩ := mapNext_eq_next ht
    refine ⟨v, hv, ?_⟩
    rw [exec_rl_writes hj hv, exec_replace_rl hi, hu, mapNext, exec_np_writes hi hu]
  case rl.np =>
    rw [exec_rl_writes hi hu, exec_replace_rl hj] at ht
    obtain ⟨v, hv, rfl⟩ := mapNext_eq_next ht
    refine ⟨v, hv, ?_⟩
    rw [exec_np_writes hj hv, exec_replace_np hi, hu, mapNext, exec_rl_writes hi hu]

theorem execAll_pair_swap (hij : instrCodec i ≠ instrCodec j) (h : execAll [i, j] s = .next t) :
    execAll [j, i] s = .next t := by
  obtain ⟨u, hu, ht⟩ := execAll_pair_next.mp h
  exact execAll_pair_next.mpr (exec_swap hij hu ht)

end Frame

/-- Settles O55: what is kept by the frame lemmas, what is not read by `exec_replace_rl` and `exec_replace_np`, the
order by `execAll_pair_swap` in both directions. -/
theorem instancesDoNotInterfere : Obligations.InstancesDoNotInterfere := by
  refine ⟨fun i s t h => ?_, fun i s t other hi h => ?_, fun i s t other hi h => ?_, fun i j s t hij => ?_⟩
  · obtain ⟨-, -, hcfg, hinbox⟩ := exec_instanceStep h
    exact ⟨fun hi => exec_keeps_rl hi h, fun hi => exec_keeps_np hi h, hcfg, hinbox⟩
  · rw [exec_replace_rl hi, h, mapNext]
  · rw [exec_replace_np hi, h, mapNext]
  · exact ⟨execAll_pair_swap hij, execAll_pair_swap hij.symm⟩

end Sys2Proof.Machine
end

section
/-! The cursor (10_state.md R24). -/

namespace Sys2Proof.Machine

variable {δ : Type}

/-- A symbol event counts exactly when it was processed in `RUN` and raised no fault. -/
theorem symbolEvent_inPos (act : δ → Except FaultCode δ) (u : StreamUnit δ) :
    (symbolEvent act u).ctl.inPos =
      if u.ctl.phase = .run ∧ (symbolEvent act u).ctl.phase = .run then u.ctl.inPos + 1 else u.ctl.inPos := by
  obtain ⟨hr, he⟩ | ⟨-, f, -, he⟩ | ⟨hr, d, -, he⟩ := symbolEvent_cases act u
  · simp [he, hr]
  · simp [he]
  · simp [he, hr]

theorem endEvent_inPos (act : δ → Except FaultCode δ) (u : StreamUnit δ) :
    (endEvent act u).ctl.inPos = u.ctl.inPos := by
  obtain ⟨-, he⟩ | ⟨-, f, -, he⟩ | ⟨-, d, -, he⟩ := endEvent_cases act u <;> simp [he]

/-- `NPE` raises no fault on a byte (R122). -/
theorem npeByteAct_ne_error (cfg : Config) (b : Byte) (d : NpeDp) (f : FaultCode) :
    npeByteAct cfg b d ≠ .error f := by
  unfold npeByteAct
  split
  · nofun
  · split <;> nofun

theorem npeByte_keeps_run {cfg : Config} {b : Byte} {u : StreamUnit NpeDp} (h : u.ctl.phase = .run) :
    (npeByte cfg b u).ctl.phase = .run := by
  cases ha : npeByteAct cfg b u.dp with
  | error f => exact absurd ha (npeByteAct_ne_error cfg b u.dp f)
  | ok d => simp [npeByte, symbolEvent_ok h ha, h]

theorem npeByte_inPos (cfg : Config) (b : Byte) (u : StreamUnit NpeDp) :
    (npeByte cfg b u).ctl.inPos = if u.ctl.phase = .run then u.ctl.inPos + 1 else u.ctl.inPos :=
  (symbolEvent_inPos _ u).trans (if_congr (and_iff_left_of_imp npeByte_keeps_run) rfl rfl)

/-- Settles O25: a cursor moves only with a symbol event of its unit (`symbolEvent_inPos`, `npeByte_inPos`); `END`
leaves it (`endEvent_inPos`), and every other cursor stays by what the instruction writes. -/
theorem cursorCountsProcessedSymbols : Obligations.CursorCountsProcessedSymbols := by
  refine ⟨fun s t rest hinbox h => ?_, fun i s t h => ?_⟩
  · rw [step_of_inbox_reset hinbox] at h
    cases h
    exact ⟨rfl, rfl, rfl, rfl, rfl, rfl⟩
  cases i with
  | npeNop | npdNop | rleNop | rldNop => cases h; exact ⟨rfl, rfl, rfl, rfl, rfl, rfl⟩
  | npeClear | npdClear | rleClear | rldClear => cases h; exact ⟨rfl, rfl, rfl, rfl, rfl, rfl⟩
  | svNop c | svClear c => cases c <;> cases h <;> exact ⟨rfl, rfl, rfl, rfl, rfl, rfl⟩
  | svByte c b =>
    cases c <;> cases h
    · exact ⟨symbolEvent_inPos _ _, rfl, rfl, rfl, rfl, rfl⟩
    · exact ⟨rfl, symbolEvent_inPos _ _, rfl, rfl, rfl, rfl⟩
  | svEnd c =>
    cases c <;> cases h
    · exact ⟨endEvent_inPos _ _, rfl, rfl, rfl, rfl, rfl⟩
    · exact ⟨rfl, endEvent_inPos _ _, rfl, rfl, rfl, rfl⟩
  | npeByte b => cases h; exact ⟨rfl, rfl, npeByte_inPos _ _ _, rfl, rfl, rfl⟩
  | npeEnd => cases h; exact ⟨rfl, rfl, endEvent_inPos _ _, rfl, rfl, rfl⟩
  | npdBit v => cases h; exact ⟨rfl, rfl, rfl, symbolEvent_inPos _ _, rfl, rfl⟩
  | npdEnd => cases h; exact ⟨rfl, rfl, rfl, endEvent_inPos _ _, rfl, rfl⟩
  | rleByte b => cases h; exact ⟨rfl, rfl, rfl, rfl, symbolEvent_inPos _ _, rfl⟩
  | rleEnd => cases h; exact ⟨rfl, rfl, rfl, rfl, endEvent_inPos _ _, rfl⟩
  | rldByte b => cases h; exact ⟨rfl, rfl, rfl, rfl, rfl, symbolEvent_inPos _ _⟩
  | rldEnd => cases h; exact ⟨rfl, rfl, rfl, rfl, rfl, endEvent_inPos _ _⟩
  | npLit b | npGrp hi n lo => cases h; exact ⟨rfl, rfl, rfl, trivial, rfl, rfl⟩
  | rlLit b | rlMrk val dig => cases h; exact ⟨rfl, rfl, rfl, rfl, rfl, trivial⟩
  | cmdNew c p =>
    cases c <;> cases h
    · exact ⟨trivial, rfl, rfl, rfl, rfl, rfl⟩
    · exact ⟨rfl, trivial, rfl, rfl, rfl, rfl⟩
  | cmdEncode c =>
    cases c <;> obtain ⟨-, rfl⟩ := eq_of_guarded_next h
    · exact ⟨rfl, rfl, trivial, rfl, rfl, rfl⟩
    · exact ⟨rfl, rfl, rfl, rfl, trivial, rfl⟩
  | cmdDecode st =>
    cases st <;> cases h
    · exact ⟨rfl, rfl, rfl, trivial, rfl, rfl⟩
    · exact ⟨rfl, rfl, rfl, rfl, rfl, trivial⟩
  | cmdDecodeOwn c =>
    cases c <;> obtain ⟨-, rfl⟩ := eq_of_guarded_next h
    · exact ⟨rfl, rfl, rfl, trivial, rfl, rfl⟩
    · exact ⟨rfl, rfl, rfl, rfl, rfl, trivial⟩

end Sys2Proof.Machine
end

section
/-! The encoders' passes as they run (10_state.md R46 item 7): what events do in sequence, and the batch forms of
41_nibble_pack_encoder.md and 43_run_length_encoder.md along the payload. -/

namespace Sys2Proof.Machine

/-! ### Symbol events in sequence -/

theorem execAll_cons_next {i : Instr} {is : List Instr} {s t : State} (h : exec i s = .next t) :
    execAll (i :: is) s = execAll is t := by
  rw [execAll, h]

theorem execAll_npeBytes (p : List Byte) (s : State) :
    execAll (p.map .npeByte) s = .next (onNpe (feed (npeByte s.cfg) p) s) := by
  induction p generalizing s with
  | nil => rfl
  | cons b p ih =>
    rw [List.map_cons, execAll_cons_next (t := onNpe (npeByte s.cfg b) s) rfl, ih]
    rfl

theorem execAll_rleBytes (p : List Byte) (s : State) :
    execAll (p.map .rleByte) s = .next (onRle (feed (rleByte s.cfg) p) s) := by
  induction p generalizing s with
  | nil => rfl
  | cons b p ih =>
    rw [List.map_cons, execAll_cons_next (t := onRle (rleByte s.cfg b) s) rfl, ih]
    rfl

/-! ### The block partition (R126) -/

theorem firstBlock_length_pos (b : Byte) (bs : List Byte) : 0 < (firstBlock (b :: bs)).length := by
  simp [firstBlock, npMaxBlock]

theorem npBlocksFuel_eq_of_le {k m : Nat} {p : List Byte} (hk : p.length ≤ k) (hm : p.length ≤ m) :
    npBlocksFuel k p = npBlocksFuel m p := by
  induction k generalizing m p with
  | zero =>
    rw [List.eq_nil_of_length_eq_zero (Nat.le_zero.mp hk)]
    cases m <;> rfl
  | succ k ih =>
    cases p with
    | nil => cases m <;> rfl
    | cons b bs =>
      obtain ⟨m, rfl⟩ : ∃ m', m = m' + 1 := Nat.exists_eq_succ_of_ne_zero (by simp at hm; omega)
      have hpos := firstBlock_length_pos b bs
      simp only [List.length_cons] at hk hm
      rw [npBlocksFuel, npBlocksFuel, ih (m := m)] <;> simp only [List.length_drop, List.length_cons] <;> omega

/-- More fuel than bytes changes nothing. -/
theorem npBlocksFuel_of_le {k : Nat} {p : List Byte} (h : p.length ≤ k) : npBlocksFuel k p = npBlocks p :=
  npBlocksFuel_eq_of_le h le_rfl

theorem npBlocks_cons (b : Byte) (bs : List Byte) :
    npBlocks (b :: bs) = firstBlock (b :: bs) :: npBlocks ((b :: bs).drop (firstBlock (b :: bs)).length) := by
  have hpos := firstBlock_length_pos b bs
  rw [npBlocks, List.length_cons, npBlocksFuel, npBlocksFuel_of_le]
  simp only [List.length_drop, List.length_cons]
  omega

/-- A block that the next byte does not join: it is full, or the byte has another high nibble (R122). -/
def BlockEnds (blk : List Byte) : List Byte → Prop
  | [] => True
  | b :: _ => blk.length = npMaxBlock ∨ some (hi4 b) ≠ blk.head?.map hi4

theorem firstBlock_append {b₀ : Byte} {bs rest : List Byte} (h : BlockInv (b₀ :: bs))
    (he : BlockEnds (b₀ :: bs) rest) : firstBlock (b₀ :: bs ++ rest) = b₀ :: bs := by
  obtain ⟨hlen, hhi⟩ := h
  have hall : ∀ x ∈ b₀ :: bs, decide (hi4 x = hi4 b₀) = true := fun x hx => by simpa using hhi x hx
  rw [List.cons_append, firstBlock, ← List.cons_append, List.takeWhile_append_of_pos hall]
  cases rest with
  | nil => simpa using hlen
  | cons b rest =>
    obtain hfull | hne := he
    · rw [← hfull, List.take_left]
    · have hb : ¬ hi4 b = hi4 b₀ := by simpa using hne
      simpa [List.takeWhile_cons, hb] using hlen

/-- The closed form splits where a block ends. -/
theorem npEncodeForm_append {cfg : Config} {blk rest : List Byte} (h : BlockInv blk) (he : BlockEnds blk rest) :
    npEncodeForm cfg (blk ++ rest) = closeBlock cfg blk ++ npEncodeForm cfg rest := by
  cases blk with
  | nil => rfl
  | cons b₀ bs =>
    have hfirst := firstBlock_append h he
    rw [npEncodeForm, List.cons_append, npBlocks_cons, ← List.cons_append, hfirst, List.drop_left]
    rfl

/-! ### `NPE` while it runs -/

/-- One byte moves the open block along the payload: emitted bits and the encoding of what is left stay together. -/
theorem npeByteAct_encodes {cfg : Config} {b : Byte} {d d' : NpeDp} (h : BlockInv d.blk)
    (hd : npeByteAct cfg b d = .ok d') (p : List Byte) :
    d'.acc ++ npEncodeForm cfg (d'.blk ++ p) = d.acc ++ npEncodeForm cfg (d.blk ++ b :: p) := by
  unfold npeByteAct at hd
  split at hd
  case h_1 hblk => cases hd; rw [hblk]; rfl
  case h_2 b₀ bs hblk =>
    rw [hblk] at h ⊢
    split at hd
    case isTrue hends =>
      cases hd
      have he : BlockEnds (b₀ :: bs) (b :: p) := by simpa [BlockEnds, or_comm] using hends
      rw [npEncodeForm_append h he]
      simp
    case isFalse => cases hd; simp

/-- In `RUN`, the bytes to come are encoded as if the open block preceded them. -/
theorem feed_npeByte_run (cfg : Config) (p : List Byte) {u v : StreamUnit NpeDp} (hr : u.ctl.phase = .run)
    (hb : BlockInv u.dp.blk) (hv : feed (npeByte cfg) p u = v) :
    v.ctl.phase = .run ∧ v.dp.acc ++ closeBlock cfg v.dp.blk = u.dp.acc ++ npEncodeForm cfg (u.dp.blk ++ p) := by
  induction p generalizing u with
  | nil =>
    subst hv
    refine ⟨hr, ?_⟩
    rw [npEncodeForm_append hb (show BlockEnds _ [] from trivial), show npEncodeForm cfg [] = [] from rfl]
    simp
  | cons b p ih =>
    cases ha : npeByteAct cfg b u.dp with
    | error f => exact absurd ha (npeByteAct_ne_error cfg b u.dp f)
    | ok d =>
      have hu : npeByte cfg b u = { ctl := advance u.ctl, dp := d } := symbolEvent_ok hr ha
      rw [feed_cons, hu] at hv
      obtain ⟨hphase, hbits⟩ := ih (u := { ctl := advance u.ctl, dp := d }) hr (npeByteAct_keeps_BlockInv hb ha) hv
      exact ⟨hphase, hbits.trans (npeByteAct_encodes hb ha p)⟩

/-! ### Runs (R165) -/

/-- The first run of a payload has its first byte's value. -/
theorem rlRuns_cons_head (b : Byte) (p : List Byte) : ∃ m rs, rlRuns (b :: p) = (b, m + 1) :: rs := by
  rw [rlRuns]
  split
  · exact ⟨0, [], rfl⟩
  · rename_i v n rs _
    split
    · next h => exact ⟨n, rs, by rw [h]⟩
    · exact ⟨0, (v, n) :: rs, rfl⟩

theorem rlRuns_replicate_append_of_ne {n : Nat} {v b : Byte} {p : List Byte} (hb : b ≠ v) :
    rlRuns (List.replicate (n + 1) v ++ b :: p) = (v, n + 1) :: rlRuns (b :: p) := by
  induction n with
  | zero =>
    obtain ⟨m, rs, h⟩ := rlRuns_cons_head b p
    simp [rlRuns.eq_2 v, h, hb.symm]
  | succ n ih => rw [List.replicate_succ, List.cons_append, rlRuns, ih]; simp

theorem rlRuns_replicate (n : Nat) (v : Byte) : rlRuns (List.replicate (n + 1) v) = [(v, n + 1)] := by
  induction n with
  | zero => rfl
  | succ n ih => rw [List.replicate_succ, rlRuns, ih]; simp

/-- A payload that begins with `n` equal bytes has a run of at least `n`. -/
theorem exists_run_of_replicate_append (n : Nat) (v : Byte) (p : List Byte) :
    ∃ r ∈ rlRuns (List.replicate (n + 1) v ++ p), n + 1 ≤ r.2 := by
  suffices ∃ m rs, rlRuns (List.replicate (n + 1) v ++ p) = (v, m) :: rs ∧ n + 1 ≤ m by
    obtain ⟨m, rs, h, hm⟩ := this
    exact ⟨(v, m), by simp [h], hm⟩
  induction n with
  | zero =>
    obtain ⟨m, rs, h⟩ := rlRuns_cons_head v p
    exact ⟨m + 1, rs, h, by omega⟩
  | succ n ih =>
    obtain ⟨m, rs, h, hm⟩ := ih
    refine ⟨m + 1, rs, ?_, by omega⟩
    rw [List.replicate_succ, List.cons_append, rlRuns, h]
    simp

theorem firstLongRun_eq_none {rs : List (Byte × Nat)} (h : ∀ r ∈ rs, r.2 ≤ rlMaxRun) (start : Nat) :
    firstLongRun start rs = none := by
  induction rs generalizing start with
  | nil => rfl
  | cons r rs ih =>
    have hr : ¬ r.2 > rlMaxRun := Nat.not_lt.mpr (h r (by simp))
    rw [firstLongRun, if_neg hr]
    exact ih (fun x hx => h x (by simp [hx])) _

theorem rlEncodeForm_of_short {cfg : Config} {p : List Byte} (h : ∀ r ∈ rlRuns p, r.2 ≤ rlMaxRun) :
    rlEncodeForm cfg p = .ok ((rlRuns p).flatMap (runToken cfg)) := by
  rw [rlEncodeForm, firstLongRun_eq_none h]

/-- Closing a run (R160) gives its token of the closed form. -/
theorem closeRun_eq_runToken (cfg : Config) (v : Byte) (n : BitVec 4) :
    closeRun cfg v n = runToken cfg (v, n.toNat) := by
  rw [closeRun, runToken, rlMrkBytes, digitOf, BitVec.ofNat_toNat]

/-! ### `RLE` while it runs -/

/-- The bytes of the open run. -/
def Run.bytes : Run → List Byte
  | .none => []
  | .opened v n => List.replicate n.toNat v

/-- The open run closed (R163). -/
def Run.closed (cfg : Config) : Run → List Byte
  | .none => []
  | .opened v n => closeRun cfg v n

theorem flatMap_runToken_bytes (cfg : Config) {r : Run} (h : RunInv r) :
    (rlRuns r.bytes).flatMap (runToken cfg) = r.closed cfg := by
  cases r with
  | none => rfl
  | opened v n =>
    obtain ⟨k, hk⟩ : ∃ k, n.toNat = k + 1 := Nat.exists_eq_succ_of_ne_zero (by simp [RunInv, runLen] at h; omega)
    rw [Run.bytes, Run.closed, closeRun_eq_runToken, hk, rlRuns_replicate]
    simp

/-- A byte that makes no run exceed 9 raises no fault, and moves the open run along the payload. -/
theorem rleByteAct_encodes (cfg : Config) {b : Byte} {d : RleDp} {p : List Byte} (hi : RunInv d.run)
    (hshort : ∀ r ∈ rlRuns (d.run.bytes ++ b :: p), r.2 ≤ rlMaxRun) :
    ∃ d', rleByteAct cfg b d = .ok d' ∧ (∀ r ∈ rlRuns (d'.run.bytes ++ p), r.2 ≤ rlMaxRun) ∧
      d'.out ++ (rlRuns (d'.run.bytes ++ p)).flatMap (runToken cfg) =
        d.out ++ (rlRuns (d.run.bytes ++ b :: p)).flatMap (runToken cfg) := by
  obtain ⟨run, out⟩ := d
  cases run with
  | none => exact ⟨_, rfl, hshort, rfl⟩
  | opened v n =>
    obtain ⟨hn1, hn9⟩ : 1 ≤ n.toNat ∧ n.toNat ≤ 9 := by simpa [RunInv, runLen, rlMaxRun] using hi
    by_cases hb : b = v
    · subst hb
      have hsucc : (n + 1).toNat = n.toNat + 1 := by rw [BitVec.toNat_add]; simp; omega
      have hbytes : (Run.opened b (n + 1)).bytes ++ p = (Run.opened b n).bytes ++ b :: p := by
        rw [Run.bytes, Run.bytes, hsucc, List.replicate_succ']
        simp
      have hroom : n.toNat ≠ rlMaxRun := by
        intro hfull
        obtain ⟨r, hr, hlong⟩ := exists_run_of_replicate_append n.toNat b p
        rw [← hsucc] at hr
        have := hshort r (by rwa [← hbytes])
        omega
      exact ⟨⟨.opened b (n + 1), out⟩, by simp [rleByteAct, hroom], by rwa [hbytes], by rw [hbytes]⟩
    · obtain ⟨k, hk⟩ : ∃ k, n.toNat = k + 1 := Nat.exists_eq_succ_of_ne_zero (by omega)
      have hruns : rlRuns ((Run.opened v n).bytes ++ b :: p) = (v, n.toNat) :: rlRuns (b :: p) := by
        rw [Run.bytes, hk, rlRuns_replicate_append_of_ne hb]
      refine ⟨⟨.opened b 1, out ++ closeRun cfg v n⟩, by simp [rleByteAct, hb], fun r hr => ?_, ?_⟩
      · exact hshort r (by rw [hruns]; exact List.mem_cons_of_mem _ hr)
      · rw [hruns, closeRun_eq_runToken, List.flatMap_cons, List.append_assoc]
        rfl

/-- In `RUN`, while no run exceeds 9, the bytes to come are encoded as if the open run preceded them. -/
theorem feed_rleByte_run (cfg : Config) (p : List Byte) {u v : StreamUnit RleDp} (hr : u.ctl.phase = .run)
    (hi : RunInv u.dp.run) (hshort : ∀ r ∈ rlRuns (u.dp.run.bytes ++ p), r.2 ≤ rlMaxRun)
    (hv : feed (rleByte cfg) p u = v) :
    v.ctl.phase = .run ∧
    v.dp.out ++ v.dp.run.closed cfg = u.dp.out ++ (rlRuns (u.dp.run.bytes ++ p)).flatMap (runToken cfg) := by
  induction p generalizing u with
  | nil =>
    subst hv
    exact ⟨hr, by rw [List.append_nil, flatMap_runToken_bytes cfg hi]; rfl⟩
  | cons b p ih =>
    obtain ⟨d, ha, hshort', henc⟩ := rleByteAct_encodes cfg hi hshort
    have hu : rleByte cfg b u = { ctl := advance u.ctl, dp := d } := symbolEvent_ok hr ha
    rw [feed_cons, hu] at hv
    obtain ⟨hphase, hbytes⟩ :=
      ih (u := { ctl := advance u.ctl, dp := d }) hr (rleByteAct_keeps_RunInv hi ha) hshort' hv
    exact ⟨hphase, hbytes.trans henc⟩

/-- Settles O52: `CLEAR` leaves an encoder in `RUN` with nothing emitted and nothing open, from where
`feed_npeByte_run` and `feed_rleByte_run` say what the bytes leave. -/
theorem encoderHoldsTheEncodingSoFar : Obligations.EncoderHoldsTheEncodingSoFar := by
  intro s p
  constructor
  · obtain ⟨hphase, hbits⟩ := feed_npeByte_run s.cfg p (u := npeClear s.np.enc) rfl BlockInv_nil rfl
    have hclear : exec .npeClear s = .next (dropEncoded .np (onNpe npeClear s)) := rfl
    exact ⟨_, (execAll_cons_next hclear).trans (execAll_npeBytes p _), hphase, hbits⟩
  · intro hshort
    obtain ⟨hphase, hbytes⟩ := feed_rleByte_run s.cfg p (u := rleClear s.rl.enc) rfl (.inl rfl) hshort rfl
    have hclear : exec .rleClear s = .next (dropEncoded .rl (onRle rleClear s)) := rfl
    refine ⟨_, (execAll_cons_next hclear).trans (execAll_rleBytes p _), hphase, ?_⟩
    rw [rlEncodeForm_of_short hshort]
    exact congrArg _ hbytes.symm

end Sys2Proof.Machine
end

section
/-! Fields of the nibble-pack stream (20_memory.md R65, 30_encoding.md R81, R82). -/

namespace Sys2Proof

/-- R65: bit `k` of a field of `n` bits is bit `n - 1 - k` of its value. -/
theorem bitsMsb_getElem? {n k : Nat} (v : BitVec n) (hk : k < n) : (bitsMsb v)[k]? = some (v.getLsbD (n - 1 - k)) := by
  simp [bitsMsb, BitVec.getMsbD, hk]

/-- What stands behind `m` elements is found `m` places on. -/
theorem getElem?_append_add {α : Type} {xs ys : List α} {m : Nat} (hm : xs.length = m) (k : Nat) :
    (xs ++ ys)[m + k]? = ys[k]? := by
  rw [List.getElem?_append_right (by omega), hm, Nat.add_sub_cancel_left]

/-- R65: bit `k` of a field, whatever stands behind the field. -/
theorem bitsMsb_append_getElem? {n k : Nat} (v : BitVec n) (rest : List Bit) (hk : k < n) :
    (bitsMsb v ++ rest)[k]? = some (v.getLsbD (n - 1 - k)) := by
  rw [List.getElem?_append_left (by simpa using hk), bitsMsb_getElem? v hk]

/-- Fields of four bits follow one another without a gap. -/
theorem flatMap_bitsMsb_getElem? {lo : List Nibble} {j : Nat} {x : Nibble} (hj : lo[j]? = some x) {k : Nat}
    (hk : k < 4) : (lo.flatMap bitsMsb)[4 * j + k]? = some (x.getLsbD (3 - k)) := by
  induction lo generalizing j with
  | nil => cases hj
  | cons y lo ih =>
    rw [List.flatMap_cons]
    cases j with
    | zero =>
      obtain rfl : y = x := by simpa using hj
      rw [Nat.mul_zero, Nat.zero_add]
      exact bitsMsb_append_getElem? y _ hk
    | succ j =>
      have hpos : 4 * (j + 1) + k = 4 + (4 * j + k) := by omega
      rw [hpos, getElem?_append_add (Machine.bitsMsb_length y)]
      exact ih (by simpa using hj)

theorem length_flatMap_bitsMsb (lo : List Nibble) : (lo.flatMap bitsMsb).length = 4 * lo.length := by
  induction lo with
  | nil => rfl
  | cons x lo ih => rw [List.flatMap_cons, List.length_append, ih, Machine.bitsMsb_length, List.length_cons]; omega

theorem length_npGrpBits (cfg : Config) (hi n : Nibble) (lo : List Nibble) :
    (npGrpBits cfg hi n lo).length = 16 + 4 * lo.length := by
  simp [npGrpBits, -List.length_flatMap, length_flatMap_bitsMsb]
  omega

/-- Settles O9: a literal is one field (`bitsMsb_getElem?`); in a group each field is found behind the lengths of those
before it, the low nibbles by `flatMap_bitsMsb_getElem?`. -/
theorem streamFieldsAreMostSignificantBitFirst : Obligations.StreamFieldsAreMostSignificantBitFirst := by
  refine ⟨fun b k => bitsMsb_getElem? b, fun cfg hi n lo => ⟨fun k hk => ?_, fun k hk => ?_, fun k hk => ?_,
    fun j x hj k hk => ?_, length_npGrpBits cfg hi n lo⟩⟩
  · rw [npGrpBits, List.append_assoc, List.append_assoc]
    exact bitsMsb_append_getElem? cfg.sentinel _ hk
  · rw [npGrpBits, List.append_assoc, List.append_assoc, getElem?_append_add (by simp)]
    exact bitsMsb_append_getElem? hi _ hk
  · rw [npGrpBits, List.append_assoc, getElem?_append_add (by simp)]
    exact bitsMsb_append_getElem? n _ hk
  · rw [npGrpBits, Nat.add_assoc, getElem?_append_add (by simp)]
    exact flatMap_bitsMsb_getElem? hj hk

end Sys2Proof
end

section
/-! Accumulators only grow (20_memory.md R64), one event by no more than the widths table says (R70). -/

namespace Sys2Proof.Machine

variable {α δ : Type}

/-- The accumulator `acc` of a datapath has had something appended that satisfies `P` (R64). -/
def Appends (acc : δ → List α) (P : List α → Prop) (d d' : δ) : Prop :=
  ∃ l, acc d' = acc d ++ l ∧ P l

section Appends

variable {acc : δ → List α} {P Q : List α → Prop} {d d' : δ}

theorem Appends.of_eq (h : acc d' = acc d) (hnil : P []) : Appends acc P d d' := ⟨[], by simpa using h, hnil⟩

theorem Appends.isPrefix (h : Appends acc P d d') : acc d <+: acc d' := by
  obtain ⟨l, hl, -⟩ := h
  exact ⟨l, hl.symm⟩

theorem Appends.mono (h : Appends acc P d d') (hPQ : ∀ l, P l → Q l) : Appends acc Q d d' := by
  obtain ⟨l, hl, hP⟩ := h
  exact ⟨l, hl, hPQ l hP⟩

/-- A symbol event that is ignored or raises a fault appends nothing. -/
theorem symbolEvent_appends {act : δ → Except FaultCode δ} {u : StreamUnit δ} (hnil : P [])
    (h : ∀ d, act u.dp = .ok d → Appends acc P u.dp d) : Appends acc P u.dp (symbolEvent act u).dp := by
  obtain ⟨-, he⟩ | ⟨-, f, -, he⟩ | ⟨-, d, ha, he⟩ := symbolEvent_cases act u <;> rw [he]
  · exact .of_eq rfl hnil
  · exact .of_eq rfl hnil
  · exact h d ha

/-- `END` that is ignored or raises a fault appends nothing. -/
theorem endEvent_appends {act : δ → Except FaultCode δ} {u : StreamUnit δ} (hnil : P [])
    (h : ∀ d, act u.dp = .ok d → Appends acc P u.dp d) : Appends acc P u.dp (endEvent act u).dp := by
  obtain ⟨-, he⟩ | ⟨-, f, -, he⟩ | ⟨-, d, ha, he⟩ := endEvent_cases act u <;> rw [he]
  · exact .of_eq rfl hnil
  · exact .of_eq rfl hnil
  · exact h d ha

end Appends

theorem feed_isPrefix {β υ : Type} {symbol : β → υ → υ} {acc : υ → List α}
    (h : ∀ x u, acc u <+: acc (symbol x u)) (xs : List β) (u : υ) : acc u <+: acc (feed symbol xs u) :=
  feed_keeps symbol (P := fun v => acc u <+: acc v) (fun x v hv => hv.trans (h x v)) xs u List.prefix_rfl

/-! ### What each unit appends -/

/-- `NPE` appends nothing or the open block closed (R122). -/
theorem npeByte_appends (cfg : Config) (b : Byte) (u : StreamUnit NpeDp) :
    Appends NpeDp.acc (fun l => l = [] ∨ l = closeBlock cfg u.dp.blk) u.dp (npeByte cfg b u).dp := by
  refine symbolEvent_appends (.inl rfl) fun d hd => ?_
  unfold npeByteAct at hd
  split at hd
  case h_1 => cases hd; exact .of_eq rfl (.inl rfl)
  case h_2 hblk =>
    split at hd <;> cases hd
    case isTrue => exact ⟨_, rfl, .inr (by rw [hblk])⟩
    case isFalse => exact .of_eq rfl (.inl rfl)

/-- `NPE.END` appends nothing or the open block closed (R123). -/
theorem npeEnd_appends (cfg : Config) (u : StreamUnit NpeDp) :
    Appends NpeDp.acc (fun l => l = [] ∨ l = closeBlock cfg u.dp.blk) u.dp (npeEnd cfg u).dp := by
  refine endEvent_appends (.inl rfl) fun d hd => ?_
  unfold npeEndAct at hd
  split at hd <;> cases hd
  case h_1 => exact .of_eq rfl (.inl rfl)
  case h_2 hblk => exact ⟨_, rfl, .inr (by rw [hblk])⟩

/-- A complete field gives a byte only if it is a literal or a low nibble (R143, R146). -/
theorem fieldDone_appends {cfg : Config} {f : Byte} {d d' : NpdDp} (h : fieldDone cfg f d = .ok d') :
    Appends NpdDp.out (fun l => l.length ≤ 1) d d' := by
  have hnone {e : NpdDp} (he : e.out = d.out) : Appends NpdDp.out (fun l => l.length ≤ 1) d e :=
    .of_eq he (Nat.zero_le _)
  unfold fieldDone at h
  split at h
  case h_1 =>
    unfold litFieldDone at h
    split at h <;> cases h
    · exact hnone rfl
    · exact ⟨[f], rfl, le_rfl⟩
  case h_2 => cases h; exact hnone rfl
  case h_3 =>
    unfold cntFieldDone at h
    split at h
    · cases h
    · split at h <;> cases h <;> exact hnone rfl
  case h_4 g _ =>
    unfold loFieldDone at h
    split at h <;> cases h <;> exact ⟨[joinNibbles g (lo4 f)], rfl, le_rfl⟩

/-- `NPD` appends at most one byte (R142). -/
theorem npdBit_appends (cfg : Config) (v : Bit) (u : StreamUnit NpdDp) :
    Appends NpdDp.out (fun l => l.length ≤ 1) u.dp (npdBit cfg v u).dp := by
  refine symbolEvent_appends (Nat.zero_le _) fun d hd => ?_
  unfold npdBitAct at hd
  split at hd
  case isTrue => cases hd; exact .of_eq rfl (Nat.zero_le _)
  case isFalse =>
    obtain ⟨l, hl, hlen⟩ := fieldDone_appends hd
    exact ⟨l, hl, hlen⟩

/-- `NPD.END` produces no byte (R147). -/
theorem npdEnd_appends (u : StreamUnit NpdDp) : Appends NpdDp.out (fun l => l = []) u.dp (npdEnd u).dp := by
  refine endEvent_appends rfl fun d hd => ?_
  unfold npdEndAct at hd
  split at hd <;> cases hd
  exact .of_eq rfl rfl

/-- `RLE` appends nothing or the open run closed (R162). -/
theorem rleByte_appends (cfg : Config) (b : Byte) (u : StreamUnit RleDp) :
    Appends RleDp.out (fun l => l = [] ∨ l = u.dp.run.closed cfg) u.dp (rleByte cfg b u).dp := by
  refine symbolEvent_appends (.inl rfl) fun d hd => ?_
  unfold rleByteAct at hd
  split at hd
  case h_1 => cases hd; exact .of_eq rfl (.inl rfl)
  case h_2 hrun =>
    split at hd
    case isTrue => split at hd <;> cases hd; exact .of_eq rfl (.inl rfl)
    case isFalse => cases hd; exact ⟨_, rfl, .inr (by rw [hrun, Run.closed])⟩

/-- `RLE.END` appends nothing or the open run closed (R163). -/
theorem rleEnd_appends (cfg : Config) (u : StreamUnit RleDp) :
    Appends RleDp.out (fun l => l = [] ∨ l = u.dp.run.closed cfg) u.dp (rleEnd cfg u).dp := by
  refine endEvent_appends (.inl rfl) fun d hd => ?_
  unfold rleEndAct at hd
  split at hd <;> cases hd
  case h_1 => exact .of_eq rfl (.inl rfl)
  case h_2 hrun => exact ⟨_, rfl, .inr (by rw [hrun, Run.closed])⟩

/-- A digit stands for at most 9 (R88). -/
theorem digitValue_le_of_isDigit {b : Byte} (h : isDigit b = true) : digitValue b ≤ 9 := by
  obtain ⟨hlo, hhi⟩ := Bool.and_eq_true_iff.mp h
  have hlo : 0x30#8 ≤ b := of_decide_eq_true hlo
  have hhi : b ≤ 0x39#8 := of_decide_eq_true hhi
  rw [digitValue, digitBase]
  bv_omega

/-- `RLD` appends a literal's byte or as many as the digit says (R181, R183). -/
theorem rldByte_appends (cfg : Config) (b : Byte) (u : StreamUnit RldDp) :
    Appends RldDp.out (fun l => l.length ≤ rlMaxRun) u.dp (rldByte cfg b u).dp := by
  refine symbolEvent_appends (Nat.zero_le _) fun d hd => ?_
  unfold rldByteAct at hd
  split at hd
  case h_1 =>
    split at hd <;> cases hd
    · exact .of_eq rfl (Nat.zero_le _)
    · exact ⟨[b], rfl, by simp [rlMaxRun]⟩
  case h_2 => cases hd; exact .of_eq rfl (Nat.zero_le _)
  case h_3 v _ =>
    split at hd <;> cases hd
    case isTrue hdigit =>
      exact ⟨List.replicate (digitValue b) v, rfl, by simpa [rlMaxRun] using digitValue_le_of_isDigit hdigit⟩

/-- `RLD.END` produces no byte (R184). -/
theorem rldEnd_appends (u : StreamUnit RldDp) : Appends RldDp.out (fun l => l = []) u.dp (rldEnd u).dp := by
  refine endEvent_appends rfl fun d hd => ?_
  unfold rldEndAct at hd
  split at hd <;> cases hd
  exact .of_eq rfl rfl

/-- Settles O26: what an event appends stands behind the old content (`Appends.isPrefix`), so do a token's symbols
(`feed_isPrefix`), and an instruction that is not for the unit leaves its accumulator. -/
theorem accumulatorsAreAppendOnly : Obligations.AccumulatorsAreAppendOnly := by
  refine ⟨fun s t rest hinbox h => ?_, fun i s t h => ?_⟩
  · rw [step_of_inbox_reset hinbox] at h
    cases h
    exact ⟨rfl, rfl, rfl, rfl⟩
  have npd (bits : List Bit) : s.np.dec.dp.out <+: (feed (npdBit s.cfg) bits s.np.dec).dp.out :=
    feed_isPrefix (acc := fun u => u.dp.out) (fun v u => (npdBit_appends s.cfg v u).isPrefix) bits _
  have rld (bytes : List Byte) : s.rl.dec.dp.out <+: (feed (rldByte s.cfg) bytes s.rl.dec).dp.out :=
    feed_isPrefix (acc := fun u => u.dp.out) (fun b u => (rldByte_appends s.cfg b u).isPrefix) bytes _
  have same {α : Type} (l : List α) : l <+: l := List.prefix_rfl
  cases i with
  | svNop c | svByte c b | svEnd c | svClear c => cases c <;> cases h <;> exact ⟨same _, same _, same _, same _⟩
  | npeNop | npdNop | rleNop | rldNop => cases h; exact ⟨same _, same _, same _, same _⟩
  | npeByte b => cases h; exact ⟨(npeByte_appends _ _ _).isPrefix, same _, same _, same _⟩
  | npeEnd => cases h; exact ⟨(npeEnd_appends _ _).isPrefix, same _, same _, same _⟩
  | npeClear => cases h; exact ⟨rfl, same _, same _, same _⟩
  | npdBit v => cases h; exact ⟨same _, npd [v], same _, same _⟩
  | npdEnd => cases h; exact ⟨same _, (npdEnd_appends _).isPrefix, same _, same _⟩
  | npdClear => cases h; exact ⟨same _, rfl, same _, same _⟩
  | rleByte b => cases h; exact ⟨same _, same _, (rleByte_appends _ _ _).isPrefix, same _⟩
  | rleEnd => cases h; exact ⟨same _, same _, (rleEnd_appends _ _).isPrefix, same _⟩
  | rleClear => cases h; exact ⟨same _, same _, rfl, same _⟩
  | rldByte b => cases h; exact ⟨same _, same _, same _, rld [b]⟩
  | rldEnd => cases h; exact ⟨same _, same _, same _, (rldEnd_appends _).isPrefix⟩
  | rldClear => cases h; exact ⟨same _, same _, same _, rfl⟩
  | npLit b | npGrp hi n lo => cases h; exact ⟨same _, npd _, same _, same _⟩
  | rlLit b | rlMrk val dig => cases h; exact ⟨same _, same _, same _, rld _⟩
  | cmdNew c p =>
    cases c <;> cases h
    · exact ⟨rfl, rfl, same _, same _⟩
    · exact ⟨same _, same _, rfl, rfl⟩
  | cmdEncode c =>
    cases c <;> obtain ⟨-, rfl⟩ := eq_of_guarded_next h
    · exact ⟨trivial, same _, same _, same _⟩
    · exact ⟨same _, same _, trivial, same _⟩
  | cmdDecode st =>
    cases st <;> cases h
    · exact ⟨same _, trivial, same _, same _⟩
    · exact ⟨same _, same _, same _, trivial⟩
  | cmdDecodeOwn c =>
    cases c <;> obtain ⟨-, rfl⟩ := eq_of_guarded_next h
    · exact ⟨same _, trivial, same _, same _⟩
    · exact ⟨same _, same _, same _, trivial⟩

/-! ### The lengths (R70) -/

/-- R120: up to three bytes are literals of 8 bits; more are one group. No block has no bits. -/
theorem length_closeBlock (cfg : Config) (blk : List Byte) :
    (closeBlock cfg blk).length = if blk.length ≤ npLitMax then 8 * blk.length else 16 + 4 * blk.length := by
  cases blk with
  | nil => rfl
  | cons b₀ bs =>
    rw [closeBlock]
    split
    · simp [npLitBits, List.length_flatMap]
      omega
    · rw [length_npGrpBits, List.length_map]

/-- The lengths `NPE` can append at one event (R70). -/
def NpeAppendLength (l : List Bit) : Prop :=
  l.length = 0 ∨ (∃ n, 1 ≤ n ∧ n ≤ 3 ∧ l.length = 8 * n) ∨ ∃ n, 4 ≤ n ∧ n ≤ 15 ∧ l.length = 16 + 4 * n

theorem NpeAppendLength_closeBlock (cfg : Config) {blk : List Byte} (h : BlockInv blk) :
    NpeAppendLength (closeBlock cfg blk) := by
  have hlen := length_closeBlock cfg blk
  have hmax : blk.length ≤ 15 := h.1
  split at hlen
  case isTrue hlit =>
    rw [npLitMax] at hlit
    obtain hnil | hpos := Nat.eq_zero_or_pos blk.length
    · exact .inl (by rw [hlen, hnil])
    · exact .inr (.inl ⟨_, hpos, hlit, hlen⟩)
  case isFalse hgrp =>
    rw [npLitMax] at hgrp
    exact .inr (.inr ⟨_, by omega, hmax, hlen⟩)

/-- R160: a marker has three bytes, and a run that is not a marker at most three. -/
theorem length_closed_le (cfg : Config) (r : Run) : (r.closed cfg).length ≤ 3 := by
  cases r with
  | none => exact Nat.zero_le _
  | opened v n =>
    rw [Run.closed, closeRun]
    split
    case isTrue => exact le_rfl
    case isFalse hlit => simpa [rlLitMax] using hlit

/-- Settles O27: what one event appends is said unit by unit above; closed blocks and closed runs have the lengths of
`NpeAppendLength_closeBlock` and `length_closed_le`. -/
theorem oneEventAppendsABoundedLength : Obligations.OneEventAppendsABoundedLength := by
  intro s t
  refine ⟨fun i hi hinv h => ?_, fun v h => ?_, fun i hi hinv h => ?_, fun b h => ?_, fun h => ?_, fun h => ?_⟩
  · have hlen (l : List Bit) (hl : l = [] ∨ l = closeBlock s.cfg s.np.enc.dp.blk) : NpeAppendLength l := by
      obtain rfl | rfl := hl
      · exact .inl rfl
      · exact NpeAppendLength_closeBlock s.cfg hinv.2.1
    obtain ⟨b, rfl⟩ | rfl := hi <;> cases h
    · exact (npeByte_appends s.cfg b s.np.enc).mono hlen
    · exact (npeEnd_appends s.cfg s.np.enc).mono hlen
  · cases h; exact npdBit_appends s.cfg v s.np.dec
  · have hlen (l : List Byte) (hl : l = [] ∨ l = s.rl.enc.dp.run.closed s.cfg) : l.length ≤ 3 := by
      obtain rfl | rfl := hl
      · exact Nat.zero_le _
      · exact length_closed_le s.cfg _
    obtain ⟨b, rfl⟩ | rfl := hi <;> cases h
    · exact (rleByte_appends s.cfg b s.rl.enc).mono hlen
    · exact (rleEnd_appends s.cfg s.rl.enc).mono hlen
  · cases h; exact rldByte_appends s.cfg b s.rl.dec
  · cases h
    obtain ⟨_, hout, rfl⟩ := npdEnd_appends s.np.dec
    exact hout.trans (List.append_nil _)
  · cases h
    obtain ⟨_, hout, rfl⟩ := rldEnd_appends s.rl.dec
    exact hout.trans (List.append_nil _)

end Sys2Proof.Machine
end

section
/-! The payload (20_memory.md R61). -/

namespace Sys2Proof.Machine

/-- Settles O56: no arm but `NEW`'s writes the two registers, and `NEW` writes those of its own codec only. -/
theorem payloadIsImmutableAfterNew : Obligations.PayloadIsImmutableAfterNew := by
  intro i s t h
  cases i with
  | svNop c | svByte c b | svEnd c | svClear c =>
    cases c <;> cases h <;> exact ⟨fun _ => ⟨rfl, rfl⟩, fun _ => ⟨rfl, rfl⟩⟩
  | npeNop | npeByte b | npeEnd | npeClear | npdNop | npdBit v | npdEnd | npdClear | npLit b | npGrp hi n lo =>
    cases h; exact ⟨fun _ => ⟨rfl, rfl⟩, fun _ => ⟨rfl, rfl⟩⟩
  | rleNop | rleByte b | rleEnd | rleClear | rldNop | rldByte b | rldEnd | rldClear | rlLit b | rlMrk val dig =>
    cases h; exact ⟨fun _ => ⟨rfl, rfl⟩, fun _ => ⟨rfl, rfl⟩⟩
  | cmdNew c p =>
    cases c <;> cases h
    · exact ⟨fun hnew => absurd rfl (hnew p), fun _ => ⟨rfl, rfl⟩⟩
    · exact ⟨fun _ => ⟨rfl, rfl⟩, fun hnew => absurd rfl (hnew p)⟩
  | cmdEncode c | cmdDecodeOwn c =>
    cases c <;> obtain ⟨-, rfl⟩ := eq_of_guarded_next h
    all_goals exact ⟨fun _ => ⟨rfl, rfl⟩, fun _ => ⟨rfl, rfl⟩⟩
  | cmdDecode st => cases st <;> cases h <;> exact ⟨fun _ => ⟨rfl, rfl⟩, fun _ => ⟨rfl, rfl⟩⟩

end Sys2Proof.Machine
end

section
/-! Buffers that a unit-level `CLEAR` has emptied (20_memory.md R63, R76; 70_reset_and_hazards.md R254, R256). -/

namespace Sys2Proof.Machine

/-- Instructions that always complete and keep `P`, sent after one that establishes it, complete in sequence and keep
it. -/
theorem exists_execAll_cons {P : State → Prop} {i : Instr} {is : List Instr} {s u : State} (hi : exec i s = .next u)
    (h : ∀ j ∈ is, ∀ v, P v → ∃ t, exec j v = .next t ∧ P t) (hu : P u) :
    ∃ t, execAll (i :: is) s = .next t ∧ P t := by
  rw [execAll_cons_next hi]
  clear hi
  induction is generalizing u with
  | nil => exact ⟨u, rfl, hu⟩
  | cons j is ih =>
    obtain ⟨v, hj, hv⟩ := h j (by simp) u hu
    rw [execAll_cons_next hj]
    exact ih (fun k hk => h k (List.mem_cons_of_mem _ hk)) hv

theorem eq_event_or_eq_stop {event : Byte → Instr} {stop i : Instr} {p : List Byte}
    (h : i ∈ p.map event ++ [stop]) : (∃ b, i = event b) ∨ i = stop := by
  obtain hi | hi := List.mem_append.mp h
  · obtain ⟨b, -, rfl⟩ := List.mem_map.mp hi
    exact .inl ⟨b, rfl⟩
  · exact .inr (List.mem_singleton.mp hi)

/-- Without the codec's flag an accumulator is no result (R63). -/
theorem opResult_ne_ok {α : Type} {valid : Bool} (hv : valid = false) (r : Option (Result α)) (v : α) :
    opResult valid r ≠ some (.ok v) := by
  subst hv
  rcases r with _ | (_ | _) <;> simp [opResult]

/-- `NPE` raises no fault (R22), so without the flag there is no result at all. -/
theorem npEncodeResult_eq_none {I : Instance NpeDp NpdDp} (hv : I.encValid = false) (hinv : NpeInv I.enc) :
    npEncodeResult I = none := by
  obtain ⟨⟨hfault, hcode, -⟩, -⟩ := hinv
  have hnone : I.enc.ctl.fault = .none := by simpa using hcode
  cases hp : I.enc.ctl.phase with
  | faulted => exact absurd hnone (hfault.mpr hp)
  | run | done => simp [npEncodeResult, unitResult, opResult, hp, hv]

theorem exec_decodeOwn_np_refused {s : State} (hv : s.np.encValid = false) :
    exec (.cmdDecodeOwn .np) s = .refused (.noEncodedStream .np) := by
  simp [exec, execCmdDecodeOwn, hv]

theorem exec_decodeOwn_rl_refused {s : State} (hv : s.rl.encValid = false) :
    exec (.cmdDecodeOwn .rl) s = .refused (.noEncodedStream .rl) := by
  simp [exec, execCmdDecodeOwn, hv]

/-- `NPE`'s own events do not set `ENC_VALID`, so what follows its `CLEAR` is no result of the codec. -/
theorem npeClear_leaves_no_result {is : List Instr} (his : ∀ i ∈ is, (∃ b, i = .npeByte b) ∨ i = .npeEnd)
    (s : State) :
    ∃ t, execAll (.npeClear :: is) s = .next t ∧ npEncodeResult t.np = none ∧
      exec (.cmdDecodeOwn .np) t = .refused (.noEncodedStream .np) := by
  have hkeep (i) (hi : i ∈ is) (u : State) (hu : u.np.encValid = false ∧ NpeInv u.np.enc) :
      ∃ t, exec i u = .next t ∧ t.np.encValid = false ∧ NpeInv t.np.enc := by
    obtain ⟨hv, hinv⟩ := hu
    obtain ⟨b, rfl⟩ | rfl := his i hi
    · exact ⟨_, rfl, hv, npeByte_keeps_NpeInv u.cfg b hinv⟩
    · exact ⟨_, rfl, hv, npeEnd_keeps_NpeInv u.cfg hinv⟩
  obtain ⟨t, ht, hv, hinv⟩ :=
    exists_execAll_cons (i := .npeClear) (s := s) rfl hkeep ⟨rfl, npeClear_NpeInv s.np.enc⟩
  exact ⟨t, ht, npEncodeResult_eq_none hv hinv, exec_decodeOwn_np_refused hv⟩

/-- `RLE`'s own events do not set `ENC_VALID`; what the codec can still give is the pass's fault. -/
theorem rleClear_leaves_no_result {is : List Instr} (his : ∀ i ∈ is, (∃ b, i = .rleByte b) ∨ i = .rleEnd)
    (s : State) :
    ∃ t, execAll (.rleClear :: is) s = .next t ∧ (∀ e, rlEncodeResult t.rl ≠ some (.ok e)) ∧
      exec (.cmdDecodeOwn .rl) t = .refused (.noEncodedStream .rl) := by
  have hkeep (i) (hi : i ∈ is) (u : State) (hu : u.rl.encValid = false) :
      ∃ t, exec i u = .next t ∧ t.rl.encValid = false := by
    obtain ⟨b, rfl⟩ | rfl := his i hi <;> exact ⟨_, rfl, hu⟩
  obtain ⟨t, ht, hv⟩ := exists_execAll_cons (i := .rleClear) (s := s) rfl hkeep rfl
  exact ⟨t, ht, opResult_ne_ok hv _, exec_decodeOwn_rl_refused hv⟩

/-- `NPD.BIT` does not set `DEC_VALID`. -/
theorem npdClear_leaves_no_result (st : List Bit) (s : State) :
    ∃ t, execAll (.npdClear :: st.map .npdBit) s = .next t ∧ ∀ v, npDecodeResult t.np ≠ some (.ok v) := by
  have hkeep (i) (hi : i ∈ st.map Instr.npdBit) (u : State) (hu : u.np.decValid = false) :
      ∃ t, exec i u = .next t ∧ t.np.decValid = false := by
    obtain ⟨v, -, rfl⟩ := List.mem_map.mp hi
    exact ⟨_, rfl, hu⟩
  obtain ⟨t, ht, hv⟩ := exists_execAll_cons (i := .npdClear) (s := s) rfl hkeep rfl
  exact ⟨t, ht, opResult_ne_ok hv _⟩

/-- `RLD.BYTE` does not set `DEC_VALID`. -/
theorem rldClear_leaves_no_result (p : List Byte) (s : State) :
    ∃ t, execAll (.rldClear :: p.map .rldByte) s = .next t ∧ ∀ v, rlDecodeResult t.rl ≠ some (.ok v) := by
  have hkeep (i) (hi : i ∈ p.map Instr.rldByte) (u : State) (hu : u.rl.decValid = false) :
      ∃ t, exec i u = .next t ∧ t.rl.decValid = false := by
    obtain ⟨b, -, rfl⟩ := List.mem_map.mp hi
    exact ⟨_, rfl, hu⟩
  obtain ⟨t, ht, hv⟩ := exists_execAll_cons (i := .rldClear) (s := s) rfl hkeep rfl
  exact ⟨t, ht, opResult_ne_ok hv _⟩

/-- Settles O60: `CLEAR` takes the flag away and the unit's own events, `END` among them, do not give it back. -/
theorem clearedBuffersAreNoResultsOfTheInstance : Obligations.ClearedBuffersAreNoResultsOfTheInstance := by
  intro s p st
  exact ⟨npeClear_leaves_no_result (fun _ hi => eq_event_or_eq_stop (List.mem_append_left _ hi)) s,
    npeClear_leaves_no_result (fun _ => eq_event_or_eq_stop (p := p)) s,
    rleClear_leaves_no_result (fun _ hi => eq_event_or_eq_stop (List.mem_append_left _ hi)) s,
    rleClear_leaves_no_result (fun _ => eq_event_or_eq_stop (p := p)) s,
    npdClear_leaves_no_result st s, rldClear_leaves_no_result p s⟩

end Sys2Proof.Machine
end

section
/-! The decoder and the encoder (30_encoding.md R80 to R97): reading a field undoes writing it and the other way round
(00_scope.md section 4), and so for tokens, port words and command words. -/

namespace Sys2Proof

/-! ### Values of bit sequences -/

/-- `val(bs)` (00_scope.md section 4), not cut to a width. -/
def bitsVal (bs : List Bit) : Nat := bs.foldl (fun a b => 2 * a + b.toNat) 0

theorem valMsb_eq_ofNat (n : Nat) (bs : List Bit) : valMsb n bs = BitVec.ofNat n (bitsVal bs) := rfl

theorem valMsb_nil (n : Nat) : valMsb n [] = 0 := rfl

theorem bitsVal_concat (bs : List Bit) (b : Bit) : bitsVal (bs ++ [b]) = 2 * bitsVal bs + b.toNat := by
  simp [bitsVal]

theorem testBit_bitsVal (bs : List Bit) (k : Nat) : (bitsVal bs).testBit k = bs.reverse.getD k false := by
  induction bs using List.reverseRecOn generalizing k with
  | nil => simp [bitsVal]
  | append_singleton bs b ih =>
    rw [bitsVal_concat, List.reverse_concat]
    cases k with
    | zero => cases b <;> simp [Nat.testBit_zero]
    | succ k =>
      have hdiv : (2 * bitsVal bs + b.toNat) / 2 = bitsVal bs := by have := b.toNat_lt; omega
      rw [Nat.testBit_succ, hdiv, ih, List.getD_cons_succ]

theorem bitsVal_bitsMsb {n : Nat} (v : BitVec n) : bitsVal (bitsMsb v) = v.toNat := by
  refine Nat.eq_of_testBit_eq fun k => ?_
  rw [testBit_bitsVal, BitVec.testBit_toNat]
  by_cases hk : k < n
  · have hrev : n - 1 - (n - 1 - k) = k := by omega
    rw [List.getD_eq_getElem?_getD, List.getElem?_reverse (by simpa using hk), Machine.bitsMsb_length,
      bitsMsb_getElem? v (by omega), hrev, Option.getD_some]
  · rw [List.getD_eq_default _ _ (by simpa using hk), BitVec.getLsbD_of_ge v k (by omega)]

/-- Reading a field of `w` bits into a register of `n` bits. -/
theorem valMsb_bitsMsb_setWidth (n : Nat) {w : Nat} (f : BitVec w) : valMsb n (bitsMsb f) = f.setWidth n := by
  rw [valMsb_eq_ofNat, bitsVal_bitsMsb, BitVec.ofNat_toNat]

/-- Reading back a field. -/
@[simp] theorem valMsb_bitsMsb {n : Nat} (v : BitVec n) : valMsb n (bitsMsb v) = v := by
  rw [valMsb_bitsMsb_setWidth, BitVec.setWidth_eq]

/-- A sequence of `n` bits is the field of its value. -/
theorem bitsMsb_valMsb {n : Nat} {bs : List Bit} (h : bs.length = n) : bitsMsb (valMsb n bs) = bs := by
  refine List.ext_getElem? fun k => ?_
  by_cases hk : k < n
  · have hin : n - 1 - k < n := by omega
    have hrev : bs.length - 1 - (n - 1 - k) = k := by omega
    rw [bitsMsb_getElem? _ hk, valMsb_eq_ofNat, BitVec.getLsbD_ofNat, testBit_bitsVal, List.getD_eq_getElem?_getD,
      List.getElem?_reverse (by omega), hrev, List.getElem?_eq_getElem (by omega), Option.getD_some, decide_eq_true hin,
      Bool.true_and]
  · rw [List.getElem?_eq_none (by simpa using hk), List.getElem?_eq_none (by omega)]

/-- The last bit of a field stands last. -/
theorem bitsMsb_succ {n : Nat} (v : BitVec (n + 1)) : bitsMsb v = bitsMsb (v.extractLsb' 1 n) ++ [v.getLsbD 0] := by
  have hlast : v.getMsbD n = v.getLsbD 0 := by simp [BitVec.getMsbD]
  have hinit : ∀ k ∈ List.range n, v.getMsbD k = (v.extractLsb' 1 n).getMsbD k := by
    intro k hk
    have hk : k < n := List.mem_range.mp hk
    have hpos : n - k = 1 + (n - 1 - k) := by omega
    have hin : n - 1 - k < n := by omega
    simp [BitVec.getMsbD, hk, hin, hpos, Nat.lt_succ_of_lt hk]
  rw [bitsMsb, List.range_succ, List.map_append, List.map_congr_left hinit, List.map_singleton, hlast]
  rfl

/-! ### Fields at the front of a stream -/

theorem takeField_eq_some_iff {n : Nat} {s rest : List Bit} {v : BitVec n} :
    takeField n s = some (v, rest) ↔ s = bitsMsb v ++ rest := by
  constructor
  · intro h
    unfold takeField at h
    split at h <;> cases h
    next hlen => rw [bitsMsb_valMsb (List.length_take_of_le (by omega)), List.take_append_drop]
  · rintro rfl
    have hlen : ¬ (bitsMsb v ++ rest).length < n := by simp
    rw [takeField, if_neg hlen, List.take_left' (Machine.bitsMsb_length v), List.drop_left' (Machine.bitsMsb_length v),
      valMsb_bitsMsb]

@[simp] theorem takeField_bitsMsb {n : Nat} (v : BitVec n) (rest : List Bit) :
    takeField n (bitsMsb v ++ rest) = some (v, rest) :=
  takeField_eq_some_iff.mpr rfl

@[simp] theorem takeNibbles_flatMap_bitsMsb (lo : List Nibble) (rest : List Bit) :
    takeNibbles lo.length (lo.flatMap bitsMsb ++ rest) = some (lo, rest) := by
  induction lo with
  | nil => rfl
  | cons x lo ih => simp [takeNibbles, ih]

theorem eq_of_takeNibbles {n : Nat} {s rest : List Bit} {lo : List Nibble} (h : takeNibbles n s = some (lo, rest)) :
    lo.length = n ∧ s = lo.flatMap bitsMsb ++ rest := by
  induction n generalizing s lo with
  | zero => cases h; exact ⟨rfl, rfl⟩
  | succ n ih =>
    unfold takeNibbles at h
    split at h
    · cases h
    next x s₁ hx =>
    split at h <;> cases h
    next lo hlo =>
    obtain ⟨hlen, rfl⟩ := ih hlo
    exact ⟨congrArg (· + 1) hlen, by rw [takeField_eq_some_iff.mp hx, List.flatMap_cons, List.append_assoc]⟩

/-! ### Tokens at the front of a stream -/

theorem nextNpToken_npLitBits {cfg : Config} {b : Byte} (hb : b ≠ cfg.sentinel) (rest : List Bit) :
    nextNpToken cfg (npLitBits b ++ rest) = .ok (.npLit b, rest) := by
  simp [nextNpToken, npLitBits, hb]

theorem nextNpToken_npGrpBits (cfg : Config) (hi : Nibble) {n : Nibble} {lo : List Nibble} (hn : lo.length = n.toNat)
    (rest : List Bit) : nextNpToken cfg (npGrpBits cfg hi n lo ++ rest) = .ok (.npGrp hi n lo, rest) := by
  simp [nextNpToken, npGrpBits, ← hn]

/-- R85: what `nextNpToken` splits off is a well-formed token's own bits. -/
theorem eq_encode_append_of_nextNpToken {cfg : Config} {s rest : List Bit} {i : Instr}
    (h : nextNpToken cfg s = .ok (i, rest)) :
    i.WellFormed cfg = true ∧ ∃ bits, encode cfg i = .npToken bits ∧ s = bits ++ rest := by
  unfold nextNpToken at h
  split at h
  · cases h
  next x s₁ hx =>
  rw [takeField_eq_some_iff.mp hx]
  split at h
  · next hsent =>
    split at h
    · cases h
    next hi s₂ hhi =>
    split at h
    · cases h
    next n s₃ hn =>
    split at h <;> cases h
    next lo hlo =>
    obtain ⟨hlen, rfl⟩ := eq_of_takeNibbles hlo
    refine ⟨beq_iff_eq.mpr hlen, _, rfl, ?_⟩
    rw [takeField_eq_some_iff.mp hhi, takeField_eq_some_iff.mp hn, hsent, npGrpBits]
    simp only [List.append_assoc]
  · next hlit =>
    cases h
    exact ⟨bne_iff_ne.mpr hlit, _, rfl, rfl⟩

theorem nextRlToken_rlLitBytes {cfg : Config} {b : Byte} (hb : b ≠ cfg.sentinel) (rest : List Byte) :
    nextRlToken cfg (rlLitBytes b ++ rest) = .ok (.rlLit b, rest) := by
  simp [nextRlToken, rlLitBytes, hb]

theorem nextRlToken_rlMrkBytes (cfg : Config) (val dig : Byte) (rest : List Byte) :
    nextRlToken cfg (rlMrkBytes cfg val dig ++ rest) = .ok (.rlMrk val dig, rest) := by
  simp [nextRlToken, rlMrkBytes]

/-- R89: what `nextRlToken` splits off is a well-formed token's own bytes. -/
theorem eq_encode_append_of_nextRlToken {cfg : Config} {s rest : List Byte} {i : Instr}
    (h : nextRlToken cfg s = .ok (i, rest)) :
    i.WellFormed cfg = true ∧ ∃ bytes, encode cfg i = .rlToken bytes ∧ s = bytes ++ rest := by
  unfold nextRlToken at h
  split at h
  case h_1 => cases h
  case h_2 b tail =>
    split at h
    case isTrue hsent =>
      split at h <;> cases h
      exact ⟨rfl, _, rfl, by rw [hsent]; rfl⟩
    case isFalse hlit =>
      cases h
      exact ⟨bne_iff_ne.mpr hlit, _, rfl, rfl⟩

theorem wholeToken_eq_ok_iff {α : Type} {r : Except DecodeError (Instr × List α)} {i : Instr} :
    wholeToken r = .ok i ↔ r = .ok (i, []) := by
  unfold wholeToken
  split <;> simp

/-! ### Port words and command words -/

/-- The event of a kind on a 10-bit port (R94); `decode_eventWord` ties it to the decoder. -/
def BytePort.event : BytePort → EventKind → Byte → Instr
  | .sv i, .nop, _ => .svNop i
  | .sv i, .symbol, b => .svByte i b
  | .sv i, .stop, _ => .svEnd i
  | .sv i, .clear, _ => .svClear i
  | .npe, .nop, _ => .npeNop
  | .npe, .symbol, b => .npeByte b
  | .npe, .stop, _ => .npeEnd
  | .npe, .clear, _ => .npeClear
  | .rle, .nop, _ => .rleNop
  | .rle, .symbol, b => .rleByte b
  | .rle, .stop, _ => .rleEnd
  | .rle, .clear, _ => .rleClear
  | .rld, .nop, _ => .rldNop
  | .rld, .symbol, b => .rldByte b
  | .rld, .stop, _ => .rldEnd
  | .rld, .clear, _ => .rldClear

/-- The event of a kind on `NPD`'s port (R94); `decode_bitEventWord` ties it to the decoder. -/
def EventKind.bitEvent : EventKind → Bit → Instr
  | .nop, _ => .npdNop
  | .symbol, v => .npdBit v
  | .stop, _ => .npdEnd
  | .clear, _ => .npdClear

theorem eventKind_code (k : EventKind) : eventKind k.code = k := by
  cases k <;> rfl

/-- R93, R95: a 10-bit port word is decoded field by field. -/
theorem decode_eventWord (cfg : Config) (p : BytePort) (k : EventKind) (b : Byte) :
    decode cfg (.event p (eventWord k b)) = .ok (p.event k b) := by
  have hkind : (eventWord k b).extractLsb' 8 2 = k.code := BitVec.extractLsb'_append_eq_left
  have hdata : (eventWord k b).extractLsb' 0 8 = b := BitVec.extractLsb'_append_eq_right
  simp only [decode, decodeEvent, hkind, hdata, eventKind_code]
  cases p <;> cases k <;> rfl

/-- R93, R95: a 3-bit port word is decoded field by field. -/
theorem decode_bitEventWord (cfg : Config) (k : EventKind) (v : Bit) :
    decode cfg (.bitEvent (bitEventWord k v)) = .ok (k.bitEvent v) := by
  cases k <;> cases v <;> rfl

/-- R97: the `op` field of a command word is the command. -/
theorem commandOf_commandWord (c : Command) (i : Codec) : commandOf ((commandWord c i).extractLsb' 1 2) = c := by
  cases c <;> cases i <;> rfl

/-- R97: the `i` field of a command word is the codec. -/
theorem codecOfBit_commandWord (c : Command) (i : Codec) : codecOfBit ((commandWord c i).getLsbD 0) = i :=
  Laws.SentToItsInstance.commandWord_codec c i .none

/-- Settles O4: the words are those of `decode_eventWord` and `decode_bitEventWord`, port by port. -/
theorem eventWordsDecodeByKind : Obligations.EventWordsDecodeByKind := by
  intro cfg c b v
  have hport (p : BytePort) (k : EventKind) := decode_eventWord cfg p k b
  have hbit (k : EventKind) := decode_bitEventWord cfg k v
  exact ⟨⟨hport (.sv c) .nop, hport (.sv c) .symbol, hport (.sv c) .stop, hport (.sv c) .clear⟩,
    ⟨hport .npe .nop, hport .npe .symbol, hport .npe .stop, hport .npe .clear⟩,
    ⟨hbit .nop, hbit .symbol, hbit .stop, hbit .clear⟩,
    ⟨hport .rle .nop, hport .rle .symbol, hport .rle .stop, hport .rle .clear⟩,
    hport .rld .nop, hport .rld .symbol, hport .rld .stop, hport .rld .clear⟩

/-- Settles O5: a command word fixes `op` and `i`, so the decoder answers by computation. -/
theorem commandWordsDecodeByOp : Obligations.CommandWordsDecodeByOp :=
  fun _ _ _ => ⟨rfl, rfl, rfl, rfl, rfl, rfl, rfl, rfl⟩

/-- Settles O6: fixed words, decoded by computation. -/
theorem sampleWordsDecode : Obligations.SampleWordsDecode := by
  unfold Obligations.SampleWordsDecode
  decide

/-- Settles O8: a token that decodes is what the stream's reader splits off with nothing left over. -/
theorem tokenDecodingLosesNoSymbol : Obligations.TokenDecodingLosesNoSymbol := by
  refine fun cfg i => ⟨fun s h => ?_, fun s h => ?_⟩
  · obtain ⟨hwf, bits, henc, hs⟩ := eq_encode_append_of_nextNpToken (wholeToken_eq_ok_iff.mp h)
    rw [hs, List.append_nil]
    exact ⟨hwf, henc⟩
  · obtain ⟨hwf, bytes, henc, hs⟩ := eq_encode_append_of_nextRlToken (wholeToken_eq_ok_iff.mp h)
    rw [hs, List.append_nil]
    exact ⟨hwf, henc⟩

/-- Settles O7: port words by `decode_eventWord` and `decode_bitEventWord`, tokens by what the stream readers split off
(`nextNpToken_npLitBits` and its like) with nothing left over; a command word is one of eight. -/
theorem decodeOfEncodeIsTheInstruction : Obligations.DecodeOfEncodeIsTheInstruction := by
  intro cfg i hwf
  cases i with
  | svNop c => exact decode_eventWord cfg (.sv c) .nop 0
  | svByte c b => exact decode_eventWord cfg (.sv c) .symbol b
  | svEnd c => exact decode_eventWord cfg (.sv c) .stop 0
  | svClear c => exact decode_eventWord cfg (.sv c) .clear 0
  | npeNop => exact decode_eventWord cfg .npe .nop 0
  | npeByte b => exact decode_eventWord cfg .npe .symbol b
  | npeEnd => exact decode_eventWord cfg .npe .stop 0
  | npeClear => exact decode_eventWord cfg .npe .clear 0
  | npdNop => exact decode_bitEventWord cfg .nop false
  | npdBit v => exact decode_bitEventWord cfg .symbol v
  | npdEnd => exact decode_bitEventWord cfg .stop false
  | npdClear => exact decode_bitEventWord cfg .clear false
  | rleNop => exact decode_eventWord cfg .rle .nop 0
  | rleByte b => exact decode_eventWord cfg .rle .symbol b
  | rleEnd => exact decode_eventWord cfg .rle .stop 0
  | rleClear => exact decode_eventWord cfg .rle .clear 0
  | rldNop => exact decode_eventWord cfg .rld .nop 0
  | rldByte b => exact decode_eventWord cfg .rld .symbol b
  | rldEnd => exact decode_eventWord cfg .rld .stop 0
  | rldClear => exact decode_eventWord cfg .rld .clear 0
  | npLit b =>
    refine wholeToken_eq_ok_iff.mpr ?_
    rw [← List.append_nil (npLitBits b)]
    exact nextNpToken_npLitBits (bne_iff_ne.mp hwf) []
  | npGrp hi n lo =>
    refine wholeToken_eq_ok_iff.mpr ?_
    rw [← List.append_nil (npGrpBits cfg hi n lo)]
    exact nextNpToken_npGrpBits cfg hi (beq_iff_eq.mp hwf) []
  | rlLit b => exact wholeToken_eq_ok_iff.mpr (nextRlToken_rlLitBytes (bne_iff_ne.mp hwf) [])
  | rlMrk val dig => exact wholeToken_eq_ok_iff.mpr (nextRlToken_rlMrkBytes cfg val dig [])
  | cmdNew c p | cmdEncode c | cmdDecodeOwn c =>
    simp only [encode, decode, decodeCommand, commandOf_commandWord, codecOfBit_commandWord]
  | cmdDecode st =>
    cases st <;>
      simp only [encode, decode, decodeCommand, commandOf_commandWord, codecOfBit_commandWord, Stream.codec,
        Stream.operand]

end Sys2Proof
end

section
/-! Events in sequence: stream tokens (30_encoding.md R80, R86) and the expansions of the operations (R97;
45_core_operations.md R201 to R204). -/

namespace Sys2Proof.Machine

/-- Symbol events of one unit in sequence are its symbols presented in order; `on` is where the unit stands. -/
theorem execAll_map_event {α υ : Type} {event : α → Instr} {on : (υ → υ) → State → State}
    {symbol : Config → α → υ → υ} (hexec : ∀ x s, exec (event x) s = .next (on (symbol s.cfg x) s))
    (hcfg : ∀ f s, (on f s).cfg = s.cfg) (hid : ∀ s, on id s = s) (hcomp : ∀ f g s, on g (on f s) = on (g ∘ f) s)
    (xs : List α) (s : State) : execAll (xs.map event) s = .next (on (feed (symbol s.cfg) xs) s) := by
  induction xs generalizing s with
  | nil => exact congrArg Host.Outcome.next (hid s).symm
  | cons x xs ih => rw [List.map_cons, execAll_cons_next (hexec x s), ih, hcomp, hcfg]; rfl

theorem execAll_svBytes (c : Codec) (p : List Byte) (s : State) :
    execAll (p.map (.svByte c)) s = .next (onSv c (feed (svByte s.cfg) p) s) :=
  execAll_map_event (fun _ _ => rfl) (onSv_cfg c) (fun _ => by cases c <;> rfl) (fun _ _ _ => by cases c <;> rfl) p s

theorem execAll_npdBits (bits : List Bit) (s : State) :
    execAll (bits.map .npdBit) s = .next (onNpd (feed (npdBit s.cfg) bits) s) :=
  execAll_map_event (fun _ _ => rfl) onNpd_cfg (fun _ => rfl) (fun _ _ _ => rfl) bits s

theorem execAll_rldBytes (bytes : List Byte) (s : State) :
    execAll (bytes.map .rldByte) s = .next (onRld (feed (rldByte s.cfg) bytes) s) :=
  execAll_map_event (fun _ _ => rfl) onRld_cfg (fun _ => rfl) (fun _ _ _ => rfl) bytes s

theorem execAll_append_next {is js : List Instr} {s t : State} (h : execAll is s = .next t) :
    execAll (is ++ js) s = execAll js t := by
  induction is generalizing s with
  | nil => cases h; rfl
  | cons i is ih =>
    cases hi : exec i s with
    | next u =>
      rw [execAll_cons_next hi] at h
      rw [List.cons_append, execAll_cons_next hi, ih h]
    | fault f => simp [execAll, hi] at h
    | refused r => simp [execAll, hi] at h

/-- Settles O28: a token's symbols presented to the decoder are its events in sequence. -/
theorem tokenIsItsSymbols : Obligations.TokenIsItsSymbols := fun s =>
  ⟨fun b => ⟨_, rfl, execAll_npdBits (npLitBits b) s⟩,
    fun hi n lo => ⟨_, rfl, execAll_npdBits (npGrpBits s.cfg hi n lo) s⟩,
    fun b => ⟨_, rfl, execAll_rldBytes (rlLitBytes b) s⟩,
    fun val dig => ⟨_, rfl, execAll_rldBytes (rlMrkBytes s.cfg val dig) s⟩⟩

/-! ### Passes as events (R97) -/

/-- `CLEAR`, events that complete, `END`. -/
theorem execAll_pass {clear stop : Instr} {is : List Instr} {s u v t : State} (hc : exec clear s = .next u)
    (his : execAll is u = .next v) (hs : exec stop v = .next t) :
    execAll ([clear] ++ is ++ [stop]) s = .next t := by
  rw [List.append_assoc, List.singleton_append, execAll_cons_next hc, execAll_append_next his, execAll_cons_next hs]
  rfl

theorem execAll_svEvents (c : Codec) (p : List Byte) (s : State) :
    execAll (svEvents c p) s = .next (onSv c (svPass s.cfg p) s) := by
  rw [svEvents, execAll_pass rfl (execAll_svBytes c p _) rfl]
  cases c <;> rfl

theorem execAll_encEvents_np (p : List Byte) (s : State) :
    execAll (encEvents .np p) s = .next (dropEncoded .np (onNpe (npePass s.cfg p) s)) :=
  execAll_pass rfl (execAll_npeBytes p _) rfl

theorem execAll_encEvents_rl (p : List Byte) (s : State) :
    execAll (encEvents .rl p) s = .next (dropEncoded .rl (onRle (rlePass s.cfg p) s)) :=
  execAll_pass rfl (execAll_rleBytes p _) rfl

theorem execAll_decEvents_np (bits : List Bit) (s : State) :
    execAll (decEvents (.np bits)) s = .next (dropDecoded .np (onNpd (npdPass s.cfg bits) s)) :=
  execAll_pass rfl (execAll_npdBits bits _) rfl

theorem execAll_decEvents_rl (bytes : List Byte) (s : State) :
    execAll (decEvents (.rl bytes)) s = .next (dropDecoded .rl (onRld (rldPass s.cfg bytes) s)) :=
  execAll_pass rfl (execAll_rldBytes bytes _) rfl

/-- The expansion of `NEW NP` (R201) up to the flags. -/
theorem execAll_newEvents_np (p : List Byte) (s : State) :
    execAll ([.npeClear, .npdClear] ++ svEvents .np p) s = .next
      (onSv .np (svPass s.cfg p) (dropDecoded .np (onNpd npdClear (dropEncoded .np (onNpe npeClear s))))) :=
  (execAll_append_next (is := [.npeClear, .npdClear]) rfl).trans (execAll_svEvents .np p _)

/-- The expansion of `NEW RL` (R201) up to the flags. -/
theorem execAll_newEvents_rl (p : List Byte) (s : State) :
    execAll ([.rleClear, .rldClear] ++ svEvents .rl p) s = .next
      (onSv .rl (svPass s.cfg p) (dropDecoded .rl (onRld rldClear (dropEncoded .rl (onRle rleClear s))))) :=
  (execAll_append_next (is := [.rleClear, .rldClear]) rfl).trans (execAll_svEvents .rl p _)

/-- `NEW` with its flags read off the validator's phase (R201). -/
theorem newOp_eq {ε δ : Type} (cfg : Config) (ie : ε) (id : δ) (p : List Byte) (I : Instance ε δ) :
    newOp cfg ie id p I =
      { sv := svPass cfg p I.sv
        enc := clearEvent ie I.enc
        dec := clearEvent id I.dec
        constructed := decide ((svPass cfg p I.sv).ctl.phase = .done)
        payload := if (svPass cfg p I.sv).ctl.phase = .done then p else []
        encValid := false
        decValid := false } := by
  simp [newOp]

/-- Settles O33: the expansions run to the passes (`execAll_pass` and what follows from it), on whose phases the
operations set their flags. -/
theorem operationsAreTheirExpansions : Obligations.OperationsAreTheirExpansions := by
  refine fun s => ⟨fun p => ⟨⟨_, execAll_newEvents_np p s, ?_⟩, ⟨_, execAll_newEvents_rl p s, ?_⟩⟩,
    fun hc => ⟨_, execAll_encEvents_np s.np.payload s, ?_⟩, fun hc => ⟨_, execAll_encEvents_rl s.rl.payload s, ?_⟩,
    fun bits => ⟨_, execAll_decEvents_np bits s, rfl⟩, fun bytes => ⟨_, execAll_decEvents_rl bytes s, rfl⟩,
    fun hv => ?_, fun hv => ?_, fun c p bits => ⟨?_, ?_, ?_, ?_⟩⟩
  · exact congrArg (fun I => Host.Outcome.next { s with np := I }) (newOp_eq s.cfg _ _ p s.np)
  · exact congrArg (fun I => Host.Outcome.next { s with rl := I }) (newOp_eq s.cfg _ _ p s.rl)
  · exact if_pos hc
  · exact if_pos hc
  · exact if_pos hv
  · exact if_pos hv
  · simp [svEvents]
  · cases c <;> simp [encEvents]
  · simp [decEvents]
  · simp [decEvents]

end Sys2Proof.Machine
end

section
/-! Nibble-pack tokens at a token boundary (30_encoding.md R81 to R85; 42_nibble_pack_decoder.md R142 to R146). -/

namespace Sys2Proof.Machine

/-- The cursor after `n` symbol events that were processed without fault (R24). -/
def advanceBy (n : Nat) (c : Ctl) : Ctl := { c with inPos := c.inPos + n }

@[simp] theorem advanceBy_phase (n : Nat) (c : Ctl) : (advanceBy n c).phase = c.phase := rfl

theorem advance_eq_advanceBy (c : Ctl) : advance c = advanceBy 1 c := rfl

@[simp] theorem advanceBy_advanceBy (m n : Nat) (c : Ctl) : advanceBy n (advanceBy m c) = advanceBy (m + n) c := by
  simp [advanceBy, Nat.add_assoc]

/-- `NPD` with the bits `bs` of a field taken, the field's last bit still to come (R33, R34); with no bit taken it
stands between two fields. -/
def NpdDp.inField (mode : NpdMode) (bs : List Bit) (grpRem : BitVec 4) (out : List Byte) : NpdDp :=
  { mode := mode, shreg := valMsb 8 bs, nbits := BitVec.ofNat 3 bs.length, grpRem := grpRem, out := out }

variable {cfg : Config} {c : Ctl} {m : NpdMode} {g : BitVec 4} {o : List Byte}

theorem shiftIn_valMsb (bs : List Bit) (v : Bit) : shiftIn (valMsb 8 bs) v = valMsb 8 (bs ++ [v]) := by
  apply BitVec.eq_of_toNat_eq
  simp only [shiftIn, valMsb_eq_ofNat, bitsVal_concat, BitVec.toNat_ofNat]
  omega

/-- A bit that does not complete its field (R142). -/
theorem npdBitAct_inField {bs : List Bit} (v : Bit) (h : bs.length + 1 < fieldWidth m) :
    npdBitAct cfg v (.inField m bs g o) = .ok (.inField m (bs ++ [v]) g o) := by
  have hw := fieldWidth_le m
  have hn : (BitVec.ofNat 3 bs.length).toNat = bs.length := by rw [BitVec.toNat_ofNat]; omega
  simp [npdBitAct, NpdDp.inField, hn, h, shiftIn_valMsb]

/-- The bit that completes its field (R142). -/
theorem npdBitAct_lastBit {bs : List Bit} (v : Bit) (h : bs.length + 1 = fieldWidth m) :
    npdBitAct cfg v (.inField m bs g o) = fieldDone cfg (valMsb 8 (bs ++ [v])) (.inField m [] g o) := by
  have hw := fieldWidth_le m
  have hn : (BitVec.ofNat 3 bs.length).toNat = bs.length := by rw [BitVec.toNat_ofNat]; omega
  simp [npdBitAct, NpdDp.inField, hn, h, shiftIn_valMsb, valMsb_nil]

theorem feed_npdBit_inField (hr : c.phase = .run) {bs : List Bit} (h : bs.length < fieldWidth m) :
    feed (npdBit cfg) bs ⟨c, .inField m [] g o⟩ = ⟨advanceBy bs.length c, .inField m bs g o⟩ := by
  induction bs using List.reverseRecOn with
  | nil => rfl
  | append_singleton bs v ih =>
    rw [List.length_append, List.length_singleton] at h
    rw [feed_append, ih (by omega), feed_cons, feed_nil, npdBit, symbolEvent_ok hr (npdBitAct_inField v h),
      List.length_append]
    rfl

/-- A field's last bit, the others taken, completes it (R142). -/
theorem npdBitAct_field {n : Nat} (hw : fieldWidth m = n + 1) (f : BitVec (n + 1)) :
    npdBitAct cfg (f.getLsbD 0) (.inField m (bitsMsb (f.extractLsb' 1 n)) g o) =
      fieldDone cfg (f.setWidth 8) (.inField m [] g o) := by
  rw [npdBitAct_lastBit _ (by rw [bitsMsb_length, hw]), ← bitsMsb_succ, valMsb_bitsMsb_setWidth]

/-- A field's bits are taken up to the last one. -/
theorem feed_npdBit_bitsMsb {n : Nat} (hr : c.phase = .run) (hw : fieldWidth m = n + 1) (f : BitVec (n + 1)) :
    feed (npdBit cfg) (bitsMsb f) ⟨c, .inField m [] g o⟩ =
      npdBit cfg (f.getLsbD 0) ⟨advanceBy n c, .inField m (bitsMsb (f.extractLsb' 1 n)) g o⟩ := by
  rw [bitsMsb_succ, feed_append, feed_npdBit_inField hr (by simp [hw]), bitsMsb_length, feed_cons, feed_nil]

/-- A whole field, from its first bit (R142). -/
theorem feed_npdBit_field {n : Nat} (hr : c.phase = .run) (hw : fieldWidth m = n + 1) (f : BitVec (n + 1)) {d : NpdDp}
    (hf : fieldDone cfg (f.setWidth 8) (.inField m [] g o) = .ok d) :
    feed (npdBit cfg) (bitsMsb f) ⟨c, .inField m [] g o⟩ = ⟨advanceBy (n + 1) c, d⟩ := by
  rw [feed_npdBit_bitsMsb hr hw, npdBit, symbolEvent_ok hr ((npdBitAct_field hw f).trans hf), advance_eq_advanceBy,
    advanceBy_advanceBy]

/-- A whole field that is rejected (R142, R226): its last bit writes nothing but the common registers. -/
theorem feed_npdBit_field_error {n : Nat} (hr : c.phase = .run) (hw : fieldWidth m = n + 1) (f : BitVec (n + 1))
    {e : FaultCode} (hf : fieldDone cfg (f.setWidth 8) (.inField m [] g o) = .error e) :
    feed (npdBit cfg) (bitsMsb f) ⟨c, .inField m [] g o⟩ =
      ⟨raiseFault e (advanceBy n c), .inField m (bitsMsb (f.extractLsb' 1 n)) g o⟩ := by
  rw [feed_npdBit_bitsMsb hr hw, npdBit, symbolEvent_error hr ((npdBitAct_field hw f).trans hf)]

/-! ### The fields of the tokens, each from its first bit -/

@[simp] theorem lo4_setWidth (x : Nibble) : lo4 (x.setWidth 8) = x := by
  revert x; decide

theorem feed_npdBit_literal (hr : c.phase = .run) {b : Byte} (hb : b ≠ cfg.sentinel) :
    feed (npdBit cfg) (bitsMsb b) ⟨c, .inField .lit [] g o⟩ = ⟨advanceBy 8 c, .inField .lit [] g (o ++ [b])⟩ :=
  feed_npdBit_field hr rfl b (by rw [BitVec.setWidth_eq]; exact if_neg hb)

theorem feed_npdBit_sentinel (hr : c.phase = .run) :
    feed (npdBit cfg) (bitsMsb cfg.sentinel) ⟨c, .inField .lit [] g o⟩ = ⟨advanceBy 8 c, .inField .hi [] g o⟩ :=
  feed_npdBit_field hr rfl cfg.sentinel (by rw [BitVec.setWidth_eq]; exact if_pos rfl)

theorem feed_npdBit_highNibble (hr : c.phase = .run) (hi : Nibble) :
    feed (npdBit cfg) (bitsMsb hi) ⟨c, .inField .hi [] g o⟩ = ⟨advanceBy 4 c, .inField (.cnt hi) [] g o⟩ :=
  feed_npdBit_field hr rfl hi (by simp [fieldDone, hiFieldDone, NpdDp.inField])

theorem cntFieldDone_setWidth (hi n : Nibble) (d : NpdDp) : cntFieldDone cfg hi (n.setWidth 8) d =
    if n ≤ 3 ∧ cfg.npStrictCount = true then .error .malformedStream
    else if n = 0 then .ok { d with mode := .lit } else .ok { d with grpRem := n, mode := .lo hi } := by
  rw [cntFieldDone, lo4_setWidth]

theorem feed_npdBit_count_strict (hr : c.phase = .run) (hi : Nibble) {n : Nibble} (hn : n ≤ 3)
    (hs : cfg.npStrictCount = true) : feed (npdBit cfg) (bitsMsb n) ⟨c, .inField (.cnt hi) [] g o⟩ =
      ⟨raiseFault .malformedStream (advanceBy 3 c), .inField (.cnt hi) (bitsMsb (n.extractLsb' 1 3)) g o⟩ :=
  feed_npdBit_field_error hr rfl n ((cntFieldDone_setWidth hi n _).trans (if_pos ⟨hn, hs⟩))

theorem feed_npdBit_count_zero (hr : c.phase = .run) (hi : Nibble) (hs : cfg.npStrictCount = false) :
    feed (npdBit cfg) (bitsMsb (0 : Nibble)) ⟨c, .inField (.cnt hi) [] g o⟩ =
      ⟨advanceBy 4 c, .inField .lit [] g o⟩ :=
  feed_npdBit_field hr rfl 0 (by simp [fieldDone, NpdDp.inField, cntFieldDone, hs, lo4])

theorem feed_npdBit_count (hr : c.phase = .run) (hi : Nibble) {n : Nibble} (hn : n ≠ 0)
    (hs : n ≤ 3 → cfg.npStrictCount = false) :
    feed (npdBit cfg) (bitsMsb n) ⟨c, .inField (.cnt hi) [] g o⟩ = ⟨advanceBy 4 c, .inField (.lo hi) [] n o⟩ := by
  have hlenient : ¬ (n ≤ 3 ∧ cfg.npStrictCount = true) := fun ⟨hle, ht⟩ => by simp [hs hle] at ht
  exact feed_npdBit_field hr rfl n
    ((cntFieldDone_setWidth hi n _).trans ((if_neg hlenient).trans (if_neg hn)))

/-- R146: the last low nibble of a group brings the decoder back to a token boundary. -/
theorem feed_npdBit_lastNibble (hr : c.phase = .run) (hi x : Nibble) :
    feed (npdBit cfg) (bitsMsb x) ⟨c, .inField (.lo hi) [] 1 o⟩ =
      ⟨advanceBy 4 c, .inField .lit [] 0 (o ++ [joinNibbles hi x])⟩ :=
  feed_npdBit_field hr rfl x (by simp [fieldDone, loFieldDone, NpdDp.inField])

/-- R146: any other low nibble. -/
theorem feed_npdBit_lowNibble (hr : c.phase = .run) (hi x : Nibble) (hg : g ≠ 1) :
    feed (npdBit cfg) (bitsMsb x) ⟨c, .inField (.lo hi) [] g o⟩ =
      ⟨advanceBy 4 c, .inField (.lo hi) [] (g - 1) (o ++ [joinNibbles hi x])⟩ := by
  refine feed_npdBit_field hr rfl x ((if_neg hg).trans ?_)
  rw [lo4_setWidth]
  rfl

/-- The low nibbles of a group, `GRP_REM` of them (R146). -/
theorem feed_npdBit_lowNibbles (hi : Nibble) {lo : List Nibble} (hlo : lo ≠ []) (hr : c.phase = .run)
    (hg : lo.length = g.toNat) : feed (npdBit cfg) (lo.flatMap bitsMsb) ⟨c, .inField (.lo hi) [] g o⟩ =
      ⟨advanceBy (4 * lo.length) c, .inField .lit [] 0 (o ++ lo.map (joinNibbles hi))⟩ := by
  induction lo generalizing c g o with
  | nil => exact absurd rfl hlo
  | cons x lo ih =>
    rw [List.flatMap_cons, feed_append]
    rw [List.length_cons] at hg
    by_cases hlast : lo = []
    · subst hlast
      obtain rfl : g = 1 := BitVec.eq_of_toNat_eq hg.symm
      rw [feed_npdBit_lastNibble hr]
      rfl
    · have hne : g ≠ 1 := by rintro rfl; simp [hlast] at hg
      have hrem : lo.length = (g - 1).toNat := by bv_omega
      have hr' : (advanceBy 4 c).phase = .run := hr
      rw [feed_npdBit_lowNibble hr hi x hne, ih hlast hr' hrem, advanceBy_advanceBy, List.length_cons, Nat.mul_add_one,
        Nat.add_comm, List.map_cons, List.append_assoc, List.singleton_append]

/-! ### Groups -/

/-- The sentinel and the high nibble, up to the count field (R143, R144). -/
theorem feed_npGrpBits (hr : c.phase = .run) (hi n : Nibble) (lo : List Nibble) :
    feed (npdBit cfg) (npGrpBits cfg hi n lo) ⟨c, .inField .lit [] g o⟩ =
      feed (npdBit cfg) (lo.flatMap bitsMsb)
        (feed (npdBit cfg) (bitsMsb n) ⟨advanceBy 12 c, .inField (.cnt hi) [] g o⟩) := by
  have hr' : (advanceBy 8 c).phase = .run := hr
  rw [npGrpBits, feed_append, feed_append, feed_append, feed_npdBit_sentinel hr, feed_npdBit_highNibble hr',
    advanceBy_advanceBy]

/-- A group of at least one byte (R82, R84). -/
theorem feed_npGrpBits_ok (hr : c.phase = .run) (hi : Nibble) {n : Nibble} {lo : List Nibble} (hlo : lo.length = n.toNat)
    (hn : n ≠ 0) (hs : n ≤ 3 → cfg.npStrictCount = false) :
    feed (npdBit cfg) (npGrpBits cfg hi n lo) ⟨c, .inField .lit [] g o⟩ =
      ⟨advanceBy (16 + 4 * n.toNat) c, .inField .lit [] 0 (o ++ lo.map (joinNibbles hi))⟩ := by
  have hr₁ : (advanceBy 12 c).phase = .run := hr
  have hr₂ : (advanceBy 16 c).phase = .run := hr
  have hne : lo ≠ [] := by rintro rfl; exact hn (BitVec.eq_of_toNat_eq hlo.symm)
  rw [feed_npGrpBits hr, feed_npdBit_count hr₁ hi hn hs, advanceBy_advanceBy, feed_npdBit_lowNibbles hi hne hr₂ hlo,
    advanceBy_advanceBy, hlo]

/-- A group without bytes (R145, R91). -/
theorem feed_npGrpBits_zero (hr : c.phase = .run) (hi : Nibble) (hs : cfg.npStrictCount = false) :
    feed (npdBit cfg) (npGrpBits cfg hi 0 []) ⟨c, .inField .lit [] g o⟩ = ⟨advanceBy 16 c, .inField .lit [] g o⟩ := by
  have hr' : (advanceBy 12 c).phase = .run := hr
  rw [feed_npGrpBits hr, feed_npdBit_count_zero hr' hi hs, advanceBy_advanceBy]
  rfl

/-- A group that strict counts reject at its count field; its low nibbles are ignored (R145, R226). -/
theorem feed_npGrpBits_strict (hr : c.phase = .run) (hi : Nibble) {n : Nibble} (lo : List Nibble) (hn : n ≤ 3)
    (hs : cfg.npStrictCount = true) : feed (npdBit cfg) (npGrpBits cfg hi n lo) ⟨c, .inField .lit [] g o⟩ =
      ⟨raiseFault .malformedStream (advanceBy 15 c), .inField (.cnt hi) (bitsMsb (n.extractLsb' 1 3)) g o⟩ := by
  have hr' : (advanceBy 12 c).phase = .run := hr
  rw [feed_npGrpBits hr, feed_npdBit_count_strict hr' hi hn hs, advanceBy_advanceBy]
  exact feed_symbolEvent_ignored (npdBitAct cfg) _ (by simp)

/-- What the rejected count field has left in `SHREG` and `NBITS`. -/
theorem inField_count (hi n : Nibble) : NpdDp.inField (.cnt hi) (bitsMsb (n.extractLsb' 1 3)) g o =
    { mode := .cnt hi, shreg := BitVec.ofNat 8 (n.toNat / 2), nbits := 3, grpRem := g, out := o } := by
  have hval : (n.extractLsb' 1 3).setWidth 8 = BitVec.ofNat 8 (n.toNat / 2) := by revert n; decide
  rw [NpdDp.inField, valMsb_bitsMsb_setWidth, hval, bitsMsb_length]
  rfl

/-! ### The tokens in the state -/

theorem exec_npLit_of_feed {s : State} {b : Byte} {u : StreamUnit NpdDp}
    (h : feed (npdBit s.cfg) (npLitBits b) s.np.dec = u) : exec (.npLit b) s = .next { s with np.dec := u } := by
  subst h; rfl

theorem exec_npGrp_of_feed {s : State} {hi n : Nibble} {lo : List Nibble} {u : StreamUnit NpdDp}
    (h : feed (npdBit s.cfg) (npGrpBits s.cfg hi n lo) s.np.dec = u) :
    exec (.npGrp hi n lo) s = .next { s with np.dec := u } := by
  subst h; rfl

/-- Settles O29: at a token boundary `NPD` stands before the first bit of a field of mode `LIT`, so the literal is the
whole field. -/
theorem npLiteralTokenIsItsByte : Obligations.NpLiteralTokenIsItsByte := by
  rintro ⟨cfg, ⟨_, _, ⟨c, _, _, _, g, o⟩, _, _, _, _⟩, _, _⟩ b hr ⟨⟩ ⟨⟩ ⟨⟩
  refine ⟨fun hb => exec_npLit_of_feed (feed_npdBit_literal hr hb), ?_⟩
  rintro rfl
  exact exec_npLit_of_feed (feed_npdBit_sentinel hr)

/-- Settles O30: the group's fields one after another, told apart at the count field. -/
theorem npGroupTokenIsItsBytes : Obligations.NpGroupTokenIsItsBytes := by
  rintro ⟨cfg, ⟨_, _, ⟨c, _, _, _, g, o⟩, _, _, _, _⟩, _, _⟩ hi n lo hlo hr ⟨⟩ ⟨⟩ ⟨⟩
  refine ⟨fun hn hs => ?_, fun hn hs => ?_, fun hn hs => ?_⟩
  · have hne : n ≠ 0 := by rintro rfl; exact absurd hn (by decide)
    exact exec_npGrp_of_feed (feed_npGrpBits_ok hr hi hlo hne hs)
  · subst hn
    obtain rfl : lo = [] := List.eq_nil_of_length_eq_zero hlo
    exact exec_npGrp_of_feed (feed_npGrpBits_zero hr hi hs)
  · exact exec_npGrp_of_feed ((feed_npGrpBits_strict hr hi lo hn hs).trans (by rw [inField_count]; rfl))

end Sys2Proof.Machine
end

section
/-! Run-length tokens at a token boundary (30_encoding.md R87 to R89; 44_run_length_decoder.md R181 to R183). -/

namespace Sys2Proof.Machine

/-! ### Digits (R88) -/

theorem isDigit_iff (b : Byte) : isDigit b = true ↔ 0x30 ≤ b.toNat ∧ b.toNat ≤ 0x39 := by
  rw [isDigit, Bool.and_eq_true]
  exact and_congr decide_eq_true_iff decide_eq_true_iff

theorem digitValue_of_le {b : Byte} (h : 0x30 ≤ b.toNat) : digitValue b = b.toNat - 0x30 := by
  rw [digitValue, digitBase]
  bv_omega

/-! ### `RLD.BYTE` in phase `RUN`, mode by mode -/

section RldByte

variable {cfg : Config} {c : Ctl} {o : List Byte} {b v : Byte}

theorem rldByte_literal (hr : c.phase = .run) (hb : b ≠ cfg.sentinel) :
    rldByte cfg b ⟨c, .lit, o⟩ = ⟨advance c, .lit, o ++ [b]⟩ :=
  symbolEvent_ok hr (if_neg hb)

theorem rldByte_sentinel (hr : c.phase = .run) : rldByte cfg cfg.sentinel ⟨c, .lit, o⟩ = ⟨advance c, .val, o⟩ :=
  symbolEvent_ok hr (if_pos rfl)

theorem rldByte_value (hr : c.phase = .run) : rldByte cfg v ⟨c, .val, o⟩ = ⟨advance c, .dig v, o⟩ :=
  symbolEvent_ok hr rfl

theorem rldByte_digit (hr : c.phase = .run) (hb : isDigit b = true) :
    rldByte cfg b ⟨c, .dig v, o⟩ = ⟨advance c, .lit, o ++ List.replicate (digitValue b) v⟩ :=
  symbolEvent_ok hr (if_pos hb)

theorem rldByte_noDigit (hr : c.phase = .run) (hb : ¬ isDigit b = true) :
    rldByte cfg b ⟨c, .dig v, o⟩ = ⟨raiseFault .malformedStream c, .dig v, o⟩ :=
  symbolEvent_error hr (if_neg hb)

/-- A marker up to its digit (R87). -/
theorem feed_rlMrkBytes (hr : c.phase = .run) (dig : Byte) : feed (rldByte cfg) (rlMrkBytes cfg v dig) ⟨c, .lit, o⟩ =
    rldByte cfg dig ⟨advance (advance c), .dig v, o⟩ := by
  have hr' : (advance c).phase = .run := hr
  rw [rlMrkBytes, feed_cons, rldByte_sentinel hr, feed_cons, rldByte_value hr', feed_cons, feed_nil]

end RldByte

theorem exec_rlLit_of_rldByte {s : State} {b : Byte} {u : StreamUnit RldDp} (h : rldByte s.cfg b s.rl.dec = u) :
    exec (.rlLit b) s = .next { s with rl.dec := u } := by
  subst h; rfl

theorem exec_rlMrk_of_feed {s : State} {val dig : Byte} {u : StreamUnit RldDp}
    (h : feed (rldByte s.cfg) (rlMrkBytes s.cfg val dig) s.rl.dec = u) :
    exec (.rlMrk val dig) s = .next { s with rl.dec := u } := by
  subst h; rfl

/-- Settles O31: a marker's third byte is told apart by `isDigit`. -/
theorem rlTokensAreTheirBytes : Obligations.RlTokensAreTheirBytes := by
  rintro ⟨cfg, _, ⟨_, _, ⟨c, _, o⟩, _, _, _, _⟩, _⟩ hr ⟨⟩
  have hr' : (advance (advance c)).phase = .run := hr
  refine ⟨fun b hb => exec_rlLit_of_rldByte (rldByte_literal hr hb), fun val dig hlo hhi => ?_, fun val dig hdig => ?_⟩
  · rw [← digitValue_of_le hlo]
    exact exec_rlMrk_of_feed ((feed_rlMrkBytes hr dig).trans (rldByte_digit hr' ((isDigit_iff dig).mpr ⟨hlo, hhi⟩)))
  · have hno : ¬ isDigit dig = true := by rw [isDigit_iff]; omega
    exact exec_rlMrk_of_feed ((feed_rlMrkBytes hr dig).trans (rldByte_noDigit hr' hno))

end Sys2Proof.Machine
end

section
/-! The validator `SV` (40_sentinel_validator.md) and what its verdict keeps from the encoders (R117, R224). -/

namespace Sys2Proof.Machine

/-! ### Passes -/

/-- Every pass begins with `CLEAR`, so a second one over the same payload ends where the first one did (R115). -/
theorem svPass_svPass (cfg : Config) (p q : List Byte) (u : StreamUnit Unit) :
    svPass cfg p (svPass cfg q u) = svPass cfg p u := rfl

theorem onSv_onSv (c : Codec) (f g : StreamUnit Unit → StreamUnit Unit) (s : State) :
    onSv c g (onSv c f s) = onSv c (g ∘ f) s := by
  cases c <;> rfl

/-- Settles O58: both passes are one `svPass` of the validator (`execAll_svEvents`), which does not look at what the
validator was before. -/
theorem validationIsIdempotent : Obligations.ValidationIsIdempotent := by
  refine fun s c p => ⟨_, execAll_svEvents c p s, ?_⟩
  have hpass : svPass s.cfg p ∘ svPass s.cfg p = svPass s.cfg p := funext (svPass_svPass s.cfg p p)
  rw [execAll_svEvents, onSv_cfg, onSv_onSv, hpass]

/-! ### Rejected payloads -/

/-- `NEW` constructs exactly what the validator accepts (R114, R201). -/
theorem newOp_constructed {ε δ : Type} (cfg : Config) (ie : ε) (id : δ) (p : List Byte) (I : Instance ε δ) :
    (newOp cfg ie id p I).constructed = decide (cfg.sentinel ∉ p) := by
  simp only [newOp_eq, svPass_done_iff]

theorem newOp_constructed_of_mem {ε δ : Type} {cfg : Config} {p : List Byte} (h : cfg.sentinel ∈ p) (ie : ε) (id : δ)
    (I : Instance ε δ) : (newOp cfg ie id p I).constructed = false := by
  rw [newOp_constructed, decide_eq_false (not_not_intro h)]

theorem exec_encode_np_refused {s : State} (hc : s.np.constructed = false) :
    exec (.cmdEncode .np) s = .refused (.notConstructed .np) := by
  simp [exec, execCmdEncode, hc]

theorem exec_encode_rl_refused {s : State} (hc : s.rl.constructed = false) :
    exec (.cmdEncode .rl) s = .refused (.notConstructed .rl) := by
  simp [exec, execCmdEncode, hc]

/-- Settles O35: `NEW` leaves a payload with the sentinel unconstructed, and no encoded buffer valid. -/
theorem rejectedPayloadIsNeverEncoded : Obligations.RejectedPayloadIsNeverEncoded := by
  intro s c p h
  cases c with
  | np => exact ⟨_, rfl, exec_encode_np_refused (newOp_constructed_of_mem h _ _ s.np), exec_decodeOwn_np_refused rfl⟩
  | rl => exact ⟨_, rfl, exec_encode_rl_refused (newOp_constructed_of_mem h _ _ s.rl), exec_decodeOwn_rl_refused rfl⟩

/-! ### Events -/

/-- Settles O10: a word of kind `0b00` is a `NOP` whatever its data, and every unit's `NOP` is `nopEvent`. -/
theorem nopChangesNothing : Obligations.NopChangesNothing := by
  intro s
  have hport (p : BytePort) (b : Byte) := decode_eventWord s.cfg p .nop b
  exact ⟨fun b => ⟨hport (.sv .np) b, hport (.sv .rl) b, hport .npe b, hport .rle b, hport .rld b⟩,
    decode_bitEventWord s.cfg .nop, rfl, rfl, rfl, rfl, rfl, rfl⟩

section SvEvents

variable {cfg : Config} {b : Byte} {u : StreamUnit Unit}

theorem svByte_sentinel (hr : u.ctl.phase = .run) (hb : b = cfg.sentinel) :
    svByte cfg b u = { u with ctl := ⟨.faulted, .invalidInput, u.ctl.inPos, u.ctl.inPos⟩ } :=
  symbolEvent_error hr (if_pos hb)

theorem svByte_accepted (hr : u.ctl.phase = .run) (hb : b ≠ cfg.sentinel) :
    svByte cfg b u = { u with ctl.inPos := u.ctl.inPos + 1 } :=
  symbolEvent_ok hr (if_neg hb)

theorem svByte_ignored (hr : u.ctl.phase ≠ .run) : svByte cfg b u = u := symbolEvent_ignored hr

theorem svEnd_run (hr : u.ctl.phase = .run) : svEnd u = { u with ctl.phase := .done } := endEvent_ok hr rfl

theorem svEnd_ignored (hr : u.ctl.phase ≠ .run) : svEnd u = u := endEvent_ignored hr

end SvEvents

section SvCopies

variable {s : State} {f : StreamUnit Unit → StreamUnit Unit} {u : StreamUnit Unit}

theorem onSv_np_of_eq (h : f s.np.sv = u) : onSv .np f s = { s with np.sv := u } := by
  subst h; rfl

theorem onSv_rl_of_eq (h : f s.rl.sv = u) : onSv .rl f s = { s with rl.sv := u } := by
  subst h; rfl

end SvCopies

theorem exec_svByte (c : Codec) (b : Byte) (s : State) :
    exec (.svByte c b) s = .next (onSv c (svByte s.cfg b) s) := rfl

theorem exec_svEnd (c : Codec) (s : State) : exec (.svEnd c) s = .next (onSv c svEnd s) := rfl

/-- Settles O11: for each copy, the byte is ignored outside `RUN`, raises the fault when it is the sentinel and is
counted when it is not. -/
theorem svByteScansForTheSentinel : Obligations.SvByteScansForTheSentinel := by
  intro s b
  simp only [exec_svByte, Host.Outcome.next.injEq]
  exact ⟨fun c => decode_eventWord s.cfg (.sv c) .symbol b,
    fun hr => onSv_np_of_eq (svByte_ignored hr),
    fun hr hb => onSv_np_of_eq (svByte_sentinel hr hb),
    fun hr hb => onSv_np_of_eq (svByte_accepted hr hb),
    fun hr => onSv_rl_of_eq (svByte_ignored hr),
    fun hr hb => onSv_rl_of_eq (svByte_sentinel hr hb),
    fun hr hb => onSv_rl_of_eq (svByte_accepted hr hb)⟩

/-- Settles O12: for each copy, `END` finishes the pass in `RUN` and is ignored in the other phases. -/
theorem svEndFinishesThePass : Obligations.SvEndFinishesThePass := by
  intro s
  simp only [exec_svEnd, Host.Outcome.next.injEq]
  exact ⟨fun c => decode_eventWord s.cfg (.sv c) .stop,
    fun hr => onSv_np_of_eq (svEnd_run hr),
    fun hr => onSv_np_of_eq (svEnd_ignored hr),
    fun hr => onSv_rl_of_eq (svEnd_run hr),
    fun hr => onSv_rl_of_eq (svEnd_ignored hr)⟩

end Sys2Proof.Machine
end

section
/-! The nibble-pack encoder `NPE` (41_nibble_pack_encoder.md). -/

namespace Sys2Proof.Machine

/-! ### Closed blocks (R120) -/

theorem closeBlock_literals (cfg : Config) {blk : List Byte} (h : blk.length ≤ npLitMax) :
    closeBlock cfg blk = blk.flatMap npLitBits := by
  cases blk with
  | nil => rfl
  | cons b₀ bs => exact if_pos h

theorem map_lo4_joinNibbles (h : Nibble) (lo : List Nibble) : (lo.map (joinNibbles h)).map lo4 = lo :=
  Function.LeftInverse.list_map (lo4_joinNibbles h) lo

theorem closeBlock_group (cfg : Config) (h : Nibble) {lo : List Nibble} (hlen : npLitMax < lo.length) :
    closeBlock cfg (lo.map (joinNibbles h)) = npGrpBits cfg h (BitVec.ofNat 4 lo.length) lo := by
  cases lo with
  | nil => cases hlen
  | cons l lo =>
    have hlong : ¬ ((l :: lo).map (joinNibbles h)).length ≤ npLitMax := by
      rw [List.length_map]
      exact Nat.not_le.mpr hlen
    refine (if_neg hlong).trans ?_
    rw [hi4_joinNibbles, ← List.map_cons, List.length_map, map_lo4_joinNibbles]

/-- Settles O14: the two branches of `closeBlock`, and its length by `length_closeBlock`. -/
theorem closedBlockBits : Obligations.ClosedBlockBits := by
  intro cfg h lo _ _
  have hlength := length_closeBlock cfg (lo.map (joinNibbles h))
  rw [List.length_map] at hlength
  refine ⟨fun hlit => ⟨?_, hlength.trans (if_pos hlit)⟩,
    fun hgrp => ⟨closeBlock_group cfg h hgrp, hlength.trans (if_neg (Nat.not_le.mpr hgrp))⟩⟩
  rw [closeBlock_literals cfg (by rwa [List.length_map]), List.flatMap_map]
  rfl

/-! ### Events (R122, R123) -/

section NpeEvents

variable {cfg : Config} {b b₀ : Byte} {bs : List Byte} {u : StreamUnit NpeDp}

theorem npeByte_ignored (hr : u.ctl.phase ≠ .run) : npeByte cfg b u = u := symbolEvent_ignored hr

theorem npeByte_opens (hr : u.ctl.phase = .run) (hblk : u.dp.blk = []) :
    npeByte cfg b u = { u with dp.blk := [b], ctl.inPos := u.ctl.inPos + 1 } :=
  symbolEvent_ok hr (by rw [npeByteAct, hblk])

theorem npeByte_reopens (hr : u.ctl.phase = .run) (hblk : u.dp.blk = b₀ :: bs)
    (h : hi4 b ≠ hi4 b₀ ∨ (b₀ :: bs).length = npMaxBlock) :
    npeByte cfg b u = { u with
      dp.acc := u.dp.acc ++ closeBlock cfg (b₀ :: bs), dp.blk := [b], ctl.inPos := u.ctl.inPos + 1 } :=
  symbolEvent_ok hr (by simp only [npeByteAct, hblk, if_pos h, emit_eq])

theorem npeByte_joins (hr : u.ctl.phase = .run) (hblk : u.dp.blk = b₀ :: bs) (hhi : hi4 b = hi4 b₀)
    (hroom : (b₀ :: bs).length ≠ npMaxBlock) :
    npeByte cfg b u = { u with dp.blk := b₀ :: bs ++ [b], ctl.inPos := u.ctl.inPos + 1 } :=
  symbolEvent_ok hr (by simp only [npeByteAct, hblk, if_neg (not_or_intro (not_not_intro hhi) hroom)])

theorem npeByte_ctl (hr : u.ctl.phase = .run) : (npeByte cfg b u).ctl = advance u.ctl := by
  cases ha : npeByteAct cfg b u.dp with
  | error f => exact absurd ha (npeByteAct_ne_error cfg b u.dp f)
  | ok d => rw [npeByte, symbolEvent_ok hr ha]

theorem npeEnd_ignored (hr : u.ctl.phase ≠ .run) : npeEnd cfg u = u := endEvent_ignored hr

/-- No open block and an open one in one equation: the former closes to no bits. -/
theorem npeEnd_run (hr : u.ctl.phase = .run) :
    npeEnd cfg u = { u with
      dp.acc := u.dp.acc ++ closeBlock cfg u.dp.blk, dp.blk := [], ctl.phase := .done } := by
  obtain ⟨c, blk, acc⟩ := u
  cases blk with
  | nil => exact (endEvent_ok hr rfl).trans (by rw [closeBlock, List.append_nil]; rfl)
  | cons b₀ bs => exact endEvent_ok hr rfl

end NpeEvents

theorem onNpe_of_eq {s : State} {f : StreamUnit NpeDp → StreamUnit NpeDp} {u : StreamUnit NpeDp}
    (h : f s.np.enc = u) : onNpe f s = { s with np.enc := u } := by
  subst h; rfl

theorem exec_npeByte (b : Byte) (s : State) : exec (.npeByte b) s = .next (onNpe (npeByte s.cfg b) s) := rfl

theorem exec_npeEnd (s : State) : exec .npeEnd s = .next (onNpe (npeEnd s.cfg) s) := rfl

/-- Settles O13: a byte is ignored outside `RUN`, and in it opens a block, closes the open one first, or joins it. -/
theorem npeByteGroupsByHighNibble : Obligations.NpeByteGroupsByHighNibble := by
  intro s b
  simp only [exec_npeByte, Host.Outcome.next.injEq]
  exact ⟨decode_eventWord s.cfg .npe .symbol b,
    fun hr => onNpe_of_eq (npeByte_ignored hr),
    fun hr hblk => onNpe_of_eq (npeByte_opens hr hblk),
    fun b₀ bs hr hblk => ⟨fun hends => onNpe_of_eq (npeByte_reopens hr hblk hends),
      fun hhi hroom => onNpe_of_eq (npeByte_joins hr hblk hhi hroom)⟩⟩

/-- Settles O15: both cases in `RUN` are `npeEnd_run`. -/
theorem npeEndFlushesTheOpenBlock : Obligations.NpeEndFlushesTheOpenBlock := by
  intro s
  simp only [exec_npeEnd, Host.Outcome.next.injEq]
  refine ⟨decode_eventWord s.cfg .npe .stop,
    fun hr => onNpe_of_eq (npeEnd_ignored hr),
    fun hr hblk => onNpe_of_eq ((npeEnd_run hr).trans ?_),
    fun hr _ => onNpe_of_eq (npeEnd_run hr)⟩
  rw [hblk, closeBlock, List.append_nil, ← hblk]

/-! ### The pass (R125) -/

theorem feed_npeByte_ctl (cfg : Config) (p : List Byte) {u : StreamUnit NpeDp} (hr : u.ctl.phase = .run) :
    (feed (npeByte cfg) p u).ctl = advanceBy p.length u.ctl := by
  induction p generalizing u with
  | nil => rfl
  | cons b p ih =>
    rw [feed_cons, ih (npeByte_keeps_run hr), npeByte_ctl hr, advance_eq_advanceBy, advanceBy_advanceBy,
      List.length_cons, Nat.add_comm]

/-- The whole unit after a pass, whatever it was before. -/
theorem npePass_eq (cfg : Config) (p : List Byte) (u : StreamUnit NpeDp) :
    npePass cfg p u = ⟨⟨.done, .none, 0, p.length⟩, ⟨[], npEncodeForm cfg p⟩⟩ := by
  obtain ⟨hphase, hbits⟩ := feed_npeByte_run cfg p (u := npeClear u) rfl BlockInv_nil rfl
  have hctl := feed_npeByte_ctl cfg p (u := npeClear u) rfl
  rw [npePass, pass, npeEnd_run hphase, hbits, hctl]
  simp [npeClear, advanceBy, Ctl.reset, NpeDp.reset]

theorem exec_encode_np {s : State} (hc : s.np.constructed = true) :
    exec (.cmdEncode .np) s = .next { s with np := encodeOp (npePass s.cfg) s.np } := if_pos hc

/-- Settles O36: `ENCODE` is the pass over the payload (`npePass_eq`), which ends in `DONE`. -/
theorem encodeNpGivesTheBlockEncoding : Obligations.EncodeNpGivesTheBlockEncoding := by
  intro s hc
  simp [exec_encode_np hc, encodeOp, npePass_eq]

/-! ### The block partition (R126) -/

theorem BlockInv.hi4_eq {blk : List Byte} (h : BlockInv blk) {x y : Byte} (hx : x ∈ blk) (hy : y ∈ blk) :
    hi4 x = hi4 y :=
  Option.some.inj ((h.2 x hx).trans (h.2 y hy).symm)

theorem BlockEnds_of_full {blk : List Byte} (h : blk.length = npMaxBlock) (rest : List Byte) : BlockEnds blk rest := by
  cases rest with
  | nil => trivial
  | cons b rest => exact .inl h

theorem firstBlock_isPrefix (p : List Byte) : firstBlock p <+: p := by
  cases p with
  | nil => exact List.prefix_rfl
  | cons b bs => exact (List.take_prefix _ _).trans (List.takeWhile_prefix _)

theorem BlockInv_firstBlock (p : List Byte) : BlockInv (firstBlock p) := by
  cases p with
  | nil => exact BlockInv_nil
  | cons b bs =>
    refine ⟨List.length_take_le _ _, fun x hx => ?_⟩
    rw [firstBlock] at hx
    have hhi : hi4 x = hi4 b := by
      simpa using List.mem_takeWhile_imp (List.mem_of_mem_take hx)
    simp [firstBlock, npMaxBlock, hhi]

theorem drop_length_takeWhile {α : Type} (q : α → Bool) (l : List α) :
    l.drop (l.takeWhile q).length = l.dropWhile q :=
  List.append_cancel_left
    ((List.prefix_append_drop (List.takeWhile_prefix q)).symm.trans List.takeWhile_append_dropWhile.symm)

/-- R126: the first block "extends to the largest `e`": it is full, or stops before the first byte of another high
nibble. -/
theorem BlockEnds_firstBlock (p : List Byte) : BlockEnds (firstBlock p) (p.drop (firstBlock p).length) := by
  cases p with
  | nil => trivial
  | cons b bs =>
    by_cases hfull : npMaxBlock ≤ ((b :: bs).takeWhile (fun x => hi4 x = hi4 b)).length
    · exact BlockEnds_of_full (List.length_take_of_le hfull) _
    · have hwhole : firstBlock (b :: bs) = (b :: bs).takeWhile (fun x => hi4 x = hi4 b) :=
        List.take_of_length_le (Nat.le_of_not_le hfull)
      have hother := List.head?_dropWhile_not (fun x => decide (hi4 x = hi4 b)) (b :: bs)
      rw [hwhole, drop_length_takeWhile]
      split at hother
      case h_1 c hc =>
        obtain ⟨rest, hdrop⟩ := List.head?_eq_some_iff.mp hc
        rw [hdrop]
        exact .inr (by simpa using hother)
      case h_2 hnone =>
        rw [List.head?_eq_none_iff.mp hnone]
        trivial

/-- R126: the blocks of a payload, each cut off as far as it goes before the next one begins. -/
inductive GreedyBlocks : List Byte → List (List Byte) → Prop where
  | nil : GreedyBlocks [] []
  | cons {blk rest : List Byte} {blks : List (List Byte)} (hne : blk ≠ []) (hinv : BlockInv blk)
      (hends : BlockEnds blk rest) (h : GreedyBlocks rest blks) : GreedyBlocks (blk ++ rest) (blk :: blks)

theorem greedyBlocks_npBlocks : ∀ p : List Byte, GreedyBlocks p (npBlocks p)
  | [] => .nil
  | b :: bs => by
    have hpos := firstBlock_length_pos b bs
    have hrest := greedyBlocks_npBlocks ((b :: bs).drop (firstBlock (b :: bs)).length)
    have hcut := GreedyBlocks.cons (List.ne_nil_of_length_pos hpos) (BlockInv_firstBlock _) (BlockEnds_firstBlock _)
      hrest
    rwa [← List.prefix_append_drop (firstBlock_isPrefix _), ← npBlocks_cons] at hcut
  termination_by p => p.length
  decreasing_by
    rw [List.length_drop]
    exact Nat.sub_lt (Nat.succ_pos _) hpos

namespace GreedyBlocks

variable {p : List Byte} {blks : List (List Byte)}

theorem flatten_eq (h : GreedyBlocks p blks) : blks.flatten = p := by
  induction h with
  | nil => rfl
  | cons _ _ _ _ ih => rw [List.flatten_cons, ih]

theorem ne_nil_and_BlockInv (h : GreedyBlocks p blks) : ∀ blk ∈ blks, blk ≠ [] ∧ BlockInv blk := by
  induction h with
  | nil => nofun
  | cons hne hinv _ _ ih => exact List.forall_mem_cons.mpr ⟨⟨hne, hinv⟩, ih⟩

/-- The byte behind a block is the first one of the next block, whose high nibble all of that block has. -/
theorem isChain (h : GreedyBlocks p blks) :
    List.IsChain (fun a b => a.length = npMaxBlock ∨ ∀ x ∈ a, ∀ y ∈ b, hi4 x ≠ hi4 y) blks := by
  induction h with
  | nil => exact .nil
  | @cons blk rest blks hne hinv hends h ih =>
    cases h with
    | nil => exact .singleton _
    | @cons next rest _ hnext hinv' =>
      refine .cons_cons ?_ ih
      obtain ⟨c, cs, rfl⟩ := List.exists_cons_of_ne_nil hnext
      refine hends.imp_right fun hother x hx y hy heq => hother ?_
      rw [← hinv'.hi4_eq hy List.mem_cons_self, ← heq, hinv.2 x hx]

theorem length_flatMap_closeBlock_le (cfg : Config) (h : GreedyBlocks p blks) :
    (blks.flatMap (closeBlock cfg)).length ≤ 8 * p.length := by
  induction h with
  | nil => exact le_rfl
  | @cons blk rest blks _ _ _ _ ih =>
    have hblk : (closeBlock cfg blk).length ≤ 8 * blk.length := by
      rw [length_closeBlock, npLitMax]
      split <;> omega
    rw [List.flatMap_cons, List.length_append, List.length_append, Nat.mul_add]
    exact Nat.add_le_add hblk ih

end GreedyBlocks

/-- Settles O45: the blocks are `GreedyBlocks`. -/
theorem npBlocksPartitionThePayload : Obligations.NpBlocksPartitionThePayload := by
  intro p
  have h := greedyBlocks_npBlocks p
  refine ⟨h.flatten_eq, fun blk hmem => ?_, h.isChain⟩
  obtain ⟨hne, hinv⟩ := h.ne_nil_and_BlockInv blk hmem
  exact ⟨List.length_pos_of_ne_nil hne, hinv.1, fun x hx y hy => hinv.hi4_eq hx hy⟩

/-- Settles O47: a group of four or more bytes is no longer than its literals would be (R128). -/
theorem npEncodedLength : Obligations.NpEncodedLength := by
  intro cfg p
  exact ⟨List.length_flatMap.trans (congrArg List.sum (List.map_congr_left fun blk _ => length_closeBlock cfg blk)),
    (greedyBlocks_npBlocks p).length_flatMap_closeBlock_le cfg⟩

/-! ### The boundary at 15 (R127) -/

theorem BlockInv_map_joinNibbles (h : Nibble) {lo : List Nibble} (hlen : lo.length ≤ npMaxBlock) :
    BlockInv (lo.map (joinNibbles h)) := by
  refine ⟨by rwa [List.length_map], fun b hb => ?_⟩
  cases lo with
  | nil => cases hb
  | cons l lo =>
    obtain ⟨k, -, rfl⟩ := List.mem_map.mp hb
    simp

theorem npEncodeForm_of_block (cfg : Config) {blk : List Byte} (h : BlockInv blk) :
    npEncodeForm cfg blk = closeBlock cfg blk := by
  simpa [npEncodeForm, npBlocks, npBlocksFuel] using npEncodeForm_append (cfg := cfg) (rest := []) h trivial

/-- Settles O46: 15 bytes of one high nibble are a full block, at which the closed form splits; the tail is one block
of its own. -/
theorem blockBoundaryAtFifteen : Obligations.BlockBoundaryAtFifteen := by
  intro cfg h lo tail hlo htail
  have hfull : (lo.map (joinNibbles h)).length = npMaxBlock := by rw [List.length_map, hlo, npMaxBlock]
  have hgroup : closeBlock cfg (lo.map (joinNibbles h)) = npGrpBits cfg h 15 lo := by
    rw [closeBlock_group cfg h (by rw [hlo]; decide), hlo]
    rfl
  refine ⟨by rw [length_npGrpBits, hlo], ?_⟩
  rw [List.map_append, npEncodeForm_append (BlockInv_map_joinNibbles h hlo.le) (BlockEnds_of_full hfull _), hgroup,
    npEncodeForm_of_block cfg (BlockInv_map_joinNibbles h htail)]
  congr 1
  split
  case isTrue hlit => rw [closeBlock_literals cfg (by rwa [List.length_map]), List.flatMap_map]
  case isFalse hgrp => exact closeBlock_group cfg h (Nat.lt_of_not_le hgrp)

end Sys2Proof.Machine
end

section
/-! The nibble-pack decoder `NPD` (42_nibble_pack_decoder.md). -/

namespace Sys2Proof.Machine

/-! ### Events (R142 to R147) -/

theorem fieldWidth_eq (m : NpdMode) : fieldWidth m = if m = .lit then 8 else 4 := by
  cases m <;> rfl

theorem npdBitAct_complete {cfg : Config} {v : Bit} {d : NpdDp} (h : ¬ d.nbits.toNat + 1 < fieldWidth d.mode) :
    npdBitAct cfg v d = fieldDone cfg (shiftIn d.shreg v) { d with shreg := 0, nbits := 0 } := if_neg h

section NpdEvents

variable {cfg : Config} {v : Bit} {u : StreamUnit NpdDp}

theorem npdBit_ignored (hr : u.ctl.phase ≠ .run) : npdBit cfg v u = u := symbolEvent_ignored hr

theorem npdBit_incomplete (hr : u.ctl.phase = .run) (h : u.dp.nbits.toNat + 1 < fieldWidth u.dp.mode) :
    npdBit cfg v u = { u with
      dp.shreg := shiftIn u.dp.shreg v, dp.nbits := BitVec.ofNat 3 (u.dp.nbits.toNat + 1)
      ctl.inPos := u.ctl.inPos + 1 } :=
  symbolEvent_ok hr (if_pos h)

theorem npdEnd_ignored (hr : u.ctl.phase ≠ .run) : npdEnd u = u := endEvent_ignored hr

theorem npdEnd_boundary (hr : u.ctl.phase = .run) (hm : u.dp.mode = .lit) (hn : u.dp.nbits = 0) :
    npdEnd u = { u with ctl.phase := .done } :=
  endEvent_ok hr (if_pos ⟨hm, hn⟩)

theorem npdEnd_unfinished (hr : u.ctl.phase = .run) (h : u.dp.mode ≠ .lit ∨ u.dp.nbits ≠ 0) :
    npdEnd u = { u with ctl := ⟨.faulted, .malformedStream, u.ctl.inPos, u.ctl.inPos⟩ } :=
  endEvent_error hr (if_neg (not_and_or.mpr h))

/-! A bit that completes its field, by the field's mode. -/

variable (hr : u.ctl.phase = .run) (hc : ¬ u.dp.nbits.toNat + 1 < fieldWidth u.dp.mode)
include hr hc

theorem npdBit_fieldDone {d : NpdDp}
    (h : fieldDone cfg (shiftIn u.dp.shreg v) { u.dp with shreg := 0, nbits := 0 } = .ok d) :
    npdBit cfg v u = ⟨advance u.ctl, d⟩ :=
  symbolEvent_ok hr ((npdBitAct_complete hc).trans h)

theorem npdBit_sentinel (hm : u.dp.mode = .lit) (hf : shiftIn u.dp.shreg v = cfg.sentinel) :
    npdBit cfg v u = { u with
      dp.shreg := 0, dp.nbits := 0, dp.mode := .hi, ctl.inPos := u.ctl.inPos + 1 } :=
  npdBit_fieldDone hr hc (by simp only [fieldDone, hm, litFieldDone, if_pos hf])

theorem npdBit_literal (hm : u.dp.mode = .lit) (hf : shiftIn u.dp.shreg v ≠ cfg.sentinel) :
    npdBit cfg v u = { u with
      dp.shreg := 0, dp.nbits := 0, dp.out := u.dp.out ++ [shiftIn u.dp.shreg v]
      ctl.inPos := u.ctl.inPos + 1 } :=
  npdBit_fieldDone hr hc (by simp only [fieldDone, hm, litFieldDone, if_neg hf, emit_eq])

theorem npdBit_highNibble (hm : u.dp.mode = .hi) :
    npdBit cfg v u = { u with
      dp.shreg := 0, dp.nbits := 0, dp.mode := .cnt (lo4 (shiftIn u.dp.shreg v))
      ctl.inPos := u.ctl.inPos + 1 } :=
  npdBit_fieldDone hr hc (by simp only [fieldDone, hm, hiFieldDone])

theorem npdBit_count_strict {h : Nibble} (hm : u.dp.mode = .cnt h) (hn : lo4 (shiftIn u.dp.shreg v) ≤ 3)
    (hs : cfg.npStrictCount = true) :
    npdBit cfg v u = { u with ctl := ⟨.faulted, .malformedStream, u.ctl.inPos, u.ctl.inPos⟩ } :=
  symbolEvent_error hr ((npdBitAct_complete hc).trans
    (by simp only [fieldDone, hm, cntFieldDone, if_pos (And.intro hn hs)]))

theorem npdBit_count_zero {h : Nibble} (hm : u.dp.mode = .cnt h) (hn : lo4 (shiftIn u.dp.shreg v) = 0)
    (hs : cfg.npStrictCount = false) :
    npdBit cfg v u = { u with
      dp.shreg := 0, dp.nbits := 0, dp.mode := .lit, ctl.inPos := u.ctl.inPos + 1 } :=
  npdBit_fieldDone hr hc (by simp [fieldDone, hm, cntFieldDone, hs, hn])

theorem npdBit_count {h : Nibble} (hm : u.dp.mode = .cnt h) (hn : lo4 (shiftIn u.dp.shreg v) ≠ 0)
    (hs : lo4 (shiftIn u.dp.shreg v) ≤ 3 → cfg.npStrictCount = false) :
    npdBit cfg v u = { u with
      dp.shreg := 0, dp.nbits := 0, dp.grpRem := lo4 (shiftIn u.dp.shreg v), dp.mode := .lo h
      ctl.inPos := u.ctl.inPos + 1 } := by
  have hlenient : ¬ (lo4 (shiftIn u.dp.shreg v) ≤ 3 ∧ cfg.npStrictCount = true) :=
    fun ⟨hle, ht⟩ => Bool.false_ne_true ((hs hle).symm.trans ht)
  exact npdBit_fieldDone hr hc (by simp only [fieldDone, hm, cntFieldDone, if_neg hlenient, if_neg hn])

theorem npdBit_lastNibble {h : Nibble} (hm : u.dp.mode = .lo h) (hg : u.dp.grpRem = 1) :
    npdBit cfg v u = { u with
      dp.shreg := 0, dp.nbits := 0, dp.out := u.dp.out ++ [joinNibbles h (lo4 (shiftIn u.dp.shreg v))]
      dp.grpRem := 0, dp.mode := .lit, ctl.inPos := u.ctl.inPos + 1 } :=
  npdBit_fieldDone hr hc (by simp only [fieldDone, hm, loFieldDone, if_pos hg, emit_eq])

theorem npdBit_lowNibble {h : Nibble} (hm : u.dp.mode = .lo h) (hg : u.dp.grpRem ≠ 1) :
    npdBit cfg v u = { u with
      dp.shreg := 0, dp.nbits := 0, dp.out := u.dp.out ++ [joinNibbles h (lo4 (shiftIn u.dp.shreg v))]
      dp.grpRem := u.dp.grpRem - 1, ctl.inPos := u.ctl.inPos + 1 } :=
  npdBit_fieldDone hr hc (by simp only [fieldDone, hm, loFieldDone, if_neg hg, emit_eq])

end NpdEvents

theorem onNpd_of_eq {s : State} {f : StreamUnit NpdDp → StreamUnit NpdDp} {u : StreamUnit NpdDp}
    (h : f s.np.dec = u) : onNpd f s = { s with np.dec := u } := by
  subst h; rfl

theorem exec_npdBit (v : Bit) (s : State) : exec (.npdBit v) s = .next (onNpd (npdBit s.cfg v) s) := rfl

theorem exec_npdEnd (s : State) : exec .npdEnd s = .next (onNpd npdEnd s) := rfl

/-- Settles O16: a bit is ignored outside `RUN`, and in it shifts in or completes the field, by its mode. -/
theorem npdBitParsesAndExpands : Obligations.NpdBitParsesAndExpands := by
  intro s v
  simp only [exec_npdBit, Host.Outcome.next.injEq, ← fieldWidth_eq]
  exact ⟨decode_bitEventWord s.cfg .symbol v,
    fun hr => onNpd_of_eq (npdBit_ignored hr),
    fun hr h => onNpd_of_eq (npdBit_incomplete hr h),
    fun hr hc => ⟨fun hm hf => onNpd_of_eq (npdBit_sentinel hr hc hm hf),
      fun hm hf => onNpd_of_eq (npdBit_literal hr hc hm hf),
      fun hm => onNpd_of_eq (npdBit_highNibble hr hc hm),
      fun _ hm hn hs => onNpd_of_eq (npdBit_count_strict hr hc hm hn hs),
      fun _ hm hn hs => onNpd_of_eq (npdBit_count_zero hr hc hm hn hs),
      fun _ hm hn hs => onNpd_of_eq (npdBit_count hr hc hm hn hs),
      fun _ hm hg => onNpd_of_eq (npdBit_lastNibble hr hc hm hg),
      fun _ hm hg => onNpd_of_eq (npdBit_lowNibble hr hc hm hg)⟩⟩

/-- Settles O17: `END` is ignored outside `RUN`, and in it finishes the pass at a token boundary only. -/
theorem npdEndNeedsATokenBoundary : Obligations.NpdEndNeedsATokenBoundary := by
  intro s
  simp only [exec_npdEnd, Host.Outcome.next.injEq]
  exact ⟨decode_bitEventWord s.cfg .stop,
    fun hr => onNpd_of_eq (npdEnd_ignored hr),
    fun hr hm hn => onNpd_of_eq (npdEnd_boundary hr hm hn),
    fun hr h => onNpd_of_eq (npdEnd_unfinished hr h)⟩

/-! ### Streams that reach a token boundary (R85) -/

/-- From a token boundary, the bits `s` lead to a token boundary and yield the bytes `x`. -/
def NpdReads (cfg : Config) (s : List Bit) (x : List Byte) : Prop :=
  ∀ (c : Ctl) (o : List Byte), c.phase = .run →
    feed (npdBit cfg) s ⟨c, .inField .lit [] 0 o⟩ = ⟨advanceBy s.length c, .inField .lit [] 0 (o ++ x)⟩

namespace NpdReads

variable {cfg : Config} {s t : List Bit} {x y : List Byte}

theorem nil (cfg : Config) : NpdReads cfg [] [] := by
  intro c o _
  rw [List.append_nil]
  rfl

theorem append (hs : NpdReads cfg s x) (ht : NpdReads cfg t y) : NpdReads cfg (s ++ t) (x ++ y) := by
  intro c o hr
  rw [feed_append, hs c o hr, ht (advanceBy s.length c) _ hr, advanceBy_advanceBy, List.length_append, List.append_assoc]

theorem literal {b : Byte} (hb : b ≠ cfg.sentinel) : NpdReads cfg (npLitBits b) [b] := by
  intro c o hr
  rw [npLitBits, bitsMsb_length]
  exact feed_npdBit_literal hr hb

theorem group (hi : Nibble) {n : Nibble} {lo : List Nibble} (hlo : lo.length = n.toNat)
    (hs : n ≤ 3 → cfg.npStrictCount = false) : NpdReads cfg (npGrpBits cfg hi n lo) (lo.map (joinNibbles hi)) := by
  intro c o hr
  rw [length_npGrpBits, hlo]
  by_cases hn : n = 0
  · subst hn
    obtain rfl : lo = [] := List.eq_nil_of_length_eq_zero hlo
    rw [feed_npGrpBits_zero hr hi (hs (by decide)), List.map_nil, List.append_nil]
    rfl
  · exact feed_npGrpBits_ok hr hi hlo hn hs

theorem npdPass_eq (h : NpdReads cfg s x) (u : StreamUnit NpdDp) :
    npdPass cfg s u = ⟨⟨.done, .none, 0, s.length⟩, ⟨.lit, 0, 0, 0, x⟩⟩ := by
  have hfeed : feed (npdBit cfg) s (npdClear u) = ⟨advanceBy s.length Ctl.reset, .inField .lit [] 0 x⟩ :=
    h Ctl.reset [] rfl
  rw [npdPass, pass, hfeed, npdEnd_boundary rfl rfl rfl]
  simp [advanceBy, Ctl.reset, NpdDp.inField, valMsb_nil]

end NpdReads

/-! ### Streams that end inside a token or hold a count that is rejected -/

/-- After `n` bits from `c` on, `NPD` is inside a token, or strict counts have rejected one (R145, R147). -/
def NpdHalted (cfg : Config) (c : Ctl) (n : Nat) (u : StreamUnit NpdDp) : Prop :=
  (u.ctl = advanceBy n c ∧ (u.dp.mode ≠ .lit ∨ u.dp.nbits ≠ 0)) ∨
  (cfg.npStrictCount = true ∧ ∃ k ≤ n, u.ctl = raiseFault .malformedStream (advanceBy k c))

/-- From a token boundary, the bits `s` leave `NPD` so. -/
def NpdHalts (cfg : Config) (s : List Bit) : Prop :=
  ∀ (c : Ctl) (o : List Byte), c.phase = .run →
    NpdHalted cfg c s.length (feed (npdBit cfg) s ⟨c, .inField .lit [] 0 o⟩)

section Halts

variable {cfg : Config} {c : Ctl} {s : List Bit}

theorem NpdHalted.of_advanceBy {m n : Nat} {u : StreamUnit NpdDp} (h : NpdHalted cfg (advanceBy m c) n u) :
    NpdHalted cfg c (m + n) u := by
  obtain ⟨hctl, hin⟩ | ⟨hs, k, hk, hctl⟩ := h
  · exact .inl ⟨hctl.trans (advanceBy_advanceBy m n c), hin⟩
  · exact .inr ⟨hs, m + k, Nat.add_le_add_left hk m, by rw [hctl, advanceBy_advanceBy]⟩

/-- Bits that are processed put off where the decoder halts. -/
theorem NpdHalted.of_feed {p : List Bit} {d d' : NpdDp} {n : Nat} (hn : p.length = n)
    (hp : feed (npdBit cfg) p ⟨c, d⟩ = ⟨advanceBy n c, d'⟩)
    (h : NpdHalted cfg (advanceBy n c) s.length (feed (npdBit cfg) s ⟨advanceBy n c, d'⟩)) :
    NpdHalted cfg c (p ++ s).length (feed (npdBit cfg) (p ++ s) ⟨c, d⟩) := by
  rw [feed_append, hp, List.length_append, hn]
  exact h.of_advanceBy

theorem NpdHalted.npdEnd_eq {n : Nat} {u : StreamUnit NpdDp} (hr : c.phase = .run) (h : NpdHalted cfg c n u) :
    ∃ k ≤ n, npdEnd u = ⟨⟨.faulted, .malformedStream, c.inPos + k, c.inPos + k⟩, u.dp⟩ ∧
      (cfg.npStrictCount = false → k = n) := by
  obtain ⟨ctl, dp⟩ := u
  obtain ⟨rfl, hin⟩ | ⟨hs, k, hk, rfl⟩ := h
  · exact ⟨n, le_rfl, npdEnd_unfinished hr hin, fun _ => rfl⟩
  · exact ⟨k, hk, npdEnd_ignored (by simp), by simp [hs]⟩

/-- The bits end inside a field. -/
theorem npdHalted_field {m : NpdMode} {g : BitVec 4} {o : List Byte} (hr : c.phase = .run)
    (h : s.length < fieldWidth m) (hin : m ≠ .lit ∨ s ≠ []) :
    NpdHalted cfg c s.length (feed (npdBit cfg) s ⟨c, .inField m [] g o⟩) := by
  rw [feed_npdBit_inField hr h]
  refine .inl ⟨rfl, hin.imp_right fun hne hzero => hne (List.eq_nil_of_length_eq_zero ?_)⟩
  have hw := fieldWidth_le m
  have hlen : (BitVec.ofNat 3 s.length).toNat = 0 := congrArg BitVec.toNat hzero
  rw [BitVec.toNat_ofNat] at hlen
  omega

theorem takeField_eq_none_iff {n : Nat} : takeField n s = none ↔ s.length < n := by
  simp [takeField]

/-- The bits end inside the low nibbles of a group. -/
theorem npdHalted_lowNibbles (hi : Nibble) {g : BitVec 4} {o : List Byte} (hr : c.phase = .run)
    (h : takeNibbles g.toNat s = none) :
    NpdHalted cfg c s.length (feed (npdBit cfg) s ⟨c, .inField (.lo hi) [] g o⟩) := by
  induction hk : g.toNat generalizing g s c o with
  | zero => rw [hk] at h; cases h
  | succ k ih =>
    cases hx : takeField 4 s with
    | none => exact npdHalted_field hr (takeField_eq_none_iff.mp hx) (.inl nofun)
    | some xs =>
      obtain ⟨x, s⟩ := xs
      have hrest : takeNibbles k s = none := by
        rw [hk, takeNibbles, hx] at h
        cases hlo : takeNibbles k s with
        | none => rfl
        | some lo => simp [hlo] at h
      have hne : g ≠ 1 := by
        rintro rfl
        obtain rfl : k = 0 := (Nat.succ.inj hk).symm
        cases hrest
      have hg : (g - 1).toNat = k := by bv_omega
      rw [takeField_eq_some_iff.mp hx]
      exact .of_feed (bitsMsb_length x) (feed_npdBit_lowNibble hr hi x hne) (ih hr (by rwa [hg]) hg)

theorem NpdReads.append_halts {t : List Bit} {x : List Byte} (hs : NpdReads cfg s x) (ht : NpdHalts cfg t) :
    NpdHalts cfg (s ++ t) :=
  fun c o hr => .of_feed rfl (hs c o hr) (ht _ _ hr)

namespace NpdHalts

theorem inLiteral (h : s.length < 8) (hne : s ≠ []) : NpdHalts cfg s :=
  fun _ _ hr => npdHalted_field hr h (.inr hne)

theorem inHighNibble (h : s.length < 4) : NpdHalts cfg (bitsMsb cfg.sentinel ++ s) :=
  fun _ _ hr => .of_feed (bitsMsb_length _) (feed_npdBit_sentinel hr) (npdHalted_field (m := .hi) hr h (.inl nofun))

/-- What the bits after the sentinel and the high nibble do, the whole does. -/
theorem of_count (hi : Nibble) (h : ∀ (c : Ctl) (o : List Byte), c.phase = .run →
    NpdHalted cfg c s.length (feed (npdBit cfg) s ⟨c, .inField (.cnt hi) [] 0 o⟩)) :
    NpdHalts cfg (bitsMsb cfg.sentinel ++ (bitsMsb hi ++ s)) :=
  fun c o hr => .of_feed (bitsMsb_length _) (feed_npdBit_sentinel hr)
    (.of_feed (bitsMsb_length hi) (feed_npdBit_highNibble (c := advanceBy 8 c) hr hi) (h _ o hr))

theorem inCount (hi : Nibble) (h : s.length < 4) : NpdHalts cfg (bitsMsb cfg.sentinel ++ (bitsMsb hi ++ s)) :=
  of_count hi fun _ _ hr => npdHalted_field hr h (.inl nofun)

theorem rejectedCount (hi : Nibble) {n : Nibble} (hn : n ≤ 3) (hs : cfg.npStrictCount = true) :
    NpdHalts cfg (bitsMsb cfg.sentinel ++ (bitsMsb hi ++ (bitsMsb n ++ s))) := by
  refine of_count hi fun c o hr => ?_
  rw [feed_append, feed_npdBit_count_strict hr hi hn hs, List.length_append, bitsMsb_length]
  exact .inr ⟨hs, 3, by omega, congrArg StreamUnit.ctl (feed_symbolEvent_ignored (npdBitAct cfg) s (by simp))⟩

theorem inLowNibbles (hi : Nibble) {n : Nibble} (hs : n ≤ 3 → cfg.npStrictCount = false)
    (h : takeNibbles n.toNat s = none) :
    NpdHalts cfg (bitsMsb cfg.sentinel ++ (bitsMsb hi ++ (bitsMsb n ++ s))) := by
  have hn : n ≠ 0 := by rintro rfl; cases h
  exact of_count hi fun c o hr =>
    .of_feed (bitsMsb_length n) (feed_npdBit_count hr hi hn hs) (npdHalted_lowNibbles hi hr h)

theorem npdPass_eq (h : NpdHalts cfg s) (u : StreamUnit NpdDp) :
    ∃ pos dp, npdPass cfg s u = ⟨⟨.faulted, .malformedStream, pos, pos⟩, dp⟩ ∧ pos ≤ s.length ∧
      (cfg.npStrictCount = false → pos = s.length) := by
  have hr : Ctl.reset.phase = .run := rfl
  obtain ⟨k, hk, hend, hlenient⟩ := (h Ctl.reset [] hr).npdEnd_eq hr
  rw [show Ctl.reset.inPos = 0 from rfl, Nat.zero_add] at hend
  exact ⟨k, _, hend, hk, hlenient⟩

end NpdHalts

end Halts

/-! ### The recursive form (R149) -/

/-- What the recursive form's answer says of the decoder. -/
def NpdAnswers (cfg : Config) (s : List Bit) : Option (List Byte) → Prop
  | some x => NpdReads cfg s x
  | none => NpdHalts cfg s

theorem NpdReads.append_answers {cfg : Config} {s t : List Bit} {x : List Byte} {r : Option (List Byte)}
    (hs : NpdReads cfg s x) (ht : NpdAnswers cfg t r) : NpdAnswers cfg (s ++ t) (r.map (x ++ ·)) := by
  cases r with
  | none => exact hs.append_halts ht
  | some y => exact hs.append ht

/-- Token by token, along the recursion of R149. -/
theorem npDecodeFuel_answers (cfg : Config) {k : Nat} {s : List Bit} (hk : s.length ≤ k) :
    NpdAnswers cfg s (npDecodeFuel cfg k s) := by
  fun_induction npDecodeFuel cfg k s with
  | case1 => exact .nil cfg
  | case2 => exact absurd hk (Nat.not_succ_le_zero _)
  | case3 k v vs hx => exact .inLiteral (takeField_eq_none_iff.mp hx) (List.cons_ne_nil v vs)
  | case4 k v vs x s hx hne ih =>
    rw [takeField_eq_some_iff.mp hx] at hk ⊢
    rw [List.length_append, bitsMsb_length] at hk
    exact (NpdReads.literal hne).append_answers (ih (by omega))
  | case5 k v vs x s hx heq hhi =>
    obtain rfl := not_not.mp heq
    rw [takeField_eq_some_iff.mp hx]
    exact .inHighNibble (takeField_eq_none_iff.mp hhi)
  | case6 k v vs x s hx heq hi s₂ hhi hn =>
    obtain rfl := not_not.mp heq
    rw [takeField_eq_some_iff.mp hx, takeField_eq_some_iff.mp hhi]
    exact .inCount hi (takeField_eq_none_iff.mp hn)
  | case7 k v vs x s hx heq hi s₂ hhi n s₃ hn hstrict =>
    obtain rfl := not_not.mp heq
    rw [takeField_eq_some_iff.mp hx, takeField_eq_some_iff.mp hhi, takeField_eq_some_iff.mp hn]
    exact .rejectedCount hi hstrict.1 hstrict.2
  | case8 k v vs x s hx heq hi s₂ hhi n s₃ hn hlenient hlo =>
    obtain rfl := not_not.mp heq
    rw [takeField_eq_some_iff.mp hx, takeField_eq_some_iff.mp hhi, takeField_eq_some_iff.mp hn]
    exact .inLowNibbles hi (by simpa using hlenient) hlo
  | case9 k v vs x s hx heq hi s₂ hhi n s₃ hn hlenient lo s₄ hlo ih =>
    obtain rfl := not_not.mp heq
    obtain ⟨hlen, hs₃⟩ := eq_of_takeNibbles hlo
    have hs : v :: vs = npGrpBits cfg hi n lo ++ s₄ := by
      rw [takeField_eq_some_iff.mp hx, takeField_eq_some_iff.mp hhi, takeField_eq_some_iff.mp hn, hs₃]
      simp [npGrpBits]
    rw [hs] at hk ⊢
    rw [List.length_append, length_npGrpBits] at hk
    exact (NpdReads.group hi hlen (by simpa using hlenient)).append_answers (ih (by omega))

theorem exec_decode_np_of_npdPass {s : State} {st : List Bit} {u : StreamUnit NpdDp}
    (h : npdPass s.cfg st s.np.dec = u) : exec (.cmdDecode (.np st)) s = .next { s with
      np.dec := u, np.decValid := decide (u.ctl.phase = .done) } := by
  subst h; rfl

/-- Settles O38: `DECODE` is the pass over the stream, and `npDecodeFuel_answers` says how it ends. -/
theorem decodeNpGivesTheRecursiveForm : Obligations.DecodeNpGivesTheRecursiveForm := by
  intro s st
  have hanswer : NpdAnswers s.cfg st (npDecodeForm s.cfg st) := npDecodeFuel_answers s.cfg le_rfl
  refine ⟨fun x hx => ?_, fun hx => ?_⟩
  · rw [hx] at hanswer
    exact exec_decode_np_of_npdPass (NpdReads.npdPass_eq hanswer s.np.dec)
  · rw [hx] at hanswer
    obtain ⟨pos, dp, hpass, hpos⟩ := NpdHalts.npdPass_eq hanswer s.np.dec
    exact ⟨pos, dp, exec_decode_np_of_npdPass hpass, hpos⟩

/-! ### Reading back an encoding (R151) -/

/-- The encoder reads no parameter but the sentinel. -/
theorem closeBlock_congr {cfg cfg' : Config} (h : cfg'.sentinel = cfg.sentinel) (blk : List Byte) :
    closeBlock cfg' blk = closeBlock cfg blk := by
  cases blk with
  | nil => rfl
  | cons b₀ bs => simp only [closeBlock, npGrpBits, h]

theorem npEncodeForm_congr {cfg cfg' : Config} (h : cfg'.sentinel = cfg.sentinel) (x : List Byte) :
    npEncodeForm cfg' x = npEncodeForm cfg x :=
  congrArg (fun f => (npBlocks x).flatMap f) (funext (closeBlock_congr h))

theorem BlockInv.exists_eq_map_joinNibbles {blk : List Byte} (h : BlockInv blk) :
    ∃ (hi : Nibble) (lo : List Nibble), blk = lo.map (joinNibbles hi) := by
  cases blk with
  | nil => exact ⟨0, [], rfl⟩
  | cons b₀ bs =>
    refine ⟨hi4 b₀, (b₀ :: bs).map lo4, ?_⟩
    rw [List.map_map, List.map_congr_left (g := id) fun b hb => ?_, List.map_id]
    rw [Function.comp_apply, ← h.hi4_eq hb List.mem_cons_self, joinNibbles_hi4_lo4, id]

namespace NpdReads

variable {cfg : Config}

theorem literals {blk : List Byte} (hs : cfg.sentinel ∉ blk) : NpdReads cfg (blk.flatMap npLitBits) blk := by
  induction blk with
  | nil => exact .nil cfg
  | cons b blk ih =>
    have hb : b ≠ cfg.sentinel := (List.ne_of_not_mem_cons hs).symm
    exact (NpdReads.literal hb).append (ih (List.not_mem_of_not_mem_cons hs))

/-- A short block comes back as literals, which the sentinel's absence keeps apart from groups; a long one as a group,
whose count strict counts accept. -/
theorem closedBlock {blk : List Byte} (h : BlockInv blk) (hs : cfg.sentinel ∉ blk) :
    NpdReads cfg (closeBlock cfg blk) blk := by
  by_cases hlit : blk.length ≤ npLitMax
  · rw [closeBlock_literals cfg hlit]
    exact literals hs
  · obtain ⟨hi, lo, rfl⟩ := h.exists_eq_map_joinNibbles
    rw [List.length_map] at hlit
    have hmax : lo.length ≤ npMaxBlock := by simpa using h.1
    have hlen : (BitVec.ofNat 4 lo.length).toNat = lo.length :=
      (BitVec.toNat_ofNat ..).trans (Nat.mod_eq_of_lt (Nat.lt_succ_of_le hmax))
    rw [closeBlock_group cfg hi (Nat.lt_of_not_le hlit)]
    refine group hi hlen.symm fun hle => absurd ?_ hlit
    rw [← hlen]
    exact hle

theorem blocks {p : List Byte} {blks : List (List Byte)} (h : GreedyBlocks p blks) (hs : cfg.sentinel ∉ p) :
    NpdReads cfg (blks.flatMap (closeBlock cfg)) p := by
  induction h with
  | nil => exact .nil cfg
  | cons _ hinv _ _ ih =>
    obtain ⟨hblk, hrest⟩ := not_or.mp (List.mem_append.not.mp hs)
    exact (closedBlock hinv hblk).append (ih hrest)

end NpdReads

/-- The decoder's pass over an encoding ends in `DONE` with the payload. -/
theorem npdPass_npEncodeForm {cfg : Config} {x : List Byte} (hs : cfg.sentinel ∉ x) (u : StreamUnit NpdDp) :
    npdPass cfg (npEncodeForm cfg x) u = ⟨⟨.done, .none, 0, (npEncodeForm cfg x).length⟩, ⟨.lit, 0, 0, 0, x⟩⟩ :=
  (NpdReads.blocks (greedyBlocks_npBlocks x) hs).npdPass_eq u

theorem sentinel_notMem_of_validate {cfg : Config} {x : List Byte} (h : validate cfg x = some (.ok ())) :
    cfg.sentinel ∉ x := by
  refine (svPass_done_iff cfg x ⟨Ctl.reset, ()⟩).mp ?_
  cases hp : (svPass cfg x ⟨Ctl.reset, ()⟩).ctl.phase with
  | done => rfl
  | run | faulted => simp [validate, unitResult, hp] at h

/-- Settles O41: the encoding is the closed form (`npePass_eq`), which the decoder reads back (`npdPass_npEncodeForm`);
strict counts do not enter the encoding. -/
theorem nibblePackRoundTrip : Obligations.NibblePackRoundTrip := by
  intro cfg x strict hvalid
  have hs : cfg.sentinel ∉ x := sentinel_notMem_of_validate hvalid
  refine ⟨npEncodeForm cfg x, by simp [npEncode, npePass_eq, unitResult], ?_⟩
  have hform : npEncodeForm { cfg with npStrictCount := strict } x = npEncodeForm cfg x := npEncodeForm_congr rfl x
  rw [← hform, npDecode, npdPass_npEncodeForm (cfg := { cfg with npStrictCount := strict }) hs]
  rfl

end Sys2Proof.Machine
end

section
/-! The run-length encoder `RLE` (43_run_length_encoder.md). -/

namespace Sys2Proof.Machine

/-! ### Maximal runs (R165) -/

theorem flatMap_replicate_rlRuns (p : List Byte) : (rlRuns p).flatMap (fun r => List.replicate r.2 r.1) = p := by
  fun_induction rlRuns p with
  | case1 => rfl
  | case2 b bs hruns ih => rw [← ih, hruns]; rfl
  | case3 bs v n rs hruns ih =>
    rw [hruns] at ih
    rw [← ih, List.flatMap_cons, List.replicate_succ]
    rfl
  | case4 b bs v n rs hruns _ ih => rw [List.flatMap_cons, ← hruns, ih]; rfl

theorem one_le_of_mem_rlRuns {p : List Byte} {r : Byte × Nat} (h : r ∈ rlRuns p) : 1 ≤ r.2 := by
  fun_induction rlRuns p with
  | case1 => cases h
  | case2 b bs hruns ih => rw [List.mem_singleton.mp h]
  | case3 bs v n rs hruns ih =>
    obtain rfl | hrs := List.mem_cons.mp h
    · exact Nat.succ_pos n
    · exact ih (hruns ▸ List.mem_cons_of_mem _ hrs)
  | case4 b bs v n rs hruns _ ih =>
    obtain rfl | hrs := List.mem_cons.mp h
    · exact le_rfl
    · exact ih (hruns ▸ hrs)

theorem isChain_rlRuns (p : List Byte) : List.IsChain (fun a b => a.1 ≠ b.1) (rlRuns p) := by
  fun_induction rlRuns p with
  | case1 => exact .nil
  | case2 b bs hruns ih => exact .singleton _
  | case3 bs v n rs hruns ih =>
    rw [hruns] at ih
    cases ih with
    | singleton => exact .singleton _
    | cons_cons hne hrest => exact .cons_cons hne hrest
  | case4 b bs v n rs hruns hne ih => exact .cons_cons hne (hruns ▸ ih)

/-- Settles O48: the three parts are the three lemmas above. -/
theorem rlRunsPartitionThePayload : Obligations.RlRunsPartitionThePayload :=
  fun p => ⟨flatMap_replicate_rlRuns p, fun _ => one_le_of_mem_rlRuns, isChain_rlRuns p⟩

/-! ### The closed form (R165) -/

theorem short_of_firstLongRun_eq_none {rs : List (Byte × Nat)} {start : Nat} (h : firstLongRun start rs = none) :
    ∀ r ∈ rs, r.2 ≤ rlMaxRun := by
  fun_induction firstLongRun start rs with
  | case1 => nofun
  | case2 => cases h
  | case3 start v n rs hn ih => exact List.forall_mem_cons.mpr ⟨Nat.le_of_not_lt hn, ih h⟩

theorem rlEncodeForm_eq_ok {cfg : Config} {p e : List Byte} (h : rlEncodeForm cfg p = .ok e) :
    (∀ r ∈ rlRuns p, r.2 ≤ rlMaxRun) ∧ e = (rlRuns p).flatMap (runToken cfg) := by
  rw [rlEncodeForm] at h
  split at h <;> cases h
  case h_2 hnone => exact ⟨short_of_firstLongRun_eq_none hnone, rfl⟩

theorem rlEncodeForm_eq_error {cfg : Config} {p : List Byte} {f : FaultCode} {pos : Nat}
    (h : rlEncodeForm cfg p = .error f pos) :
    f = .unsupportedRunLength ∧ firstLongRun 0 (rlRuns p) = some pos := by
  rw [rlEncodeForm] at h
  split at h <;> cases h
  case h_1 hlong => exact ⟨rfl, hlong⟩

/-- A payload that begins with `n` equal bytes has a first run of at least `n`. -/
theorem rlRuns_replicate_append (n : Nat) (v : Byte) (p : List Byte) :
    ∃ m rs, rlRuns (List.replicate (n + 1) v ++ p) = (v, n + 1 + m) :: rs := by
  induction n with
  | zero =>
    obtain ⟨m, rs, h⟩ := rlRuns_cons_head v p
    exact ⟨m, rs, by rw [Nat.zero_add, Nat.add_comm 1]; exact h⟩
  | succ n ih =>
    obtain ⟨m, rs, h⟩ := ih
    refine ⟨m, rs, ?_⟩
    rw [List.replicate_succ, List.cons_append, rlRuns, h, Nat.add_right_comm (n + 1) 1 m]
    simp

theorem firstLongRun_tenth (start : Nat) (v : Byte) (p : List Byte) :
    firstLongRun start (rlRuns (List.replicate 9 v ++ v :: p)) = some (start + 9) := by
  have hten : List.replicate 9 v ++ v :: p = List.replicate 10 v ++ p := rfl
  obtain ⟨m, rs, h⟩ := rlRuns_replicate_append 9 v p
  rw [hten, h, firstLongRun, if_pos (Nat.lt_add_right m (by decide))]
  rfl

/-- A run of at most 9 that the payload does not go on with is passed over. -/
theorem firstLongRun_replicate_append {n : Nat} (hpos : 1 ≤ n) (hshort : n ≤ rlMaxRun) {v : Byte} {p : List Byte}
    (hp : p.head? ≠ some v) (start : Nat) :
    firstLongRun start (rlRuns (List.replicate n v ++ p)) = firstLongRun (start + n) (rlRuns p) := by
  obtain ⟨k, rfl⟩ : ∃ k, n = k + 1 := Nat.exists_eq_succ_of_ne_zero (Nat.ne_zero_of_lt hpos)
  have hruns : rlRuns (List.replicate (k + 1) v ++ p) = (v, k + 1) :: rlRuns p := by
    cases p with
    | nil => rw [List.append_nil, rlRuns_replicate]; rfl
    | cons b p => exact rlRuns_replicate_append_of_ne fun hb => hp (congrArg some hb)
  rw [hruns, firstLongRun, if_neg (Nat.not_lt.mpr hshort)]

/-! ### Closed runs (R160) -/

/-- Settles O19: the closed form's token of the run has the two cases. -/
theorem closedRunBytes : Obligations.ClosedRunBytes := by
  intro cfg v n _ _
  rw [closeRun_eq_runToken, runToken]
  refine ⟨fun hmarker => ?_, fun hlit => if_neg (Nat.not_lt.mpr hlit)⟩
  rw [if_pos (show n.toNat > rlLitMax from hmarker), BitVec.ofNat_add]
  rfl

/-! ### The open run (R38) -/

theorem RunInv_opened_iff {v : Byte} {n : BitVec 4} : RunInv (.opened v n) ↔ 1 ≤ n.toNat ∧ n.toNat ≤ rlMaxRun :=
  or_iff_right nofun

theorem RunInv_opened_one (v : Byte) : RunInv (.opened v 1) := RunInv_opened_iff.mpr (by decide)

theorem toNat_add_one_of_le_rlMaxRun {n : BitVec 4} (h : n.toNat ≤ rlMaxRun) : (n + 1).toNat = n.toNat + 1 :=
  BitVec.toNat_add_of_lt (Nat.lt_of_le_of_lt (Nat.succ_le_succ h) (by decide))

theorem length_bytes_opened (v : Byte) (n : BitVec 4) : (Run.opened v n).bytes.length = n.toNat :=
  List.length_replicate

theorem bytes_opened_add_one_append {n : BitVec 4} (h : n.toNat ≤ rlMaxRun) (v : Byte) (p : List Byte) :
    (Run.opened v (n + 1)).bytes ++ p = (Run.opened v n).bytes ++ v :: p := by
  rw [Run.bytes, Run.bytes, toNat_add_one_of_le_rlMaxRun h, List.replicate_succ', List.append_assoc]
  rfl

theorem firstLongRun_bytes {run : Run} (h : RunInv run) (start : Nat) :
    firstLongRun start (rlRuns run.bytes) = none := by
  cases run with
  | none => rfl
  | opened v n =>
    obtain ⟨hpos, hshort⟩ := RunInv_opened_iff.mp h
    rw [Run.bytes, ← List.append_nil (List.replicate n.toNat v), firstLongRun_replicate_append hpos hshort (by simp)]
    rfl

/-! ### Events (R162, R163) -/

section RleEvents

variable {cfg : Config} {b v : Byte} {n : BitVec 4} {u : StreamUnit RleDp}

theorem rleByte_ignored (hr : u.ctl.phase ≠ .run) : rleByte cfg b u = u := symbolEvent_ignored hr

theorem rleByte_opens (hr : u.ctl.phase = .run) (hrun : u.dp.run = .none) :
    rleByte cfg b u = { u with dp.run := .opened b 1, ctl.inPos := u.ctl.inPos + 1 } :=
  symbolEvent_ok hr (by rw [rleByteAct, hrun])

theorem rleByte_tenth (hr : u.ctl.phase = .run) (hrun : u.dp.run = .opened v 9) :
    rleByte cfg v u = { u with ctl := raiseFault .unsupportedRunLength u.ctl } :=
  symbolEvent_error hr (by simp [rleByteAct, hrun, rlMaxRun])

theorem rleByte_continues (hr : u.ctl.phase = .run) (hrun : u.dp.run = .opened v n) (hn : n ≠ 9) :
    rleByte cfg v u = { u with dp.run := .opened v (n + 1), ctl.inPos := u.ctl.inPos + 1 } := by
  have hroom : n.toNat ≠ rlMaxRun := fun hfull => hn (BitVec.eq_of_toNat_eq hfull)
  exact symbolEvent_ok hr (by simp [rleByteAct, hrun, hroom])

theorem rleByte_closes (hr : u.ctl.phase = .run) (hrun : u.dp.run = .opened v n) (hb : b ≠ v) :
    rleByte cfg b u = { u with
      dp.out := u.dp.out ++ closeRun cfg v n, dp.run := .opened b 1, ctl.inPos := u.ctl.inPos + 1 } :=
  symbolEvent_ok hr (by simp [rleByteAct, hrun, hb])

theorem rleEnd_ignored (hr : u.ctl.phase ≠ .run) : rleEnd cfg u = u := endEvent_ignored hr

/-- No open run and an open one in one equation: the former closes to no bytes. -/
theorem rleEnd_run (hr : u.ctl.phase = .run) :
    rleEnd cfg u = { u with
      dp.out := u.dp.out ++ u.dp.run.closed cfg, dp.run := .none, ctl.phase := .done } := by
  obtain ⟨c, run, out⟩ := u
  cases run with
  | none => exact (endEvent_ok hr rfl).trans (by rw [Run.closed, List.append_nil]; rfl)
  | opened v n => exact endEvent_ok hr rfl

end RleEvents

theorem onRle_of_eq {s : State} {f : StreamUnit RleDp → StreamUnit RleDp} {u : StreamUnit RleDp}
    (h : f s.rl.enc = u) : onRle f s = { s with rl.enc := u } := by
  subst h; rfl

theorem exec_rleByte (b : Byte) (s : State) : exec (.rleByte b) s = .next (onRle (rleByte s.cfg b) s) := rfl

theorem exec_rleEnd (s : State) : exec .rleEnd s = .next (onRle (rleEnd s.cfg) s) := rfl

/-- Settles O18: a byte is ignored outside `RUN`, and in it opens a run, is rejected as its tenth byte, continues it, or
closes it first. -/
theorem rleByteCountsTheRun : Obligations.RleByteCountsTheRun := by
  intro s b
  simp only [exec_rleByte, Host.Outcome.next.injEq]
  refine ⟨decode_eventWord s.cfg .rle .symbol b,
    fun hr => onRle_of_eq (rleByte_ignored hr),
    fun hr hrun => onRle_of_eq (rleByte_opens hr hrun),
    fun v n hr hrun => ⟨?_, ?_, fun hb => onRle_of_eq (rleByte_closes hr hrun hb)⟩⟩
  · rintro rfl rfl
    exact onRle_of_eq (rleByte_tenth hr hrun)
  · rintro rfl hn
    exact onRle_of_eq (rleByte_continues hr hrun hn)

/-- Settles O20: both cases in `RUN` are `rleEnd_run`. -/
theorem rleEndFlushesTheOpenRun : Obligations.RleEndFlushesTheOpenRun := by
  intro s
  simp only [exec_rleEnd, Host.Outcome.next.injEq]
  refine ⟨decode_eventWord s.cfg .rle .stop,
    fun hr => onRle_of_eq (rleEnd_ignored hr),
    fun hr hrun => onRle_of_eq ((rleEnd_run hr).trans ?_),
    fun v n hr hrun => onRle_of_eq ((rleEnd_run hr).trans ?_)⟩
  · rw [hrun, Run.closed, List.append_nil, ← hrun]
  · rw [hrun, Run.closed]

/-! ### The pass (R165, R167) -/

/-- A unit still in `RUN` after symbols has processed each of them. -/
theorem feed_symbolEvent_ctl {α δ : Type} {act : α → δ → Except FaultCode δ} {xs : List α} {u : StreamUnit δ}
    (h : (feed (fun x => symbolEvent (act x)) xs u).ctl.phase = .run) :
    (feed (fun x => symbolEvent (act x)) xs u).ctl = advanceBy xs.length u.ctl := by
  induction xs generalizing u with
  | nil => rfl
  | cons x xs ih =>
    rw [feed_cons] at h ⊢
    have hctl := ih h
    have hrun : (symbolEvent (act x) u).ctl.phase = .run := by rwa [hctl, advanceBy_phase] at h
    obtain ⟨hr, he⟩ | ⟨-, f, -, he⟩ | ⟨-, d, -, he⟩ := symbolEvent_cases (act x) u <;> rw [he] at hrun
    case inl => exact absurd hrun hr
    case inr.inl => cases hrun
    case inr.inr =>
      rw [hctl, he, advance_eq_advanceBy, advanceBy_advanceBy, List.length_cons, Nat.add_comm]

theorem rlePass_of_short (cfg : Config) {p : List Byte} (hshort : ∀ r ∈ rlRuns p, r.2 ≤ rlMaxRun)
    (u : StreamUnit RleDp) :
    rlePass cfg p u = ⟨⟨.done, .none, 0, p.length⟩, ⟨.none, (rlRuns p).flatMap (runToken cfg)⟩⟩ := by
  obtain ⟨hphase, hbytes⟩ := feed_rleByte_run cfg p (u := rleClear u) rfl (.inl rfl) hshort rfl
  have hctl : (feed (rleByte cfg) p (rleClear u)).ctl = advanceBy p.length Ctl.reset := feed_symbolEvent_ctl hphase
  rw [rlePass, pass, rleEnd_run hphase, hbytes, hctl]
  simp [rleClear, advanceBy, Ctl.reset, RleDp.reset, Run.bytes]

section LongRuns

variable {cfg : Config} {c : Ctl} {run : Run} {o : List Byte}

/-- A byte that is not the tenth of its run moves the open run along the payload: where the run begins, and which run
is the first to exceed 9, is read from the bytes of the open run and those to come. -/
theorem rleByte_moves_along {b : Byte} (hr : c.phase = .run) (hi : RunInv run) (hroom : run ≠ .opened b 9)
    (start : Nat) :
    ∃ run' o' start', rleByte cfg b ⟨c, ⟨run, o⟩⟩ = ⟨advance c, ⟨run', o'⟩⟩ ∧ RunInv run' ∧
      start' + run'.bytes.length = start + run.bytes.length + 1 ∧
      ∀ p, firstLongRun start' (rlRuns (run'.bytes ++ p)) = firstLongRun start (rlRuns (run.bytes ++ b :: p)) := by
  cases run with
  | none => exact ⟨_, _, start, rleByte_opens hr rfl, RunInv_opened_one b, rfl, fun p => rfl⟩
  | opened v n =>
    obtain ⟨hpos, hshort⟩ := RunInv_opened_iff.mp hi
    by_cases hb : b = v
    · subst hb
      have hn : n ≠ 9 := fun hn => hroom (hn ▸ rfl)
      have hsucc := toNat_add_one_of_le_rlMaxRun hshort
      have hshort' : n.toNat + 1 ≤ rlMaxRun :=
        Nat.lt_of_le_of_ne hshort fun hfull => hn (BitVec.eq_of_toNat_eq hfull)
      refine ⟨_, _, start, rleByte_continues hr rfl hn, RunInv_opened_iff.mpr ?_, ?_, fun p => ?_⟩
      · rw [hsucc]
        exact ⟨Nat.succ_pos _, hshort'⟩
      · rw [length_bytes_opened, length_bytes_opened, hsucc, Nat.add_assoc]
      · rw [bytes_opened_add_one_append hshort]
    · refine ⟨_, _, start + n.toNat, rleByte_closes hr rfl hb, RunInv_opened_one b, ?_, fun p => ?_⟩
      · rw [length_bytes_opened, length_bytes_opened]
        rfl
      · exact (firstLongRun_replicate_append (p := b :: p) hpos hshort (by simpa using hb) start).symm

/-- In `RUN`, with the open run begun at `start`, the first run to exceed 9 raises the fault at its tenth byte
(R167). -/
theorem feed_rleByte_long {p : List Byte} {start pos : Nat} (hr : c.phase = .run) (hi : RunInv run)
    (hstart : start + run.bytes.length = c.inPos) (hlong : firstLongRun start (rlRuns (run.bytes ++ p)) = some pos) :
    ∃ v out, feed (rleByte cfg) p ⟨c, ⟨run, o⟩⟩ =
      ⟨raiseFault .unsupportedRunLength { c with inPos := pos }, ⟨.opened v 9, out⟩⟩ := by
  induction p generalizing c run o start with
  | nil =>
    rw [List.append_nil, firstLongRun_bytes hi] at hlong
    cases hlong
  | cons b p ih =>
    by_cases hten : run = .opened b 9
    · subst hten
      obtain rfl : pos = c.inPos :=
        (Option.some.inj (hlong.symm.trans (firstLongRun_tenth start b p))).trans hstart
      rw [feed_cons, rleByte_tenth hr rfl]
      exact ⟨b, o, feed_symbolEvent_ignored (rleByteAct cfg) p (by simp)⟩
    · obtain ⟨run', o', start', hbyte, hi', hlen, hfirst⟩ :=
        rleByte_moves_along (cfg := cfg) (o := o) hr hi hten start
      rw [feed_cons, hbyte]
      exact ih (c := advance c) hr hi' (hlen.trans (congrArg (· + 1) hstart)) ((hfirst p).trans hlong)

end LongRuns

theorem rlePass_of_long (cfg : Config) {p : List Byte} {pos : Nat} (hlong : firstLongRun 0 (rlRuns p) = some pos)
    (u : StreamUnit RleDp) :
    ∃ v out, rlePass cfg p u = ⟨⟨.faulted, .unsupportedRunLength, pos, pos⟩, ⟨.opened v 9, out⟩⟩ := by
  obtain ⟨v, out, hfeed⟩ := feed_rleByte_long (cfg := cfg) (c := Ctl.reset) (o := []) rfl (.inl rfl) rfl hlong
  refine ⟨v, out, ?_⟩
  rw [rlePass, pass, show rleClear u = ⟨Ctl.reset, ⟨.none, []⟩⟩ from rfl, hfeed, rleEnd_ignored (by simp)]
  rfl

theorem exec_encode_rl_of_rlePass {s : State} {u : StreamUnit RleDp} (hc : s.rl.constructed = true)
    (h : rlePass s.cfg s.rl.payload s.rl.enc = u) : exec (.cmdEncode .rl) s = .next { s with
      rl.enc := u, rl.encValid := decide (u.ctl.phase = .done) } := by
  subst h
  exact if_pos hc

/-- Settles O37: `ENCODE` is the pass over the payload, which `rlePass_of_short` and `rlePass_of_long` give. -/
theorem encodeRlGivesTheRunEncoding : Obligations.EncodeRlGivesTheRunEncoding := by
  intro s hc
  refine ⟨fun e he => ?_, fun f pos he => ?_⟩
  · obtain ⟨hshort, rfl⟩ := rlEncodeForm_eq_ok he
    exact exec_encode_rl_of_rlePass hc (rlePass_of_short s.cfg hshort s.rl.enc)
  · obtain ⟨rfl, hlong⟩ := rlEncodeForm_eq_error he
    obtain ⟨v, out, hpass⟩ := rlePass_of_long s.cfg hlong s.rl.enc
    exact ⟨rfl, v, out, exec_encode_rl_of_rlePass hc hpass⟩

/-- R165: the batch function is its closed form. -/
theorem rlEncode_eq (cfg : Config) (p : List Byte) : rlEncode cfg p = some (rlEncodeForm cfg p) := by
  rw [rlEncode]
  cases hform : rlEncodeForm cfg p with
  | ok e =>
    obtain ⟨hshort, rfl⟩ := rlEncodeForm_eq_ok hform
    rw [rlePass_of_short cfg hshort]
    rfl
  | error f pos =>
    obtain ⟨rfl, hlong⟩ := rlEncodeForm_eq_error hform
    obtain ⟨v, out, hpass⟩ := rlePass_of_long cfg hlong ⟨Ctl.reset, RleDp.reset⟩
    rw [hpass]
    rfl

/-! ### The length (R166) -/

theorem length_runToken_le (cfg : Config) (r : Byte × Nat) : (runToken cfg r).length ≤ r.2 := by
  obtain ⟨v, n⟩ := r
  rw [runToken]
  split
  case isTrue hmarker => exact Nat.le_of_lt hmarker
  case isFalse => exact List.length_replicate.le

/-- Settles O49: the output is the runs' tokens (`rlEncode_eq`), none longer than its run, and the runs are the
payload. -/
theorem rlEncodedIsNoLonger : Obligations.RlEncodedIsNoLonger := by
  intro cfg p e he
  rw [rlEncode_eq] at he
  obtain ⟨-, rfl⟩ := rlEncodeForm_eq_ok (Option.some.inj he)
  calc ((rlRuns p).flatMap (runToken cfg)).length
      = ((rlRuns p).map fun r => (runToken cfg r).length).sum := List.length_flatMap
    _ ≤ ((rlRuns p).map fun r => (List.replicate r.2 r.1).length).sum :=
        List.sum_le_sum fun r _ => (length_runToken_le cfg r).trans List.length_replicate.ge
    _ = p.length := by rw [← List.length_flatMap, flatMap_replicate_rlRuns]

end Sys2Proof.Machine
end

section
/-! The run-length decoder `RLD` (44_run_length_decoder.md). -/

namespace Sys2Proof.Machine

/-! ### Events (R181 to R184) -/

theorem rldByte_ignored {cfg : Config} {b : Byte} {u : StreamUnit RldDp} (hr : u.ctl.phase ≠ .run) :
    rldByte cfg b u = u := symbolEvent_ignored hr

theorem rldEnd_ignored {u : StreamUnit RldDp} (hr : u.ctl.phase ≠ .run) : rldEnd u = u := endEvent_ignored hr

theorem rldEnd_boundary {u : StreamUnit RldDp} (hr : u.ctl.phase = .run) (hm : u.dp.mode = .lit) :
    rldEnd u = { u with ctl := finish u.ctl } :=
  endEvent_ok hr (if_pos hm)

theorem rldEnd_unfinished {u : StreamUnit RldDp} (hr : u.ctl.phase = .run) (hm : u.dp.mode ≠ .lit) :
    rldEnd u = { u with ctl := raiseFault .malformedStream u.ctl } :=
  endEvent_error hr (if_neg hm)

theorem onRld_of_eq {s : State} {f : StreamUnit RldDp → StreamUnit RldDp} {u : StreamUnit RldDp}
    (h : f s.rl.dec = u) : onRld f s = { s with rl.dec := u } := by
  subst h; rfl

theorem exec_rldByte (b : Byte) (s : State) : exec (.rldByte b) s = .next (onRld (rldByte s.cfg b) s) := rfl

theorem exec_rldEnd (s : State) : exec .rldEnd s = .next (onRld rldEnd s) := rfl

/-- Settles O21: a byte is ignored outside `RUN`, and in it does what the lemma of its mode says; in the digit position
`isDigit` tells the two cases apart. -/
theorem rldByteDetectsAndExpandsMarkers : Obligations.RldByteDetectsAndExpandsMarkers := by
  rintro ⟨cfg, _, ⟨_, _, ⟨c, mode, o⟩, _, _, _, _⟩, _⟩ b
  simp only [exec_rldByte, Host.Outcome.next.injEq]
  refine ⟨decode_eventWord cfg .rld .symbol b, fun hr => onRld_of_eq (rldByte_ignored hr), fun hr =>
    ⟨?_, ?_, ?_, ?_, ?_⟩⟩
  · rintro rfl rfl
    exact onRld_of_eq (rldByte_sentinel hr)
  · rintro rfl hb
    exact onRld_of_eq (rldByte_literal hr hb)
  · rintro rfl
    exact onRld_of_eq (rldByte_value hr)
  · rintro v rfl hlo hhi
    rw [← digitValue_of_le hlo]
    exact onRld_of_eq (rldByte_digit hr ((isDigit_iff b).mpr ⟨hlo, hhi⟩))
  · rintro v rfl hout
    have hno : ¬ isDigit b = true := by rw [isDigit_iff]; omega
    exact onRld_of_eq (rldByte_noDigit hr hno)

/-- Settles O22: `END` is ignored outside `RUN`, and in it finishes the pass at a token boundary only. -/
theorem rldEndNeedsATokenBoundary : Obligations.RldEndNeedsATokenBoundary := by
  intro s
  simp only [exec_rldEnd, Host.Outcome.next.injEq]
  exact ⟨decode_eventWord s.cfg .rld .stop,
    fun hr => onRld_of_eq (rldEnd_ignored hr),
    fun hr hm => onRld_of_eq (rldEnd_boundary hr hm),
    fun hr hm => onRld_of_eq (rldEnd_unfinished hr hm)⟩

/-! ### The pass and the recursive form (R186) -/

theorem isDigit_iff_le (b : Byte) : isDigit b = true ↔ digitBase ≤ b ∧ b ≤ digitBase + 9 := by
  simp [isDigit]

/-- What the recursive form's answer for `n` bytes says of `END` in the state `u` they lead to, from a token boundary
with the registers `c` and the output `o`. -/
def RldAnswers (c : Ctl) (o : List Byte) (n : Nat) (u : StreamUnit RldDp) : Option (List Byte) → Prop
  | some x => rldEnd u = ⟨finish (advanceBy n c), .lit, o ++ x⟩
  | none => ∃ k ≤ n, ∃ dp, rldEnd u = ⟨raiseFault .malformedStream (advanceBy k c), dp⟩

section Answers

variable {cfg : Config} {c : Ctl} {o : List Byte} {m n : Nat} {u : StreamUnit RldDp}

/-- A token of `m` bytes that stands for `x`, before bytes that are answered for. -/
theorem RldAnswers.of_token {x : List Byte} {r : Option (List Byte)}
    (h : RldAnswers (advanceBy m c) (o ++ x) n u r) : RldAnswers c o (n + m) u (r.map (x ++ ·)) := by
  rw [Nat.add_comm]
  cases r with
  | some y => rw [RldAnswers, advanceBy_advanceBy, List.append_assoc] at h; exact h
  | none =>
    obtain ⟨k, hk, dp, h⟩ := h
    exact ⟨m + k, Nat.add_le_add_left hk m, dp, by rw [h, advanceBy_advanceBy]⟩

/-- The bytes end inside a marker (R184). -/
theorem rldAnswers_unfinished (hr : u.ctl.phase = .run) (hm : u.dp.mode ≠ .lit) (hctl : u.ctl = advanceBy n c) :
    RldAnswers c o n u none :=
  ⟨n, le_rfl, u.dp, by rw [rldEnd_unfinished hr hm, hctl]⟩

/-- A marker up to its digit, before further bytes. -/
theorem feed_rldByte_marker (cfg : Config) (hr : c.phase = .run) (v d : Byte) (rest : List Byte) :
    feed (rldByte cfg) (cfg.sentinel :: v :: d :: rest) ⟨c, .lit, o⟩ =
      feed (rldByte cfg) rest (rldByte cfg d ⟨advanceBy 2 c, .dig v, o⟩) :=
  (feed_append (rldByte cfg) (rlMrkBytes cfg v d) rest _).trans (congrArg (feed _ rest) (feed_rlMrkBytes hr d))

/-- Token by token, along the recursion of R186. -/
theorem feed_rldByte_answers (cfg : Config) (s : List Byte) (hr : c.phase = .run) :
    RldAnswers c o s.length (feed (rldByte cfg) s ⟨c, .lit, o⟩) (rlDecodeForm cfg s) := by
  fun_induction rlDecodeForm cfg s generalizing c o with
  | case1 =>
    rw [RldAnswers, feed_nil, rldEnd_boundary hr rfl, List.append_nil]
    rfl
  | case2 b rest hb ih =>
    rw [feed_cons, rldByte_literal hr hb]
    exact (ih (c := advance c) hr).of_token
  | case3 b hb v d rest hd ih =>
    obtain rfl := not_not.mp hb
    rw [feed_rldByte_marker cfg hr, rldByte_digit (c := advanceBy 2 c) hr ((isDigit_iff_le d).mpr hd)]
    exact (ih (c := advanceBy 3 c) hr).of_token
  | case4 b hb v d rest hd =>
    obtain rfl := not_not.mp hb
    rw [feed_rldByte_marker cfg hr, rldByte_noDigit (c := advanceBy 2 c) hr (mt (isDigit_iff_le d).mp hd)]
    have hrest := feed_symbolEvent_ignored (rldByteAct cfg) rest
      (u := ⟨raiseFault .malformedStream (advanceBy 2 c), .dig v, o⟩) (by simp)
    exact ⟨2, by simp, ⟨.dig v, o⟩, (congrArg rldEnd hrest).trans (rldEnd_ignored (by simp))⟩
  | case5 b rest hb hshort =>
    obtain rfl := not_not.mp hb
    rw [feed_cons, rldByte_sentinel hr]
    match rest, hshort with
    | [], _ => exact rldAnswers_unfinished hr nofun rfl
    | [v], _ =>
      rw [feed_cons, rldByte_value (c := advance c) hr]
      exact rldAnswers_unfinished hr nofun rfl
    | v :: d :: rest, hshort => exact (hshort v d rest rfl).elim

end Answers

theorem rldPass_of_form_some {cfg : Config} {s x : List Byte} (h : rlDecodeForm cfg s = some x)
    (u : StreamUnit RldDp) : rldPass cfg s u = ⟨⟨.done, .none, 0, s.length⟩, ⟨.lit, x⟩⟩ := by
  have hend := feed_rldByte_answers (c := Ctl.reset) (o := []) cfg s rfl
  rw [h] at hend
  refine Eq.trans hend ?_
  simp [finish, advanceBy, Ctl.reset]

theorem rldPass_of_form_none {cfg : Config} {s : List Byte} (h : rlDecodeForm cfg s = none) (u : StreamUnit RldDp) :
    ∃ pos ≤ s.length, ∃ dp, rldPass cfg s u = ⟨⟨.faulted, .malformedStream, pos, pos⟩, dp⟩ := by
  have hend := feed_rldByte_answers (c := Ctl.reset) (o := []) cfg s rfl
  rw [h] at hend
  obtain ⟨k, hk, dp, hend⟩ := hend
  refine ⟨k, hk, dp, Eq.trans hend ?_⟩
  simp [raiseFault, advanceBy, Ctl.reset]

theorem exec_decode_rl_of_rldPass {s : State} {st : List Byte} {u : StreamUnit RldDp}
    (h : rldPass s.cfg st s.rl.dec = u) : exec (.cmdDecode (.rl st)) s = .next { s with
      rl.dec := u, rl.decValid := decide (u.ctl.phase = .done) } := by
  subst h; rfl

/-- Settles O39: `DECODE` is the pass over the stream, and `feed_rldByte_answers` says how it ends. -/
theorem decodeRlGivesTheRecursiveForm : Obligations.DecodeRlGivesTheRecursiveForm := by
  intro s st
  refine ⟨fun x hx => exec_decode_rl_of_rldPass (rldPass_of_form_some hx s.rl.dec), fun hx => ?_⟩
  obtain ⟨pos, hpos, dp, hpass⟩ := rldPass_of_form_none hx s.rl.dec
  exact ⟨pos, dp, exec_decode_rl_of_rldPass hpass, hpos⟩

/-! ### Reading back an encoding (R187) -/

theorem rlDecodeForm_literal {cfg : Config} {b : Byte} (hb : b ≠ cfg.sentinel) (s : List Byte) :
    rlDecodeForm cfg (b :: s) = (rlDecodeForm cfg s).map ([b] ++ ·) := by
  rw [rlDecodeForm.eq_def]
  exact if_pos hb

theorem rlDecodeForm_marker (cfg : Config) {d : Byte} (hd : isDigit d = true) (v : Byte) (s : List Byte) :
    rlDecodeForm cfg (rlMrkBytes cfg v d ++ s) = (rlDecodeForm cfg s).map (List.replicate (digitValue d) v ++ ·) :=
  (if_neg (not_not.mpr rfl)).trans (if_pos ((isDigit_iff_le d).mp hd))

theorem rlDecodeForm_literals {cfg : Config} {l : List Byte} (hs : cfg.sentinel ∉ l) (s : List Byte) :
    rlDecodeForm cfg (l ++ s) = (rlDecodeForm cfg s).map (l ++ ·) := by
  induction l with
  | nil => exact Option.map_id'.symm
  | cons b l ih =>
    have hb : b ≠ cfg.sentinel := (List.ne_of_not_mem_cons hs).symm
    rw [List.cons_append, rlDecodeForm_literal hb, ih (List.not_mem_of_not_mem_cons hs), Option.map_map]
    rfl

/-- The digit of a run (R88) is one, and says the run's length. -/
theorem isDigit_and_digitValue {n : Nat} (hn : n ≤ rlMaxRun) :
    isDigit (digitBase + BitVec.ofNat 8 n) = true ∧ digitValue (digitBase + BitVec.ofNat 8 n) = n := by
  have hd : (digitBase + BitVec.ofNat 8 n).toNat = 0x30 + n := by
    rw [rlMaxRun] at hn
    rw [digitBase]
    bv_omega
  have hlo : 0x30 ≤ (digitBase + BitVec.ofNat 8 n).toNat := hd ▸ Nat.le_add_right _ n
  refine ⟨(isDigit_iff _).mpr ⟨hlo, hd ▸ Nat.add_le_add_left hn _⟩, ?_⟩
  rw [digitValue_of_le hlo, hd, Nat.add_sub_cancel_left]

/-- A run's token is read back as the run: as a marker if it is one, as literals otherwise. -/
theorem rlDecodeForm_runToken {cfg : Config} {r : Byte × Nat} (hs : r.1 ≠ cfg.sentinel) (hshort : r.2 ≤ rlMaxRun)
    (s : List Byte) :
    rlDecodeForm cfg (runToken cfg r ++ s) = (rlDecodeForm cfg s).map (List.replicate r.2 r.1 ++ ·) := by
  obtain ⟨v, n⟩ := r
  rw [runToken]
  split
  case isTrue =>
    obtain ⟨hdigit, hvalue⟩ := isDigit_and_digitValue hshort
    exact (rlDecodeForm_marker cfg hdigit v s).trans (by rw [hvalue])
  case isFalse => exact rlDecodeForm_literals (fun hmem => hs (List.eq_of_mem_replicate hmem).symm) s

theorem rlDecodeForm_runTokens {cfg : Config} {rs : List (Byte × Nat)}
    (hrs : ∀ r ∈ rs, r.1 ≠ cfg.sentinel ∧ r.2 ≤ rlMaxRun) :
    rlDecodeForm cfg (rs.flatMap (runToken cfg)) = some (rs.flatMap fun r => List.replicate r.2 r.1) := by
  induction rs with
  | nil => rfl
  | cons r rs ih =>
    obtain ⟨⟨hs, hshort⟩, hrest⟩ := List.forall_mem_cons.mp hrs
    rw [List.flatMap_cons, rlDecodeForm_runToken hs hshort, ih hrest]
    rfl

/-- A run's value stands in the payload. -/
theorem fst_mem_of_mem_rlRuns {p : List Byte} {r : Byte × Nat} (h : r ∈ rlRuns p) : r.1 ∈ p := by
  rw [← flatMap_replicate_rlRuns p]
  exact List.mem_flatMap.mpr ⟨r, h, List.mem_replicate.mpr ⟨Nat.ne_zero_of_lt (one_le_of_mem_rlRuns h), rfl⟩⟩

theorem rlDecodeForm_rlEncodeForm {cfg : Config} {x e : List Byte} (hs : cfg.sentinel ∉ x)
    (h : rlEncodeForm cfg x = .ok e) : rlDecodeForm cfg e = some x := by
  obtain ⟨hshort, rfl⟩ := rlEncodeForm_eq_ok h
  have hvalue : ∀ r ∈ rlRuns x, r.1 ≠ cfg.sentinel := fun r hr hsent => hs (hsent ▸ fst_mem_of_mem_rlRuns hr)
  rw [rlDecodeForm_runTokens fun r hr => ⟨hvalue r hr, hshort r hr⟩, flatMap_replicate_rlRuns]

/-- Settles O42: both batch functions are their forms (`rlEncode_eq`, `rldPass_of_form_some`), and the recursive form
reads the runs' tokens back (`rlDecodeForm_rlEncodeForm`). -/
theorem runLengthRoundTrip : Obligations.RunLengthRoundTrip := by
  intro cfg x hvalid
  have hs : cfg.sentinel ∉ x := sentinel_notMem_of_validate hvalid
  refine ⟨fun e he => ?_, fun hshort => ⟨_, (rlEncode_eq cfg x).trans (congrArg some (rlEncodeForm_of_short hshort))⟩⟩
  have hform : rlEncodeForm cfg x = .ok e := Option.some.inj ((rlEncode_eq cfg x).symm.trans he)
  rw [rlDecode, rldPass_of_form_some (rlDecodeForm_rlEncodeForm hs hform)]
  rfl

end Sys2Proof.Machine
end

section
/-! The four operations (45_core_operations.md R201 to R208): what each leaves of its codec, and what they leave in
sequence. -/

namespace Sys2Proof.Machine

variable {ε δ : Type}

/-! ### `NEW` (R201) -/

theorem feed_svByte_of_notMem {cfg : Config} {p : List Byte} (hs : cfg.sentinel ∉ p) (u : StreamUnit Unit) :
    feed (svByte cfg) p (svClear u) = ⟨⟨.run, .none, 0, p.length⟩, ()⟩ := by
  have hphase : (feed (svByte cfg) p (svClear u)).ctl.phase = .run := by
    rw [feed_svByte_phase cfg p rfl, if_neg hs]
  have hctl : (feed (svByte cfg) p (svClear u)).ctl = advanceBy p.length Ctl.reset := feed_symbolEvent_ctl hphase
  refine (congrArg (fun c => StreamUnit.mk c ()) hctl).trans ?_
  simp [advanceBy, Ctl.reset]

theorem svPass_of_notMem {cfg : Config} {p : List Byte} (hs : cfg.sentinel ∉ p) (u : StreamUnit Unit) :
    svPass cfg p u = ⟨⟨.done, .none, 0, p.length⟩, ()⟩ := by
  rw [svPass, pass, feed_svByte_of_notMem hs]
  exact svEnd_run rfl

/-- The first sentinel raises the fault, and what follows it is ignored (R111, R114). -/
theorem svPass_of_first {cfg : Config} {q : List Byte} (hs : cfg.sentinel ∉ q) (r : List Byte) (u : StreamUnit Unit) :
    svPass cfg (q ++ cfg.sentinel :: r) u = ⟨⟨.faulted, .invalidInput, q.length, q.length⟩, ()⟩ := by
  have hrest := feed_symbolEvent_ignored (svByteAct cfg) r
    (u := ⟨⟨.faulted, .invalidInput, q.length, q.length⟩, ()⟩) nofun
  rw [svPass, pass, feed_append, feed_svByte_of_notMem hs, feed_cons, svByte_sentinel rfl rfl]
  exact (congrArg svEnd hrest).trans (svEnd_ignored nofun)

/-- The codec `NEW` leaves of an accepted payload; `newOp_of_notMem` ties it to `newOp`. -/
def Instance.latched (e : ε) (d : δ) (p : List Byte) : Instance ε δ where
  sv := ⟨⟨.done, .none, 0, p.length⟩, ()⟩
  enc := ⟨Ctl.reset, e⟩
  dec := ⟨Ctl.reset, d⟩
  constructed := true
  payload := p
  encValid := false
  decValid := false

/-- The codec `NEW` leaves of a payload whose first sentinel stands at `pos`; `newOp_of_first` ties it to `newOp`. -/
def Instance.rejected (e : ε) (d : δ) (pos : Nat) : Instance ε δ where
  sv := ⟨⟨.faulted, .invalidInput, pos, pos⟩, ()⟩
  enc := ⟨Ctl.reset, e⟩
  dec := ⟨Ctl.reset, d⟩
  constructed := false
  payload := []
  encValid := false
  decValid := false

theorem newOp_of_notMem {cfg : Config} {p : List Byte} (hs : cfg.sentinel ∉ p) (e : ε) (d : δ) (I : Instance ε δ) :
    newOp cfg e d p I = .latched e d p := by
  simp [newOp_eq, svPass_of_notMem hs, Instance.latched]

theorem newOp_of_first {cfg : Config} {q : List Byte} (hs : cfg.sentinel ∉ q) (r : List Byte) (e : ε) (d : δ)
    (I : Instance ε δ) : newOp cfg e d (q ++ cfg.sentinel :: r) I = .rejected e d q.length := by
  simp [newOp_eq, svPass_of_first hs, Instance.rejected]

theorem exec_new_np_of_newOp {s : State} {p : List Byte} {I : Instance NpeDp NpdDp}
    (h : newOp s.cfg NpeDp.reset NpdDp.reset p s.np = I) : exec (.cmdNew .np p) s = .next { s with np := I } := by
  subst h; rfl

theorem exec_new_rl_of_newOp {s : State} {p : List Byte} {I : Instance RleDp RldDp}
    (h : newOp s.cfg RleDp.reset RldDp.reset p s.rl = I) : exec (.cmdNew .rl p) s = .next { s with rl := I } := by
  subst h; rfl

/-- Settles O32: the validator's pass has the two outcomes `svPass_of_notMem` and `svPass_of_first`, from which `NEW`
leaves the two codecs alike. -/
theorem newValidatesThenLatches : Obligations.NewValidatesThenLatches := by
  refine fun s p => ⟨fun hs => ⟨?_, ?_⟩, ?_⟩
  · exact ⟨_, exec_new_np_of_newOp (newOp_of_notMem hs _ _ s.np), rfl, rfl⟩
  · exact ⟨_, exec_new_rl_of_newOp (newOp_of_notMem hs _ _ s.rl), rfl, rfl⟩
  · rintro q r rfl hs
    exact ⟨⟨_, exec_new_np_of_newOp (newOp_of_first hs r _ _ s.np), rfl, rfl⟩,
      ⟨_, exec_new_rl_of_newOp (newOp_of_first hs r _ _ s.rl), rfl, rfl⟩⟩

/-! ### Refusals (R205) -/

/-- Settles O34: the four refusals are `exec_encode_np_refused` and its like. -/
theorem outOfOrderOperationsAreRefused : Obligations.OutOfOrderOperationsAreRefused := fun _ =>
  ⟨exec_encode_np_refused, exec_encode_rl_refused, exec_decodeOwn_np_refused, exec_decodeOwn_rl_refused⟩

/-! ### `DECODE_OWN` (R204) -/

/-- `DECODE_OWN` of a buffer that encodes a payload gives the payload back. -/
theorem exec_decodeOwn_np_of_acc {s : State} {x : List Byte} (hv : s.np.encValid = true)
    (hacc : s.np.enc.dp.acc = npEncodeForm s.cfg x) (hs : s.cfg.sentinel ∉ x) :
    exec (.cmdDecodeOwn .np) s = .next { s with
      np.dec := ⟨⟨.done, .none, 0, s.np.enc.dp.acc.length⟩, ⟨.lit, 0, 0, 0, x⟩⟩, np.decValid := true } := by
  have hown : exec (.cmdDecodeOwn .np) s = exec (.cmdDecode (.np s.np.enc.dp.acc)) s := if_pos hv
  rw [hown, exec_decode_np_of_npdPass (hacc ▸ npdPass_npEncodeForm hs s.np.dec)]
  rfl

/-- `DECODE_OWN` of a buffer that encodes a payload gives the payload back. -/
theorem exec_decodeOwn_rl_of_out {s : State} {x : List Byte} (hv : s.rl.encValid = true)
    (hout : rlEncodeForm s.cfg x = .ok s.rl.enc.dp.out) (hs : s.cfg.sentinel ∉ x) :
    exec (.cmdDecodeOwn .rl) s = .next { s with
      rl.dec := ⟨⟨.done, .none, 0, s.rl.enc.dp.out.length⟩, ⟨.lit, x⟩⟩, rl.decValid := true } := by
  have hown : exec (.cmdDecodeOwn .rl) s = exec (.cmdDecode (.rl s.rl.enc.dp.out)) s := if_pos hv
  have hform : rlDecodeForm s.cfg s.rl.enc.dp.out = some x := rlDecodeForm_rlEncodeForm hs hout
  rw [hown, exec_decode_rl_of_rldPass (rldPass_of_form_some hform s.rl.dec)]
  rfl

/-- A pass of `RLE` that ends in `DONE` has emitted the closed form (R165). -/
theorem rlEncodeForm_of_done {cfg : Config} {p : List Byte} {u : StreamUnit RleDp}
    (h : (rlePass cfg p u).ctl.phase = .done) : rlEncodeForm cfg p = .ok (rlePass cfg p u).dp.out := by
  cases hform : rlEncodeForm cfg p with
  | ok e =>
    obtain ⟨hshort, rfl⟩ := rlEncodeForm_eq_ok hform
    rw [rlePass_of_short cfg hshort]
  | error f pos =>
    obtain ⟨-, hlong⟩ := rlEncodeForm_eq_error hform
    obtain ⟨v, out, hpass⟩ := rlePass_of_long cfg hlong u
    rw [hpass] at h
    cases h

/-- Settles O40: in a coherent state a valid buffer holds the encoding of the payload, which `DECODE_OWN` reads back. -/
theorem decodeOwnGivesThePayloadBack : Obligations.DecodeOwnGivesThePayloadBack := by
  rintro s ⟨hnp, hrl⟩
  refine ⟨fun hv hs => exec_decodeOwn_np_of_acc hv ?_ hs, fun hv hs => exec_decodeOwn_rl_of_out hv ?_ hs⟩
  · rw [hnp hv, npePass_eq]
  · obtain ⟨henc, hdone⟩ := hrl hv
    rw [henc] at hdone ⊢
    exact rlEncodeForm_of_done hdone

/-! ### Round trips (R207, R208) -/

/-- The codec after `NEW`, `ENCODE`, `DECODE_OWN` of a payload free of the sentinel; `execAll_npRoundTrip` ties it to
the operations. -/
def npRoundTripped (cfg : Config) (x : List Byte) : Instance NpeDp NpdDp :=
  { Instance.latched NpeDp.reset NpdDp.reset x with
    enc := ⟨⟨.done, .none, 0, x.length⟩, ⟨[], npEncodeForm cfg x⟩⟩
    dec := ⟨⟨.done, .none, 0, (npEncodeForm cfg x).length⟩, ⟨.lit, 0, 0, 0, x⟩⟩
    encValid := true
    decValid := true }

theorem execAll_npRoundTrip {s : State} {x : List Byte} (hs : s.cfg.sentinel ∉ x) :
    execAll [.cmdNew .np x, .cmdEncode .np, .cmdDecodeOwn .np] s =
      .next { s with np := npRoundTripped s.cfg x } := by
  rw [execAll_cons_next (exec_new_np_of_newOp (newOp_of_notMem hs _ _ s.np)),
    execAll_cons_next (encodeNpGivesTheBlockEncoding _ rfl)]
  exact execAll_cons_next (exec_decodeOwn_np_of_acc (x := x) rfl rfl hs)

/-- A codec whose passes have all ended without a fault takes its place in a good final state (R212). -/
theorem GoodFinal.replace_np {s : State} {I : Instance NpeDp NpdDp} (h : GoodFinal s) (hsv : I.sv.ctl.phase = .done)
    (henc : I.enc.ctl.phase = .done) (hdec : I.dec.ctl.phase = .done) : GoodFinal { s with np := I } := by
  obtain ⟨hinbox, ⟨-, -, -, hfaults⟩, -, -, -, hopen⟩ := h
  refine ⟨hinbox, ⟨?_, ?_, ?_, hfaults⟩, ?_, ?_, ?_, hopen⟩
  all_goals simp [PassOpen, hsv, henc, hdec]

/-- Settles O43: the three operations leave `npRoundTripped`, whose units are all `DONE`; another state with the same
sentinel encodes, and so decodes, alike. -/
theorem npInstanceRoundTrip : Obligations.NpInstanceRoundTrip := by
  refine fun s x hs => ⟨_, execAll_npRoundTrip hs, rfl, rfl, rfl, fun hgood => hgood.replace_np rfl rfl rfl, ?_⟩
  intro s' hsent
  have hdec := npdPass_npEncodeForm (hsent ▸ hs : s'.cfg.sentinel ∉ x) s'.np.dec
  rw [npEncodeForm_congr hsent] at hdec
  exact ⟨_, exec_decode_np_of_npdPass hdec, rfl⟩

theorem execAll_new_encode_rl {s : State} {x : List Byte} (hs : s.cfg.sentinel ∉ x) :
    execAll [.cmdNew .rl x, .cmdEncode .rl] s =
      .next { s with rl := encodeOp (rlePass s.cfg) (.latched RleDp.reset RldDp.reset x) } :=
  execAll_pair_next.mpr ⟨_, exec_new_rl_of_newOp (newOp_of_notMem hs _ _ s.rl), exec_encode_rl_of_rlePass rfl rfl⟩

/-- `ENCODE RL` has a value exactly when no maximal run of the payload is longer than 9. -/
theorem exists_rlEncodeResult_ok_iff (cfg : Config) (I : Instance RleDp RldDp) :
    (∃ e, rlEncodeResult (encodeOp (rlePass cfg) I) = some (.ok e)) ↔ ∀ r ∈ rlRuns I.payload, r.2 ≤ rlMaxRun := by
  constructor
  · rintro ⟨e, he⟩
    obtain ⟨-, hdone, -⟩ := opResult_unitResult_ok.mp he
    obtain ⟨hshort, -⟩ := rlEncodeForm_eq_ok (rlEncodeForm_of_done hdone)
    exact hshort
  · intro hshort
    have hdone : (rlePass cfg I.payload I.enc).ctl.phase = .done := by rw [rlePass_of_short cfg hshort]
    exact ⟨_, opResult_unitResult_ok.mpr ⟨decide_eq_true hdone, hdone, rfl⟩⟩

/-- Settles O44: `ENCODE`'s value, where there is one (`exists_rlEncodeResult_ok_iff`), is the encoding of the payload,
which `DECODE_OWN` reads back. -/
theorem rlInstanceRoundTrip : Obligations.RlInstanceRoundTrip := by
  refine fun s x hs => ⟨_, execAll_new_encode_rl hs, exists_rlEncodeResult_ok_iff s.cfg _, fun e he => ?_⟩
  obtain ⟨hv, hdone, -⟩ := opResult_unitResult_ok.mp he
  exact ⟨_, exec_decodeOwn_rl_of_out hv (rlEncodeForm_of_done hdone) hs, rfl⟩

end Sys2Proof.Machine
end

section
/-! Programs (45_core_operations.md R211, R212): inputs taken one by one are their instructions in sequence, and how
three families of programs end. -/

namespace Sys2Proof.Machine

/-- An instruction does not see what the host has sent after it. -/
theorem exec_replace_inbox (i : Instr) (s : State) (xs : List HostInput) :
    exec i { s with inbox := xs } = mapNext (fun t => { t with inbox := xs }) (exec i s) := by
  cases i with
  | svNop c | svByte c b | svEnd c | svClear c | cmdNew c p => cases c <;> rfl
  | npeNop | npeByte b | npeEnd | npeClear | npdNop | npdBit v | npdEnd | npdClear => rfl
  | rleNop | rleByte b | rleEnd | rleClear | rldNop | rldByte b | rldEnd | rldClear => rfl
  | npLit b | npGrp hi n lo | rlLit b | rlMrk val dig => rfl
  | cmdEncode c | cmdDecodeOwn c =>
    cases c <;> simp only [exec, execCmdEncode, execCmdDecodeOwn, mapNext_guarded]
  | cmdDecode st => cases st <;> rfl

/-- The decoder reads the input as the instruction. -/
def SentFor (cfg : Config) (x : HostInput) (i : Instr) : Prop := ∃ r, x = .send r ∧ decode cfg r = .ok i

theorem SentFor.step_eq {s : State} {x : HostInput} {i : Instr} (h : SentFor s.cfg x i) (xs : List HostInput) :
    step { s with inbox := x :: xs } = exec i { s with inbox := xs } := by
  obtain ⟨r, rfl, hr⟩ := h
  simp only [step, hr]

/-- The inputs are given; what the inbox of the state holds is not looked at. -/
theorem runInputs_replace_inbox (xs ys : List HostInput) (s : State) :
    runInputs xs { s with inbox := ys } = runInputs xs s := by
  cases xs <;> rfl

/-- A program whose instructions complete in sequence is run to its end, with nothing refused. -/
theorem runInputs_of_execAll {cfg : Config} {xs : List HostInput} {is : List Instr}
    (hx : List.Forall₂ (SentFor cfg) xs is) {s t : State} (hcfg : s.cfg = cfg) (h : execAll is s = .next t) :
    runInputs xs s = { final := { t with inbox := [] }, refusals := [], fault := none } := by
  induction hx generalizing s with
  | nil => cases h; rfl
  | @cons x i xs is hi _ ih =>
    subst hcfg
    cases hu : exec i s with
    | next u =>
      have hstep : step { s with inbox := x :: xs } = .next { u with inbox := xs } := by
        rw [hi.step_eq, exec_replace_inbox, hu, mapNext]
      rw [execAll_cons_next hu] at h
      rw [runInputs_next hstep, runInputs_replace_inbox]
      obtain ⟨-, -, hcfg, -⟩ := exec_instanceStep hu
      exact ih hcfg h
    | fault f => simp [execAll, hu] at h
    | refused r => simp [execAll, hu] at h

/-! ### Three families of programs (R212) -/

theorem runInputs_npRoundTrip {s : State} {x : List Byte} (hs : s.cfg.sentinel ∉ x) :
    runInputs [.send (.command 0b000 (.bytes x)), .send (.command 0b010 .none), .send (.command 0b110 .none)] s =
      { final := { s with np := npRoundTripped s.cfg x, inbox := [] }, refusals := [], fault := none } := by
  have hx : List.Forall₂ (SentFor s.cfg)
      [.send (.command 0b000 (.bytes x)), .send (.command 0b010 .none), .send (.command 0b110 .none)]
      [.cmdNew .np x, .cmdEncode .np, .cmdDecodeOwn .np] :=
    .cons ⟨_, rfl, rfl⟩ (.cons ⟨_, rfl, rfl⟩ (.cons ⟨_, rfl, rfl⟩ .nil))
  exact runInputs_of_execAll hx rfl (execAll_npRoundTrip hs)

/-- `ENCODE` refused, withdrawn and remembered (R205). -/
theorem runInputs_encode_rl_refused {s : State} (hc : s.rl.constructed = false) :
    runInputs [.send (.command 0b011 .none)] s =
      { final := { s with inbox := [] }, refusals := [.notConstructed .rl], fault := none } := by
  have hx : SentFor s.cfg (.send (.command 0b011 .none)) (.cmdEncode .rl) := ⟨_, rfl, rfl⟩
  rw [runInputs_refused ((hx.step_eq []).trans (exec_encode_rl_refused hc))]
  rfl

/-- `RLE` after `CLEAR` and bytes without a long run: the pass goes on, and each byte was counted. -/
theorem feed_rleByte_ctl_of_short {cfg : Config} {p : List Byte} (hshort : ∀ r ∈ rlRuns p, r.2 ≤ rlMaxRun)
    (u : StreamUnit RleDp) : (feed (rleByte cfg) p (rleClear u)).ctl = advanceBy p.length Ctl.reset := by
  obtain ⟨hphase, -⟩ := feed_rleByte_run cfg p (u := rleClear u) rfl (.inl rfl) hshort rfl
  exact feed_symbolEvent_ctl hphase

theorem runInputs_rleBytes (s : State) (p : List Byte) :
    runInputs ([.send (.event .rle 0x300)] ++ p.map (fun b => .send (.event .rle (0b01#2 ++ b)))) s =
      { final := { s with rl.enc := feed (rleByte s.cfg) p (rleClear s.rl.enc), rl.encValid := false, inbox := [] }
        refusals := []
        fault := none } := by
  have hbytes : List.Forall₂ (SentFor s.cfg) (p.map fun b => .send (.event .rle (0b01#2 ++ b))) (p.map .rleByte) := by
    rw [List.forall₂_map_left_iff, List.forall₂_map_right_iff, List.forall₂_same]
    exact fun b _ => ⟨_, rfl, decode_eventWord s.cfg .rle .symbol b⟩
  have hclear : exec .rleClear s = .next (dropEncoded .rl (onRle rleClear s)) := rfl
  exact runInputs_of_execAll (.cons ⟨_, rfl, rfl⟩ hbytes) rfl
    ((execAll_cons_next hclear).trans (execAll_rleBytes p _))

/-- Settles O59: how each program ends is said above; the third one's last pass is open. -/
theorem roundTripEndsWellRefusalAndOpenPassDoNot : Obligations.RoundTripEndsWellRefusalAndOpenPassDoNot := by
  intro s hfault hopen
  have hgood : GoodFinal { s with inbox := [] } := ⟨rfl, hfault, hopen⟩
  refine ⟨fun x hs => ?_, fun hc => ?_, fun p hne hshort => ?_⟩
  · rw [runProgram, runInputs_replace_inbox, runInputs_npRoundTrip hs]
    exact ⟨rfl, rfl, hgood.replace_np rfl rfl rfl⟩
  · rw [runProgram, runInputs_replace_inbox, runInputs_encode_rl_refused hc]
    exact ⟨rfl, hgood, fun ⟨_, hrefusals, _⟩ => nomatch hrefusals⟩
  · have hctl := feed_rleByte_ctl_of_short (cfg := s.cfg) hshort s.rl.enc
    rw [runProgram, runInputs_replace_inbox, runInputs_rleBytes]
    obtain ⟨hnpSv, hnpEnc, hnpDec, hrlSv, -, hrlDec⟩ := hfault
    refine ⟨rfl, rfl, ⟨hnpSv, hnpEnc, hnpDec, hrlSv, ?_, hrlDec⟩, ?_⟩
    · simp [hctl, Ctl.reset]
    · rintro ⟨-, -, -, -, -, -, -, -, hclosed, -⟩
      refine hclosed ⟨?_, ?_⟩
      · simp [hctl, Ctl.reset]
      · simpa [hctl, advanceBy, Ctl.reset] using hne

end Sys2Proof.Machine
end

section
/-! Faults (60_exceptions.md R220, R226): what enters `FAULTED`, with which code, and what a fault entry writes. -/

namespace Sys2Proof.Machine

variable {δ : Type}

/-! ### Fault entry (R226) -/

section Entry

variable {act : δ → Except FaultCode δ} {u : StreamUnit δ} {a : FaultCode}

/-- A symbol event that enters `FAULTED` is the one branch that raises the fault. -/
theorem symbolEvent_entry (ha : ∀ f, act u.dp = .error f → f = a) (hbefore : u.ctl.phase ≠ .faulted)
    (hafter : (symbolEvent act u).ctl.phase = .faulted) :
    symbolEvent act u = { u with ctl := ⟨.faulted, a, u.ctl.inPos, u.ctl.inPos⟩ } := by
  obtain ⟨-, he⟩ | ⟨-, f, hf, he⟩ | ⟨hr, d, -, he⟩ := symbolEvent_cases act u
  · rw [he] at hafter
    exact absurd hafter hbefore
  · rw [he, ha f hf, raiseFault]
  · simp [he, hr] at hafter

/-- An `END` that enters `FAULTED` is the one branch that raises the fault. -/
theorem endEvent_entry (ha : ∀ f, act u.dp = .error f → f = a) (hbefore : u.ctl.phase ≠ .faulted)
    (hafter : (endEvent act u).ctl.phase = .faulted) :
    endEvent act u = { u with ctl := ⟨.faulted, a, u.ctl.inPos, u.ctl.inPos⟩ } := by
  obtain ⟨-, he⟩ | ⟨-, f, hf, he⟩ | ⟨-, d, -, he⟩ := endEvent_cases act u
  · rw [he] at hafter
    exact absurd hafter hbefore
  · rw [he, ha f hf, raiseFault]
  · simp [he] at hafter

end Entry

/-! ### The faults of each event (R220 to R223) -/

theorem svByteAct_error {cfg : Config} {b : Byte} {d : Unit} {f : FaultCode} (h : svByteAct cfg b d = .error f) :
    f = .invalidInput := by
  unfold svByteAct at h
  split at h <;> cases h
  rfl

theorem npeEndAct_ne_error (cfg : Config) (d : NpeDp) (f : FaultCode) : npeEndAct cfg d ≠ .error f := by
  unfold npeEndAct
  split <;> nofun

theorem cntFieldDone_error {cfg : Config} {g : Nibble} {b : Byte} {d : NpdDp} {f : FaultCode}
    (h : cntFieldDone cfg g b d = .error f) : f = .malformedStream ∧ cfg.npStrictCount = true := by
  unfold cntFieldDone at h
  split at h
  case isTrue hstrict => cases h; exact ⟨rfl, hstrict.2⟩
  case isFalse => split at h <;> cases h

/-- Of the four fields only the count can be rejected. -/
theorem fieldDone_error {cfg : Config} {b : Byte} {d : NpdDp} {f : FaultCode} (h : fieldDone cfg b d = .error f) :
    f = .malformedStream ∧ cfg.npStrictCount = true := by
  unfold fieldDone at h
  split at h
  case h_1 => unfold litFieldDone at h; split at h <;> cases h
  case h_2 => cases h
  case h_3 => exact cntFieldDone_error h
  case h_4 => unfold loFieldDone at h; split at h <;> cases h

theorem npdBitAct_error {cfg : Config} {v : Bit} {d : NpdDp} {f : FaultCode} (h : npdBitAct cfg v d = .error f) :
    f = .malformedStream ∧ cfg.npStrictCount = true := by
  unfold npdBitAct at h
  split at h
  · cases h
  · exact fieldDone_error h

theorem npdEndAct_error {d : NpdDp} {f : FaultCode} (h : npdEndAct d = .error f) : f = .malformedStream := by
  unfold npdEndAct at h
  split at h <;> cases h
  rfl

theorem rleByteAct_error {cfg : Config} {b : Byte} {d : RleDp} {f : FaultCode} (h : rleByteAct cfg b d = .error f) :
    f = .unsupportedRunLength := by
  unfold rleByteAct at h
  split at h
  case h_1 => cases h
  case h_2 =>
    split at h
    case isTrue => split at h <;> cases h; rfl
    case isFalse => cases h

theorem rleEndAct_ne_error (cfg : Config) (d : RleDp) (f : FaultCode) : rleEndAct cfg d ≠ .error f := by
  unfold rleEndAct
  split <;> nofun

theorem rldByteAct_error {cfg : Config} {b : Byte} {d : RldDp} {f : FaultCode} (h : rldByteAct cfg b d = .error f) :
    f = .malformedStream := by
  unfold rldByteAct at h
  split at h
  case h_1 => split at h <;> cases h
  case h_2 => cases h
  case h_3 => split at h <;> cases h; rfl

theorem rldEndAct_error {d : RldDp} {f : FaultCode} (h : rldEndAct d = .error f) : f = .malformedStream := by
  unfold rldEndAct at h
  split at h <;> cases h
  rfl

theorem ne_run_of_faulted {p : Phase} (h : p = .faulted) : p ≠ .run := by
  rw [h]
  nofun

/-- Settles O23: an event that enters `FAULTED` is the raising branch of `symbolEvent` or `endEvent` with the one code
its unit raises, and a faulted unit is not in `RUN`, where alone these events are processed. -/
theorem faultEntryWritesOnlyTheFaultRegisters : Obligations.FaultEntryWritesOnlyTheFaultRegisters := by
  refine ⟨fun s t b v => ⟨?_, ?_, ?_, ?_, ?_⟩, fun s b v => ⟨fun h => ?_, fun h => ?_, fun h => ?_, fun h => ?_,
    fun h => ?_, fun h => ?_⟩⟩
  · rintro h hbefore hafter
    cases h
    exact onSv_np_of_eq (symbolEvent_entry (fun _ => svByteAct_error) hbefore hafter)
  · rintro h hbefore hafter
    cases h
    exact onSv_rl_of_eq (symbolEvent_entry (fun _ => svByteAct_error) hbefore hafter)
  · rintro (h | h) hbefore hafter <;> cases h
    · exact onNpd_of_eq (symbolEvent_entry (fun _ => npdBitAct_fault) hbefore hafter)
    · exact onNpd_of_eq (endEvent_entry (fun _ => npdEndAct_error) hbefore hafter)
  · rintro h hbefore hafter
    cases h
    exact onRle_of_eq (symbolEvent_entry (fun _ => rleByteAct_error) hbefore hafter)
  · rintro (h | h) hbefore hafter <;> cases h
    · exact onRld_of_eq (symbolEvent_entry (fun _ => rldByteAct_error) hbefore hafter)
    · exact onRld_of_eq (endEvent_entry (fun _ => rldEndAct_error) hbefore hafter)
  all_goals
    have hr := ne_run_of_faulted h
    simp only [exec_svByte, exec_svEnd, exec_npeByte, exec_npeEnd, exec_npdBit, exec_npdEnd, exec_rleByte,
      exec_rleEnd, exec_rldByte, exec_rldEnd, Host.Outcome.next.injEq]
  · exact ⟨onSv_np_of_eq (svByte_ignored hr), onSv_np_of_eq (svEnd_ignored hr)⟩
  · exact ⟨onSv_rl_of_eq (svByte_ignored hr), onSv_rl_of_eq (svEnd_ignored hr)⟩
  · exact ⟨onNpe_of_eq (npeByte_ignored hr), onNpe_of_eq (npeEnd_ignored hr)⟩
  · exact ⟨onNpd_of_eq (npdBit_ignored hr), onNpd_of_eq (npdEnd_ignored hr)⟩
  · exact ⟨onRle_of_eq (rleByte_ignored hr), onRle_of_eq (rleEnd_ignored hr)⟩
  · exact ⟨onRld_of_eq (rldByte_ignored hr), onRld_of_eq (rldEnd_ignored hr)⟩

/-! ### The faults of sequences of events (R220) -/

/-- If the unit is faulted, `P` holds of its fault. With a `P` that holds of no fault: the unit is not faulted. -/
def FaultsOnly (P : FaultCode → Prop) (u : StreamUnit δ) : Prop := u.ctl.phase = .faulted → P u.ctl.fault

section FaultsOnly

variable {P : FaultCode → Prop} {act : δ → Except FaultCode δ} {u : StreamUnit δ}

theorem FaultsOnly.of_ne (h : u.ctl.phase ≠ .faulted) : FaultsOnly P u := fun hf => absurd hf h

theorem clearEvent_faultsOnly (init : δ) (u : StreamUnit δ) : FaultsOnly P (clearEvent init u) := .of_ne nofun

theorem symbolEvent_keeps_faultsOnly (ha : ∀ d f, act d = .error f → P f) (h : FaultsOnly P u) :
    FaultsOnly P (symbolEvent act u) := by
  obtain ⟨-, he⟩ | ⟨-, f, hf, he⟩ | ⟨hr, d, -, he⟩ := symbolEvent_cases act u <;> rw [he]
  · exact h
  · exact fun _ => ha _ f hf
  · exact .of_ne (by simp [hr])

theorem endEvent_keeps_faultsOnly (ha : ∀ d f, act d = .error f → P f) (h : FaultsOnly P u) :
    FaultsOnly P (endEvent act u) := by
  obtain ⟨-, he⟩ | ⟨-, f, hf, he⟩ | ⟨-, d, -, he⟩ := endEvent_cases act u <;> rw [he]
  · exact h
  · exact fun _ => ha _ f hf
  · exact .of_ne (by simp)

end FaultsOnly

/-- An `END` that raises no fault does not enter `FAULTED`. -/
theorem endEvent_ne_faulted {act : δ → Except FaultCode δ} (ha : ∀ d f, act d ≠ .error f) {u : StreamUnit δ}
    (h : u.ctl.phase ≠ .faulted) : (endEvent act u).ctl.phase ≠ .faulted :=
  endEvent_keeps_faultsOnly (P := fun _ => False) ha (.of_ne h)

theorem svByte_keeps_faultsOnly (cfg : Config) (b : Byte) {u : StreamUnit Unit}
    (h : FaultsOnly (· = .invalidInput) u) : FaultsOnly (· = .invalidInput) (svByte cfg b u) :=
  symbolEvent_keeps_faultsOnly (fun _ _ => svByteAct_error) h

theorem svPass_faultsOnly (cfg : Config) (p : List Byte) (u : StreamUnit Unit) :
    FaultsOnly (· = .invalidInput) (svPass cfg p u) :=
  endEvent_keeps_faultsOnly nofun
    (feed_keeps _ (fun b _ => svByte_keeps_faultsOnly cfg b) p _ (clearEvent_faultsOnly _ u))

/-- `NPE` raises no fault, `NPD` the malformed stream only. -/
theorem npOps_keep_faultsOnly (cfg : Config) :
    (npOps cfg).Keep (FaultsOnly fun _ => False) (FaultsOnly (· = .malformedStream)) where
  encClear := clearEvent_faultsOnly _
  encByte b _ := symbolEvent_keeps_faultsOnly (npeByteAct_ne_error cfg b)
  encEnd _ := endEvent_keeps_faultsOnly (npeEndAct_ne_error cfg)
  decClear := clearEvent_faultsOnly _
  decSymbol _ _ := symbolEvent_keeps_faultsOnly fun _ _ => npdBitAct_fault
  decEnd _ := endEvent_keeps_faultsOnly fun _ _ => npdEndAct_error

/-- `RLE` raises the unsupported run length only, `RLD` the malformed stream only. -/
theorem rlOps_keep_faultsOnly (cfg : Config) :
    (rlOps cfg).Keep (FaultsOnly (· = .unsupportedRunLength)) (FaultsOnly (· = .malformedStream)) where
  encClear := clearEvent_faultsOnly _
  encByte _ _ := symbolEvent_keeps_faultsOnly fun _ _ => rleByteAct_error
  encEnd _ := endEvent_keeps_faultsOnly fun d f h => absurd h (rleEndAct_ne_error cfg d f)
  decClear := clearEvent_faultsOnly _
  decSymbol _ _ := symbolEvent_keeps_faultsOnly fun _ _ => rldByteAct_error
  decEnd _ := endEvent_keeps_faultsOnly fun _ _ => rldEndAct_error

/-- Bits alone fault `NPD` under strict counts only. -/
theorem feed_npdBit_faultsOnly (cfg : Config) (bits : List Bit) {u : StreamUnit NpdDp} (h : u.ctl.phase ≠ .faulted) :
    FaultsOnly (fun f => f = .malformedStream ∧ cfg.npStrictCount = true) (feed (npdBit cfg) bits u) :=
  feed_keeps _ (fun v _ => symbolEvent_keeps_faultsOnly (act := npdBitAct cfg v) fun _ _ => npdBitAct_error) bits u
    (.of_ne h)

/-- Settles O24: a unit that the instruction leaves or clears does not enter `FAULTED`, nor does one whose event raises
no fault (`endEvent_ne_faulted`); any other has the fault its events can raise (`npOps_keep_faultsOnly`, `rlOps_keep_faultsOnly`,
`svPass_faultsOnly`, `feed_npdBit_faultsOnly`). -/
theorem onlyTheListedEventsEnterFaulted : Obligations.OnlyTheListedEventsEnterFaulted := by
  intro i s t h
  have npk := npOps_keep_faultsOnly s.cfg
  have rlk := rlOps_keep_faultsOnly s.cfg
  have same {p : Phase} {Q : Prop} (hbefore : p ≠ .faulted) (hafter : p = .faulted) : Q := absurd hafter hbefore
  have cleared {p : Phase} {Q : Prop} (_ : p ≠ .faulted) (hafter : Phase.run = .faulted) : Q := nomatch hafter
  have strictBits {A B C W : Prop} (bits : List Bit) (hwhich : W) (hbefore : s.np.dec.ctl.phase ≠ .faulted)
      (hafter : (feed (npdBit s.cfg) bits s.np.dec).ctl.phase = .faulted) :
      (feed (npdBit s.cfg) bits s.np.dec).ctl.fault = .malformedStream ∧
        (A ∨ B ∨ C ∨ (s.cfg.npStrictCount = true ∧ W)) :=
    (feed_npdBit_faultsOnly s.cfg bits hbefore hafter).imp_right fun hstrict => .inr (.inr (.inr ⟨hstrict, hwhich⟩))
  cases i with
  | npeNop | npdNop | rleNop | rldNop => cases h; exact ⟨same, same, id, same, same, same⟩
  | svNop c => cases c <;> cases h <;> exact ⟨same, same, id, same, same, same⟩
  | svClear c =>
    cases c <;> cases h
    · exact ⟨cleared, same, id, same, same, same⟩
    · exact ⟨same, cleared, id, same, same, same⟩
  | svByte c b =>
    cases c <;> cases h
    · exact ⟨fun h₀ h₁ => ⟨svByte_keeps_faultsOnly s.cfg b (.of_ne h₀) h₁, .inl ⟨b, rfl⟩⟩, same, id, same, same, same⟩
    · exact ⟨same, fun h₀ h₁ => ⟨svByte_keeps_faultsOnly s.cfg b (.of_ne h₀) h₁, .inl ⟨b, rfl⟩⟩, id, same, same, same⟩
  | svEnd c =>
    cases c <;> cases h
    · exact ⟨fun h₀ h₁ => absurd h₁ (endEvent_ne_faulted nofun h₀), same, id, same, same, same⟩
    · exact ⟨same, fun h₀ h₁ => absurd h₁ (endEvent_ne_faulted nofun h₀), id, same, same, same⟩
  | npeByte b => cases h; exact ⟨same, same, npk.encByte b _, same, same, same⟩
  | npeEnd => cases h; exact ⟨same, same, npk.encEnd _, same, same, same⟩
  | npeClear => cases h; exact ⟨same, same, cleared, same, same, same⟩
  | npdClear => cases h; exact ⟨same, same, id, cleared, same, same⟩
  | rleClear => cases h; exact ⟨same, same, id, same, cleared, same⟩
  | rldClear => cases h; exact ⟨same, same, id, same, same, cleared⟩
  | npdBit v => cases h; exact ⟨same, same, id, strictBits [v] (.inl ⟨v, rfl⟩), same, same⟩
  | npLit b => cases h; exact ⟨same, same, id, strictBits _ (.inr (.inl ⟨b, rfl⟩)), same, same⟩
  | npGrp hi n lo => cases h; exact ⟨same, same, id, strictBits _ (.inr (.inr ⟨hi, n, lo, rfl⟩)), same, same⟩
  | npdEnd =>
    cases h
    exact ⟨same, same, id, fun h₀ h₁ => ⟨npk.decEnd _ (.of_ne h₀) h₁, .inl rfl⟩, same, same⟩
  | rleByte b =>
    cases h
    exact ⟨same, same, id, same, fun h₀ h₁ => ⟨rlk.encByte b _ (.of_ne h₀) h₁, .inl ⟨b, rfl⟩⟩, same⟩
  | rleEnd =>
    cases h
    exact ⟨same, same, id, same, fun h₀ h₁ =>
      absurd h₁ (endEvent_ne_faulted (rleEndAct_ne_error s.cfg) h₀), same⟩
  | rldByte b =>
    cases h
    exact ⟨same, same, id, same, same, fun h₀ h₁ => ⟨rlk.decSymbol b _ (.of_ne h₀) h₁, .inl ⟨b, rfl⟩⟩⟩
  | rldEnd =>
    cases h
    exact ⟨same, same, id, same, same, fun h₀ h₁ => ⟨rlk.decEnd _ (.of_ne h₀) h₁, .inr (.inl rfl)⟩⟩
  | rlLit b =>
    cases h
    exact ⟨same, same, id, same, same, fun h₀ h₁ =>
      ⟨rlk.decFeed _ (.of_ne h₀) h₁, .inr (.inr (.inl ⟨b, rfl⟩))⟩⟩
  | rlMrk v d =>
    cases h
    exact ⟨same, same, id, same, same, fun h₀ h₁ =>
      ⟨rlk.decFeed _ (.of_ne h₀) h₁, .inr (.inr (.inr (.inl ⟨v, d, rfl⟩)))⟩⟩
  | cmdNew c p =>
    cases c <;> cases h
    · exact ⟨fun _ h₁ => ⟨svPass_faultsOnly s.cfg p _ h₁, .inr ⟨p, rfl⟩⟩, same, cleared, cleared, same, same⟩
    · exact ⟨same, fun _ h₁ => ⟨svPass_faultsOnly s.cfg p _ h₁, .inr ⟨p, rfl⟩⟩, id, same, cleared, cleared⟩
  | cmdEncode c =>
    cases c <;> obtain ⟨-, rfl⟩ := eq_of_guarded_next h
    · exact ⟨same, same, fun _ => npk.encPass s.np.payload _, same, same, same⟩
    · exact ⟨same, same, id, same, fun _ h₁ => ⟨rlk.encPass s.rl.payload _ h₁, .inr rfl⟩, same⟩
  | cmdDecode st =>
    cases st with
    | np bits =>
      cases h
      exact ⟨same, same, id, fun _ h₁ => ⟨npk.decPass bits _ h₁, .inr (.inl ⟨bits, rfl⟩)⟩, same, same⟩
    | rl bytes =>
      cases h
      exact ⟨same, same, id, same, same, fun _ h₁ =>
        ⟨rlk.decPass bytes _ h₁, .inr (.inr (.inr (.inr (.inl ⟨bytes, rfl⟩))))⟩⟩
  | cmdDecodeOwn c =>
    cases c <;> obtain ⟨-, rfl⟩ := eq_of_guarded_next h
    · exact ⟨same, same, id, fun _ h₁ => ⟨npk.decPass (npEncoded s.np) _ h₁, .inr (.inr (.inl rfl))⟩, same, same⟩
    · exact ⟨same, same, id, same, same, fun _ h₁ =>
        ⟨rlk.decPass (rlEncoded s.rl) _ h₁, .inr (.inr (.inr (.inr (.inr rfl))))⟩⟩

end Sys2Proof.Machine
end

section
/-! Taking an input (45_core_operations.md R211, 70_reset_and_hazards.md R251), and what the two ways of restoring
registers leave: the reset input (R250) and `CLEAR` of one unit. -/

namespace Sys2Proof.Machine

/-! ### Taking an input -/

theorem step_of_inbox_nil {s : State} (h : s.inbox = []) : step s = .next s := by
  simp only [step, h]

theorem step_of_inbox_instruction {s : State} {r : Request} {rest : List HostInput} {i : Instr}
    (h : s.inbox = .send r :: rest) (hr : decode s.cfg r = .ok i) : step s = exec i { s with inbox := rest } := by
  simp only [step, h, hr]

theorem step_of_inbox_notAnInstruction {s : State} {r : Request} {rest : List HostInput} {e : DecodeError}
    (h : s.inbox = .send r :: rest) (hr : decode s.cfg r = .error e) : step s = .fault (.notAnInstruction e) := by
  simp only [step, h, hr]

/-- Settles O1: the three parts are the three lemmas above, one for each branch of `step` but the reset input's. -/
theorem stepTakesTheNextInput : Obligations.StepTakesTheNextInput := fun _ _ =>
  ⟨step_of_inbox_nil, fun _ _ => step_of_inbox_instruction, fun _ _ => step_of_inbox_notAnInstruction⟩

/-! ### `CLEAR` of one unit

`svClear` and its like are `clearEvent`, which forgets the unit's old state; an encoder or a decoder loses the flag of
its emptied buffer too (notes/assumptions/7.md). -/

theorem exec_svClear_np (s : State) : exec (.svClear .np) s = .next { s with np.sv := ⟨Ctl.reset, ()⟩ } := rfl

theorem exec_svClear_rl (s : State) : exec (.svClear .rl) s = .next { s with rl.sv := ⟨Ctl.reset, ()⟩ } := rfl

theorem exec_npeClear (s : State) :
    exec .npeClear s = .next { s with np.enc := ⟨Ctl.reset, NpeDp.reset⟩, np.encValid := false } := rfl

theorem exec_npdClear (s : State) :
    exec .npdClear s = .next { s with np.dec := ⟨Ctl.reset, NpdDp.reset⟩, np.decValid := false } := rfl

theorem exec_rleClear (s : State) :
    exec .rleClear s = .next { s with rl.enc := ⟨Ctl.reset, RleDp.reset⟩, rl.encValid := false } := rfl

theorem exec_rldClear (s : State) :
    exec .rldClear s = .next { s with rl.dec := ⟨Ctl.reset, RldDp.reset⟩, rl.decValid := false } := rfl

/-- Settles O2: the `CLEAR` words are those of `decode_eventWord` and `decode_bitEventWord`; the reset input runs
`assertReset` on what was sent after it (`step_of_inbox_reset`), `CLEAR` does what the lemma of its unit says, and the
values are those of `Ctl.reset` and of the datapaths' resets. -/
theorem resetAndClearRestoreTheListedValues : Obligations.ResetAndClearRestoreTheListedValues := by
  intro s
  have hword (p : BytePort) (b : Byte) := decode_eventWord s.cfg p .clear b
  refine ⟨fun b => ⟨hword (.sv .np) b, hword (.sv .rl) b, hword .npe b, hword .rle b, hword .rld b⟩,
    decode_bitEventWord s.cfg .clear, fun rest h => ?_, exec_svClear_np s, exec_svClear_rl s, exec_npeClear s,
    exec_npdClear s, exec_rleClear s, exec_rldClear s⟩
  rw [step_of_inbox_reset h]
  rfl

end Sys2Proof.Machine
end
